-- ==== Sys2Proof/Word.lean ====
section
/-! DEFINITION. The word, code and byte types of the core, the pair (re, im), and the one-bit names that
the encodings and the registers use (00_scope.md R9, R12, R13; 20_memory.md R71, R72). -/

namespace Sys2Proof

/-- Every register and every port word is 32 bits wide (R9); a binary32 value is its 32-bit encoding (R13). -/
abbrev Word := BitVec 32

/-- A 16-bit code: an element of RAW or SPEC, or the MID field (R55, R60, R34). -/
abbrev Half := BitVec 16

/-- One byte of the little-endian byte view of a word (R71). -/
abbrev Byte := BitVec 8

/-- A host transfer carries a byte offset in the core's 1 MiB aperture: 20 address bits (R66). -/
abbrev Offset := BitVec 20

/-- An ordered pair (real, imaginary) of binary32 values (R12). -/
structure ComplexValue where
  re : Word
  im : Word
deriving DecidableEq, Repr, Inhabited

/-- A work bank: `a` is `WORK[0]`, `b` is `WORK[1]` (R58, R89). -/
inductive Bank where
  | a
  | b
deriving DecidableEq, Repr

/-- The one-bit code of a bank operand (R92). -/
def Bank.bit : Bank → Bool
  | .a => false
  | .b => true

/-- The bank a one-bit operand names (R92). -/
def Bank.ofBit : Bool → Bank
  | false => .a
  | true => .b

/-- A frame buffer, identified by its index 0 or 1 (R21). -/
inductive Slot where
  | s0
  | s1
deriving DecidableEq, Repr

/-- `1 - s` (R147). -/
def Slot.other : Slot → Slot
  | .s0 => .s1
  | .s1 => .s0

/-- The index of a slot as the one-bit field ACTIVE or CLAIM_SLOT shows it (R36, R48). -/
def Slot.bit : Slot → Bool
  | .s0 => false
  | .s1 => true

/-- Which of the two word formats a word is written in: `command` is format C (register CMD), `producer` is
format P (the producer port) (R88). -/
inductive Format where
  | command
  | producer
deriving DecidableEq, Repr

end Sys2Proof
end

