-- ==== Sys2Proof/Config.lean ====
section
/-! DEFINITION. What an implementation fixes (the build parameters, the numerics record NUM among them, R7, R15), the
constants of the identification registers (R30, R31) and the free values: constants without a body, of which nothing is known
(R61). -/

namespace Sys2Proof

/-- The numerics record of R15: the arithmetic primitives on binary32 values, and the table values `twiddle N k` (R116) and
`window kind N n` (R129). -/
structure Numerics where
  fadd : Word → Word → Word
  fsub : Word → Word → Word
  fmul : Word → Word → Word
  fdiv : Word → Word → Word
  fsqrt : Word → Word
  twiddle : Nat → Nat → ComplexValue
  window : Nat → Nat → Nat → Word
deriving Inhabited

/-- The record NUM of a build, by name, since a state holds no functions (DESIGN CHOICE, log entry 1). -/
inductive NumericsChoice where
  /-- The record for this hardware: IEEE binary32 under R13, R14 and the table rules. -/
  | binary32
  /-- Any other record: it is left uninterpreted, as R15 allows. -/
  | other
deriving DecidableEq, Repr

/-- The build parameters of R7, and CORE_BASE (R76, D38, I17). A model takes each as an argument, so they stand in
`State.build`, which no step writes, and a statement about every state is a statement about every build (DESIGN CHOICE, log
entry 1). -/
structure Build where
  /-- LOG2_NMAX, legal values 1 to 14. -/
  log2Nmax : Nat
  /-- MAG_EPS, the epsilon of the max-magnitude fallback, a positive binary32 value. -/
  magEps : Word
  /-- CORE_BASE, the system address of offset 0 of the aperture, a multiple of 1 MiB. -/
  coreBase : Nat
  /-- NUM, the numerics record. -/
  num : NumericsChoice
deriving DecidableEq, Repr

/-- NMAX = 2^LOG2_NMAX: the largest frame length, the size of a frame buffer, of the window table and of a work bank (R7). -/
def Build.nmax (b : Build) : Nat := 2 ^ b.log2Nmax

/-- The values R7 gives for this hardware: LOG2_NMAX = 10, MAG_EPS = 2^-20 and NUM = IEEE binary32. CORE_BASE is OPEN (R76):
0 (DESIGN CHOICE, log entry 18). -/
def Build.default : Build := ⟨10, 0x35800000#32, 0, .binary32⟩

/-- The constant of register ID, "FFT2" (R30). -/
def Config.idValue : Word := 0x46465432#32

/-- The VERSION field of PARAM (R31). -/
def Config.version : BitVec 8 := 0x01#8

/-- FREE VALUE (R61, I1): the draw with number `n`, a word of which nothing is known. A read of a RAM element that
nothing has written since reset takes the next draw; `State.draws` counts them (DESIGN CHOICE, log entry 8). -/
opaque Config.freeWord : Nat → Word

/-- FREE VALUE (R15, I18): the numerics record of a build whose NUM is not the default, of which nothing is known, so what is
true of it is true of every record (DESIGN CHOICE, log entry 1). -/
opaque Config.otherNumerics : Numerics

/-- FREE VALUE: `trunc` of a value that is negative or not finite, which R10 does not define; only a record NUM other than
the default can ask for one (DESIGN CHOICE, log entry 21). -/
opaque Config.truncOpen : Word → Nat

/-- FREE VALUE: the table entry the model gives where its enclosure of the exact real value does not decide
the rounding of R116 or R129; the three arguments name the entry. No entry of any legal build is known to need it
(DESIGN CHOICE, log entry 11). -/
opaque Config.unsettledEntry : Nat → Nat → Nat → Word

end Sys2Proof
end

