-- ==== Sys2Proof/Machine/Numerics.lean ====
section
/-! DEFINITION. The record NUM for this hardware (00_scope.md R15): the binary32 primitives of R14 in exact integer
arithmetic, and the twiddle and window table entries of 41_fft.md R116 and 42_window.md R129, R130; the record NUM of a
build; and complex arithmetic over any record.

Every finite binary32 value is an integer multiple of 2^-149, so the primitives compute the exact result as a ratio of
naturals in that unit and round it once. -/

namespace Sys2Proof.NUM

/-! ### Encodings (R13, R16) -/

/-- 1.0 (R16). -/
def one : Word := 0x3F800000#32

/-- +0.0 (R16). -/
def zero : Word := 0x00000000#32

/-- The canonical quiet NaN (R14). -/
def nan : Word := 0x7FC00000#32

/-- The sign, bit 31 (R13). -/
def sign (x : Word) : Bool := x.msb

/-- Bits 30:0: the encoding of the absolute value (R13). -/
def magBits (x : Word) : Nat := x.toNat % 2 ^ 31

/-- The encoding of +infinity as a natural. -/
def infBits : Nat := 0x7F800000

def isNaN (x : Word) : Bool := infBits < magBits x
def isInf (x : Word) : Bool := magBits x = infBits
def isZero (x : Word) : Bool := magBits x = 0
def isFinite (x : Word) : Bool := magBits x < infBits

/-- The absolute value of a finite binary32 value in units of 2^-149: the significand shifted by the exponent,
subnormals kept (R13, R14). -/
def units (x : Word) : Nat :=
  let e := magBits x / 2 ^ 23
  let f := magBits x % 2 ^ 23
  if e = 0 then f else (f + 2 ^ 23) * 2 ^ (e - 1)

/-- Sign and absolute-value bits put together. -/
def pack (s : Bool) (m : Nat) : Word := BitVec.ofNat 32 ((if s then 2 ^ 31 else 0) + m)

/-- Round to nearest, ties to even (R14): the absolute-value bits of the binary32 value nearest to `p / q` units of
2^-149; a result beyond the largest finite value is infinity. The significand `m` has 24 bits unless the value is
subnormal, and a carry out of it runs into the exponent field. -/
def roundMag (p q : Nat) : Nat :=
  let e := Nat.log2 (p / q) - 23
  let d := q * 2 ^ e
  let m := p / d
  let r := p % d
  let up := decide (d < 2 * r) || (decide (2 * r = d) && decide (m % 2 = 1))
  min (e * 2 ^ 23 + m + (if up then 1 else 0)) infBits

/-! ### The primitives of R14 -/

/-- Change of sign. -/
def neg (x : Word) : Word := x ^^^ 0x80000000#32

/-- The signed exact value of a finite encoding, in units of 2^-149. -/
def signedUnits (x : Word) : Int := if sign x then -(units x : Int) else units x

/-- `fadd` (R14). An exact zero sum is -0.0 only when both operands are negative zeros (PRESUMED, log entry 12, as are the
special cases of the other primitives). -/
def fadd (x y : Word) : Word :=
  if isNaN x || isNaN y then nan
  else if isInf x then (if isInf y && (sign x != sign y) then nan else x)
  else if isInf y then y
  else
    let v := signedUnits x + signedUnits y
    if v = 0 then pack (isZero x && isZero y && sign x && sign y) 0
    else pack (decide (v < 0)) (roundMag v.natAbs 1)

/-- `fsub` (R14): the sum with the second operand's sign changed. -/
def fsub (x y : Word) : Word := fadd x (neg y)

/-- `fmul` (R14). -/
def fmul (x y : Word) : Word :=
  let s := sign x != sign y
  if isNaN x || isNaN y then nan
  else if isInf x || isInf y then (if isZero x || isZero y then nan else pack s infBits)
  else pack s (roundMag (units x * units y) (2 ^ 149))

/-- `fdiv` (R14). -/
def fdiv (x y : Word) : Word :=
  let s := sign x != sign y
  if isNaN x || isNaN y then nan
  else if isInf x then (if isInf y then nan else pack s infBits)
  else if isInf y then pack s 0
  else if isZero y then (if isZero x then nan else pack s infBits)
  else pack s (roundMag (units x * 2 ^ 149) (units y))

/-- The integer square root by trial bits from bit `k - 1` down, starting from `acc`. -/
def isqrtFrom (n : Nat) : Nat → Nat → Nat
  | 0, acc => acc
  | k + 1, acc =>
    let t := acc + 2 ^ k
    isqrtFrom n k (if t * t ≤ n then t else acc)

/-- The floor of the square root of `n`. -/
def isqrt (n : Nat) : Nat := isqrtFrom n (Nat.log2 n / 2 + 1) 0

/-- `fsqrt` (R14): the root is taken with two fraction bits below the unit and a sticky bit, which decides every
rounding as the exact root does. -/
def fsqrt (x : Word) : Word :=
  if isNaN x then nan
  else if isZero x then x
  else if sign x then nan
  else if isInf x then x
  else
    let n := units x * 2 ^ 149 * 16
    let r := isqrt n
    pack false (roundMag (2 * r + (if r * r = n then 0 else 1)) 8)

/-- `f32(i)`: the conversion of an integer with |i| < 2^24, which is exact (R14). Zero gives +0.0. -/
def f32 (i : Int) : Word := pack (decide (i < 0)) (roundMag (i.natAbs * 2 ^ 149) 1)

/-- IEEE `x > y`: false when an operand is a NaN (R14). -/
def fgt (x y : Word) : Bool :=
  if isNaN x || isNaN y then false
  else
    match sign x, sign y with
    | false, false => decide (magBits y < magBits x)
    | true, true => decide (magBits x < magBits y)
    | false, true => decide (0 < magBits x + magBits y)
    | true, false => false

/-- IEEE `x < y` (R14). -/
def flt (x y : Word) : Bool := fgt y x

/-- `trunc(x)`: the integer part of a finite non-negative value; R10 defines no other (log entry 21). -/
def trunc (x : Word) : Nat :=
  if isFinite x && (!sign x || isZero x) then units x / 2 ^ 149 else Config.truncOpen x

/-! ### The cosine of a rational part of a turn, enclosed (R116, R130; log entry 11) -/

/-- The number of fraction bits of the fixed-point computation. -/
def fixBits : Nat := 128

/-- The floor of pi * 2^128. -/
def piFix : Nat := 1069028584064966747859680373161870783300

/-- Half the width of the enclosure, in units of 2^-128: far above the sum of the truncation errors of `cosSeries`. -/
def fixSlack : Nat := 2 ^ 12

/-- The alternating series of the cosine: `t` is the term x^(2k)/(2k)!, `x2` is x^2, both with 128 fraction bits;
`pos` and `sub` gather the terms of even and odd k. -/
def cosSeries (x2 : Nat) : Nat → Nat → Nat → Nat → Nat → Int
  | 0, _, _, pos, sub => (pos : Int) - (sub : Int)
  | fuel + 1, k, t, pos, sub =>
    let t' := t * x2 / 2 ^ fixBits / ((2 * k + 1) * (2 * k + 2))
    if k % 2 = 0 then cosSeries x2 fuel (k + 1) t' (pos + t) sub
    else cosSeries x2 fuel (k + 1) t' pos (sub + t)

/-- An enclosure of cos(2 pi a / b), for an angle of at most a quarter turn (4a <= b), with 128 fraction bits; exact at
0 and at a quarter turn. -/
def cosQuarter (a b : Nat) : Int × Int :=
  if a = 0 then (2 ^ fixBits, 2 ^ fixBits)
  else if 4 * a = b then (0, 0)
  else
    let x := 2 * piFix * a / b
    let c := cosSeries (x * x / 2 ^ fixBits) 32 0 (2 ^ fixBits) 0 0
    (c - fixSlack, c + fixSlack)

/-- An enclosure of cos(2 pi a / b) for 0 <= a <= b: cos(2 pi - x) = cos x and cos(pi - x) = -cos x bring the angle into
the first quarter turn. -/
def cosTurn (a b : Nat) : Int × Int :=
  let a := if b < 2 * a then b - a else a
  if b < 4 * a then
    let c := cosQuarter (b - 2 * a) (2 * b)
    (-c.2, -c.1)
  else cosQuarter a b

/-- The encoding of the binary32 value nearest to `v / (q * 2^128)`. -/
def roundFix (v : Int) (q : Nat) : Word :=
  pack (decide (v < 0)) (roundMag (v.natAbs * 2 ^ 149) (q * 2 ^ fixBits))

/-- `RN` of a real in the enclosure `c / (q * 2^128)`, where both ends round to one value; an exact zero gives +0.0. -/
def settle (c : Int × Int) (q : Nat) : Option Word :=
  if roundFix c.1 q = roundFix c.2 q then some (roundFix c.1 q) else none

/-! ### The tables (R116, R129, R130) -/

/-- An enclosure of -sin(2 pi k/n) for k < n/2: the sine is the cosine of the distance from a quarter turn. -/
def minusSinTurn (k n : Nat) : Int × Int :=
  let s := cosTurn (if 4 * k < n then n - 4 * k else 4 * k - n) (4 * n)
  (-s.2, -s.1)

/-- `NUM.twiddle(N, k)`: `(RN(cos(2 pi k/N)), RN(-sin(2 pi k/N)))` for k < N/2 (R116). -/
def twiddle (n k : Nat) : ComplexValue :=
  ⟨(settle (cosTurn k n) 1).getD (Config.unsettledEntry 5 n k),
   (settle (minusSinTurn k n) 1).getD (Config.unsettledEntry 6 n k)⟩

/-- The coefficients of 1, -cos θ, cos 2θ and -cos 3θ for a window kind, times 100000, exactly as the document writes
them (R130, R131). -/
def windowCoeffs : Nat → Nat × Nat × Nat × Nat
  | 0 => (100000, 0, 0, 0)
  | 1 => (50000, 50000, 0, 0)
  | 2 => (53836, 46164, 0, 0)
  | 3 => (42000, 50000, 8000, 0)
  | _ => (35875, 48829, 14128, 1168)

/-- An enclosure of 100000 * w_kind(n), with θ = 2 pi n/(N - 1) (R130). -/
def windowFix (kind n i : Nat) : Int × Int :=
  let c := windowCoeffs kind
  let c1 := cosTurn i (n - 1)
  let c2 := cosTurn (2 * i % (n - 1)) (n - 1)
  let c3 := cosTurn (3 * i % (n - 1)) (n - 1)
  (c.1 * 2 ^ fixBits - c.2.1 * c1.2 + c.2.2.1 * c2.1 - c.2.2.2 * c3.2,
   c.1 * 2 ^ fixBits - c.2.1 * c1.1 + c.2.2.1 * c2.2 - c.2.2.2 * c3.1)

/-- `NUM.window(kind, N, n)` for n < N: `RN(w_kind(n))` (R129). -/
def window (kind n i : Nat) : Word :=
  (settle (windowFix kind n i) 100000).getD (Config.unsettledEntry kind n i)

/-- The record NUM for this hardware (R15): IEEE binary32 under R13, R14 and the table rules. -/
def binary32 : Numerics := ⟨fadd, fsub, fmul, fdiv, fsqrt, twiddle, window⟩

end Sys2Proof.NUM

namespace Sys2Proof

/-- The record NUM of a build (R7, R15). -/
def Build.numerics (b : Build) : Numerics :=
  match b.num with
  | .binary32 => NUM.binary32
  | .other => Config.otherNumerics

/-! ### Complex arithmetic over a record (R12, R118) -/

/-- Complex addition, componentwise (R12). -/
def Numerics.cadd (num : Numerics) (x y : ComplexValue) : ComplexValue := ⟨num.fadd x.re y.re, num.fadd x.im y.im⟩

/-- Complex subtraction, componentwise (R12). -/
def Numerics.csub (num : Numerics) (x y : ComplexValue) : ComplexValue := ⟨num.fsub x.re y.re, num.fsub x.im y.im⟩

/-- Complex multiplication, the twiddle factor first; each product is rounded before the sum (R118). -/
def Numerics.cmul (num : Numerics) (w x : ComplexValue) : ComplexValue :=
  ⟨num.fsub (num.fmul w.re x.re) (num.fmul w.im x.im), num.fadd (num.fmul w.re x.im) (num.fmul w.im x.re)⟩

end Sys2Proof
end

