-- ==== Sys2Proof/Syntax.lean ====
section
/-! DEFINITION. The operations of the core that have a word: eleven commands of format C and two producer
words of format P, one constructor per row of spec/opcode_table.json (30_encoding.md R93, R94). Host bus reads and
writes are steps of the HOST agent and carry no encoded word (R88); they are in Machine/State.lean. -/

namespace Sys2Proof

/-- One constructor per row of the opcode table. Every operand's type holds exactly the values the encoding
admits: a bank is one bit (R92), a sample code is the 16 bits CODE (R90, R91). -/
inductive Instr where
  | nop
  | configure
  | start
  | stop
  | claim
  | release
  | convert
  | fft (src dst : Bank)
  | mag (src : Bank)
  | norm
  | process
  | smp (code : Half)
  | frc
deriving DecidableEq, Repr

end Sys2Proof
end

