-- ==== Sys2Proof/WellFormed.lean ====
section
/-! DEFINITION. The checks on terms that a model user writes: an instruction, a build, a configuration and the numbers
of a host statement. -/

namespace Sys2Proof

/-- Every instruction is well formed: the operand types of `Instr` hold exactly the values that the encodings of R92 and R90
admit, so no term of `Instr` lacks a word. The checks that can fail are those below. -/
def Instr.wellFormed : Instr → Bool
  | .nop => true
  | .configure => true
  | .start => true
  | .stop => true
  | .claim => true
  | .release => true
  | .convert => true
  | .fft _ _ => true
  | .mag _ => true
  | .norm => true
  | .process => true
  | .smp _ => true
  | .frc => true

/-- A legal build: LOG2_NMAX is 1 to 14 and MAG_EPS is a positive binary32 value (finite, not zero, sign bit 0) (R7), and
CORE_BASE is a multiple of 1 MiB (I17). -/
def Build.wellFormed (b : Build) : Bool :=
  decide (1 ≤ b.log2Nmax) && decide (b.log2Nmax ≤ 14) &&
    decide (0 < b.magEps.toNat) && decide (b.magEps.toNat < 0x7F800000) && decide (b.coreBase % 2 ^ 20 = 0)

/-- A legal frame length: a power of two, 2 <= n <= nmax (R8). -/
def frameLengthOk (nmax n : Nat) : Bool :=
  decide (2 ≤ n) && decide (n &&& (n - 1) = 0) && decide (n ≤ nmax)

/-- A legal configuration (R8): the run-time fields N, WIN_KIND, SAMPLE_BITS, OUT_BITS and MID. -/
def configurationOk (nmax n kind sampleBits outBits mid : Nat) : Bool :=
  frameLengthOk nmax n && decide (kind ≤ 4) && decide (1 ≤ sampleBits) && decide (sampleBits ≤ 16) &&
    decide (1 ≤ outBits) && decide (outBits ≤ 16) && decide (1 ≤ mid) && decide (mid ≤ 2 ^ sampleBits - 1)

/-- The number in a statement `smp <code>` fits the field CODE (R90, R102). -/
def sampleNumberOk (code : Nat) : Bool := decide (code < 2 ^ 16)

/-- An element index in a statement names an element of a window with `count` elements (R75, R102). -/
def elementOk (count i : Nat) : Bool := decide (i < count)

end Sys2Proof
end

