-- ==== Sys2Proof/Decode.lean ====
section
/-! DEFINITION. The two 32-bit word formats (30_encoding.md R88 to R97): format C decoding, format P decoding, decoding of any
bytes, the encoder written from the same tables, and the decoder of the opcode table's words. -/

namespace Sys2Proof

/-- Why bytes or a word are no instruction. -/
inductive DecodeError where
  /-- Format C: an unassigned OPC or a reserved bit that is 1 (R95). -/
  | illegalCommand
  /-- Format P: KIND = 10 or 11 (R96). -/
  | reservedProducerWord
  /-- Not four bytes: every word is exactly 32 bits (R88). -/
  | notOneWord
deriving DecidableEq, Repr

/-! ### Fields (R89, R90) -/

/-- OPC, bits 7:0 of a format C word (R89). -/
def opcOf (w : Word) : BitVec 8 := w.extractLsb' 0 8

/-- SRC, bit 8 (R89, R92). -/
def srcOf (w : Word) : Bank := Bank.ofBit (w.getLsbD 8)

/-- DST, bit 9 (R89, R92). -/
def dstOf (w : Word) : Bank := Bank.ofBit (w.getLsbD 9)

/-- KIND, bits 31:30 of a format P word (R90). -/
def kindOf (w : Word) : BitVec 2 := w.extractLsb' 30 2

/-- CODE, bits 15:0 of a format P word (R90). -/
def codeOf (w : Word) : Half := w.extractLsb' 0 16

/-! ### Format C (R93, R95) -/

/-- How many operand bits, from bit 8 up, a format C instruction has: FFT two (SRC, DST), MAG one (SRC), every other
none (R89). -/
def operandBits : Instr → Nat
  | .fft _ _ => 2
  | .mag _ => 1
  | .nop | .configure | .start | .stop | .claim | .release | .convert | .norm | .process | .smp _ | .frc => 0

/-- The command an OPC names, with the operands the word's bits 9:8 give (R93). -/
def commandOf (opc : Nat) (src dst : Bank) : Option Instr :=
  match opc with
  | 0x00 => some .nop
  | 0x01 => some .configure
  | 0x02 => some .start
  | 0x03 => some .stop
  | 0x04 => some .claim
  | 0x05 => some .release
  | 0x10 => some .convert
  | 0x11 => some (.fft src dst)
  | 0x12 => some (.mag src)
  | 0x13 => some .norm
  | 0x14 => some .process
  | _ => none

/-- `decodeC` (R97): a word selects a command when its OPC is assigned and every bit above the command's operand fields
is 0. -/
def decodeC (w : Word) : Except DecodeError Instr :=
  match commandOf (opcOf w).toNat (srcOf w) (dstOf w) with
  | none => .error .illegalCommand
  | some i => if w.toNat / 2 ^ (8 + operandBits i) = 0 then .ok i else .error .illegalCommand

/-! ### Format P (R94, R96) -/

/-- `decodeP` (R97): KIND selects SMP or FRC; bits 29:16, and bits 15:0 of FRC, are ignored. -/
def decodeP (w : Word) : Except DecodeError Instr :=
  match (kindOf w).toNat with
  | 0 => .ok (.smp (codeOf w))
  | 1 => .ok .frc
  | _ => .error .reservedProducerWord

/-! ### Words from bytes (R71, R88) -/

/-- The word whose byte k is bits 8k+7 : 8k (R71). -/
def wordOfBytes (b0 b1 b2 b3 : Byte) : Word := b3 ++ b2 ++ b1 ++ b0

/-- Byte k of a word (R71). -/
def byteOf (w : Word) (k : Nat) : Byte := w.extractLsb' (8 * k) 8

/-- A word read as an instruction of one of the two formats. -/
def decodeWord (f : Format) (w : Word) : Except DecodeError Instr :=
  match f with
  | .command => decodeC w
  | .producer => decodeP w

/-- Decoding of any bytes in the little-endian byte view (R71): exactly four bytes are a word, in either format. -/
def decode (f : Format) (bytes : List Byte) : Except DecodeError Instr :=
  match bytes with
  | [b0, b1, b2, b3] => decodeWord f (wordOfBytes b0 b1 b2 b3)
  | _ => .error .notOneWord

/-! ### Encoding (R103, R90, R102) -/

/-- The format an instruction is written in. -/
def formatOf : Instr → Format
  | .smp _ | .frc => .producer
  | .nop | .configure | .start | .stop | .claim | .release | .convert | .fft _ _ | .mag _ | .norm | .process => .command

/-- One bit at a place. -/
def bitAt (b : Bool) (k : Nat) : Word := BitVec.ofNat 32 (b.toNat * 2 ^ k)

/-- The word of an instruction (R103 for commands; R90, R102 for producer words, their ignored bits 0). -/
def encode : Instr → Word
  | .nop => 0x00000000#32
  | .configure => 0x00000001#32
  | .start => 0x00000002#32
  | .stop => 0x00000003#32
  | .claim => 0x00000004#32
  | .release => 0x00000005#32
  | .convert => 0x00000010#32
  | .fft src dst => 0x00000011#32 ||| bitAt src.bit 8 ||| bitAt dst.bit 9
  | .mag src => 0x00000012#32 ||| bitAt src.bit 8
  | .norm => 0x00000013#32
  | .process => 0x00000014#32
  | .smp code => code.setWidth 32
  | .frc => 0x40000000#32

/-- The bytes of an instruction in the little-endian byte view (R71). -/
def encodeBytes (i : Instr) : List Byte :=
  [byteOf (encode i) 0, byteOf (encode i) 1, byteOf (encode i) 2, byteOf (encode i) 3]

/-! ### The opcode table's words -/

/-- The instruction the decoder reads from a word of the opcode table. The table numbers the rows of both formats in
the same 32 bits and the word alone does not say which port it goes to: a word that is a command is read as the command, and
any other word as a producer word, so the words SMP shares with a command read as the command (DESIGN CHOICE, log entry 7). -/
def decodeTableWord (nbits w : Nat) : Option Instr :=
  if nbits ≤ 32 then
    match decodeC (BitVec.ofNat 32 (w % 2 ^ nbits)) with
    | .ok i => some i
    | .error _ =>
      match decodeP (BitVec.ofNat 32 (w % 2 ^ nbits)) with
      | .ok i => some i
      | .error _ => none
  else none

end Sys2Proof
end

