-- ==== Sys2Proof/Machine/State.lean ====
section
/-! DEFINITION. The state of the core (10_state.md), the agents and what waits to be done by each (00_scope.md R6), the reasons a
step can stop, and the state after reset (R64, R193). -/

namespace Sys2Proof.Machine

/-! ### Registers with fields -/

/-- The fields of CONFIG and of ACT_CONFIG (R32, R45); every other bit of those registers is reserved. -/
structure ConfigReg where
  winKind : BitVec 3
  sampleBits : BitVec 5
  outBits : BitVec 5
deriving DecidableEq, Repr

/-- The fields of ERR (R38). -/
structure ErrReg where
  cause : BitVec 8
  opc : BitVec 8
  port : Bool
  multi : Bool
deriving DecidableEq, Repr

/-- A pair of one-bit flags, one per slot: `ready` (R49), `held` (R50). -/
structure SlotFlags where
  f0 : Bool
  f1 : Bool
deriving DecidableEq, Repr

/-- The snapshot `S = (n, kind, sb, ob, mid)` of the staging registers that CONFIGURE takes at its issue (R107). -/
structure Snapshot where
  n : Word
  config : ConfigReg
  mid : Half
deriving DecidableEq, Repr

/-- `pend`: the accepted command word and the snapshot of a pending CONFIGURE (R52). -/
structure Pending where
  word : Word
  snapshot : Snapshot
deriving DecidableEq, Repr

/-- The error codes of R173; NONE is the absence of one. -/
inductive ErrCode where
  | invalidSize
  | sizeExceeded
  | badParam
  | illegalCmd
  | busy
  | notConfigured
  | runState
  | noClaim
  | claimHeld
  | portOverrun
  | portShort
  | portReserved
deriving DecidableEq, Repr

/-- The host-visible registers (R27). -/
inductive Reg where
  | id
  | param
  | config
  | frameN
  | midCode
  | cmd
  | status
  | wp
  | err
  | dropCount
  | frameCount
  | specSeq
  | maxMag
  | irqStatus
  | irqEnable
  | actN
  | actConfig
  | actMid
deriving DecidableEq, Repr

/-- The RAM windows (R74). -/
inductive Window where
  | raw0
  | raw1
  | twid
  | win
  | workA
  | workB
  | mag
  | spec
deriving DecidableEq, Repr

/-! ### Memory -/

/-- The on-chip RAM arrays RAW, TWID, WIN, WORK, MAG and SPEC (R55 to R60) in the byte view of the aperture (R71, R74):
pairs of a byte offset and its byte. A byte that is not listed belongs to an element that nothing has written since reset
and has no value; a read of it takes a draw (R61). A 16-bit element lists its two bytes, a 32-bit component its four (DESIGN
CHOICE, log entry 10). -/
abbrev Memory := List Host.Cell

/-- The canonical form: offsets strictly rising. An unlisted byte has no value, so no entry equals what an unlisted offset
reads as. -/
abbrev Memory.wf (m : Memory) : Prop := m.Pairwise (fun c d => c.1 < d.1)

/-! ### The agents (R6) and what waits for them -/

/-- What a bus master does next. `read` and `write` are the host bus transfers of R68 and R69; `poll` is the host's loop of
R104, one read a step until `(read AND mask) = value` (DESIGN CHOICE, log entry 17). -/
inductive HostOp where
  | read (at_ : Offset)
  | write (at_ : Offset) (value : Word)
  | poll (at_ : Offset) (mask value : Word)
deriving DecidableEq, Repr

/-- What a read returned to a bus master. -/
structure ReadReturn where
  master : Nat
  at_ : Offset
  value : Word
deriving DecidableEq, Repr

/-- Who makes the next step (R6): a bus master, the producer, the engine, or the reset input, which is asserted or
released (R190). -/
inductive Agent where
  | host (master : Nat)
  | producer
  | engine
  | assertReset
  | releaseReset
deriving DecidableEq, Repr

/-! ### The state -/

/-- The state: the core's registers, its internal flags and its RAM (R25), then what the model holds for the world
outside the core. -/
structure State where
  /-- The build parameters (R7), NUM among them, and CORE_BASE (R76), which no step writes. -/
  build : Build
  /-- CONFIG, the staging configuration fields (R32). -/
  config : ConfigReg
  /-- FRAME_N, the staging frame length (R33). -/
  frameN : Word
  /-- MID_CODE.MID, the staging neutral code (R34). -/
  midCode : Half
  /-- ERR (R38). -/
  err : ErrReg
  /-- DROP_COUNT (R39). -/
  dropCount : Word
  /-- FRAME_COUNT (R40). -/
  frameCount : Word
  /-- SPEC_SEQ (R41). -/
  specSeq : Word
  /-- MAXMAG (R42). -/
  maxMag : Word
  /-- IRQ_STATUS bits 3:0 (R43). -/
  irqStatus : BitVec 4
  /-- IRQ_ENABLE bits 3:0 (R44). -/
  irqEnable : BitVec 4
  /-- ACT_N (R45). -/
  actN : Word
  /-- ACT_CONFIG (R45). -/
  actConfig : ConfigReg
  /-- ACT_MID (R45). -/
  actMid : Half
  /-- `cfg_valid` (R46). -/
  cfgValid : Bool
  /-- `run` (R47). -/
  run : Bool
  /-- `active`, the slot the producer writes (R48). -/
  active : Slot
  /-- `ready[0]`, `ready[1]` (R49). -/
  ready : SlotFlags
  /-- `held[0]`, `held[1]` (R50). -/
  held : SlotFlags
  /-- `wp`, the producer write pointer (R51). -/
  wp : BitVec 15
  /-- `busy` (R52). -/
  busy : Bool
  /-- `pend` (R52), meaningful only while `busy` = 1. -/
  pend : Pending
  /-- RAW, TWID, WIN, WORK, MAG, SPEC (R55 to R60). -/
  mem : Memory
  /-- The level of the reset input (R190). -/
  resetHeld : Bool
  /-- What each bus master still has to do, oldest first (R80, R187; DESIGN CHOICE, log entry 3). -/
  masters : List (List HostOp)
  /-- The producer words still to be delivered, oldest first (R141). -/
  port : List Word
  /-- The bus masters whose RAM window transfer holds, in the order in which it came to hold (R78, R208; DESIGN CHOICE, log
  entry 3). -/
  stalled : List Nat
  /-- The bus master that the default order looks at first (DESIGN CHOICE, log entry 4). -/
  turn : Nat
  /-- Who makes the next steps (R6, R80): the interleaving, as data (DESIGN CHOICE, log entry 2). -/
  schedule : List Agent
  /-- What the reads returned, newest first (DESIGN CHOICE, log entry 13). -/
  readLog : List ReadReturn
  /-- The number of draws taken so far (R61). -/
  draws : Nat
deriving DecidableEq, Repr

/-! ### Reasons to stop -/

/-- Faults. -/
inductive Fault where
  /-- Raised by the ENGINE's step in a state with `busy` = 1 whose `pend` is no command word. No run reaches such a state
  (only an accepted command sets `busy`, R98), and R99 gives the step no effect there. Safe (DESIGN CHOICE, log entry
  15). -/
  | pendNotACommand
deriving DecidableEq, Repr

/-- Refusals. -/
inductive Refusal where
  /-- An instruction without a meaning, by its mnemonic; every instruction of this model has one, so nothing raises it.
  Safe. -/
  | notModelled (mnemonic : String)
deriving DecidableEq, Repr

/-! ### Reset (R64, R193) -/

/-- The value R64 gives every register and flag; `pend` is unspecified there (zero: DESIGN CHOICE, unsafe, log entry 9) and
no RAM byte has a value. The build is the default (R7, log entries 1, 18). Nothing waits outside, and no draw has been taken
(DESIGN CHOICE, log entry 8). -/
def State.reset : State where
  build := Build.default
  config := ⟨0#3, 0#5, 0#5⟩
  frameN := 0#32
  midCode := 0#16
  err := ⟨0#8, 0#8, false, false⟩
  dropCount := 0#32
  frameCount := 0#32
  specSeq := 0#32
  maxMag := 0#32
  irqStatus := 0#4
  irqEnable := 0#4
  actN := 0#32
  actConfig := ⟨0#3, 0#5, 0#5⟩
  actMid := 0#16
  cfgValid := false
  run := false
  active := .s0
  ready := ⟨false, false⟩
  held := ⟨false, false⟩
  wp := 0#15
  busy := false
  pend := ⟨0#32, ⟨0#32, ⟨0#3, 0#5, 0#5⟩, 0#16⟩⟩
  mem := []
  resetHeld := false
  masters := []
  port := []
  stalled := []
  turn := 0
  schedule := []
  readLog := []
  draws := 0

end Sys2Proof.Machine
end

