-- ==== Sys2Proof/Machine/Operands.lean ====
section
/-! DEFINITION. What an operation's operands name: the numerics record (R15), the active configuration fields (R22), slot
flags, the claimed slot, the stored sample code (R91), the register at an offset (R27) and the RAM windows with their
elements (R74, R75). -/

namespace Sys2Proof.Machine

/-- NUM, the numerics record every command computes through (R15). -/
def State.num (s : State) : Numerics := s.build.numerics

/-! ### The active configuration (R8, R22, R45) -/

/-- N, the active frame length. -/
def State.activeN (s : State) : Nat := s.actN.toNat

/-- WIN_KIND of the active configuration. -/
def State.winKind (s : State) : Nat := s.actConfig.winKind.toNat

/-- SAMPLE_BITS of the active configuration. -/
def State.sampleBits (s : State) : Nat := s.actConfig.sampleBits.toNat

/-- OUT_BITS of the active configuration. -/
def State.outBits (s : State) : Nat := s.actConfig.outBits.toNat

/-- MID of the active configuration. -/
def State.mid (s : State) : Nat := s.actMid.toNat

/-- MAXOUT = 2^OUT_BITS - 1 (R8). -/
def State.maxOut (s : State) : Nat := 2 ^ s.outBits - 1

/-- MAX_CODE = 2^SAMPLE_BITS - 1 (R8). -/
def State.maxCode (s : State) : Nat := 2 ^ s.sampleBits - 1

/-! ### Slots -/

/-- The flag of a slot. -/
def SlotFlags.get (f : SlotFlags) : Slot → Bool
  | .s0 => f.f0
  | .s1 => f.f1

/-- The flags with one slot's flag replaced. -/
def SlotFlags.set (f : SlotFlags) (sl : Slot) (v : Bool) : SlotFlags :=
  match sl with
  | .s0 => { f with f0 := v }
  | .s1 => { f with f1 := v }

/-- Both flags clear. -/
def SlotFlags.none : SlotFlags := ⟨false, false⟩

/-- Some flag is set: CLAIM_VALID for `held` (R36). -/
def SlotFlags.any (f : SlotFlags) : Bool := f.f0 || f.f1

/-- The held slot as CLAIM_SLOT shows it: slot 1 if `held[1]`, else slot 0 (R36). With both held, which no run reaches, it is
slot 1 (DESIGN CHOICE, log entry 16). -/
def State.claimSlot (s : State) : Slot := if s.held.f1 then .s1 else .s0

/-- The slot that is ready when exactly one is (R152). -/
def State.readySlot? (s : State) : Option Slot :=
  match s.ready.f0, s.ready.f1 with
  | true, false => some .s0
  | false, true => some .s1
  | true, true => none
  | false, false => none

/-! ### The sample code (R91) -/

/-- `zext_16(w[SAMPLE_BITS-1 : 0])`: the low SAMPLE_BITS bits of CODE. -/
def storedCode (sampleBits : Nat) (code : Half) : Half := BitVec.ofNat 16 (code.toNat % 2 ^ sampleBits)

/-! ### The aperture in the system address map (R66, R76) -/

/-- The system address of an offset of the aperture. -/
def systemAddress (b : Build) (a : Offset) : Nat := b.coreBase + a.toNat

/-- The offset a system address reaches, as the interconnect decodes the bits above bit 19; none outside the aperture. -/
def apertureOffset? (b : Build) (addr : Nat) : Option Offset :=
  if b.coreBase ≤ addr ∧ addr < b.coreBase + 2 ^ 20 then some (BitVec.ofNat 20 addr) else none

/-! ### Registers by offset (R27) -/

/-- The byte offset of a register. -/
def Reg.offset : Reg → Nat
  | .id => 0x000
  | .param => 0x004
  | .config => 0x008
  | .frameN => 0x00C
  | .midCode => 0x010
  | .cmd => 0x014
  | .status => 0x018
  | .wp => 0x01C
  | .err => 0x020
  | .dropCount => 0x024
  | .frameCount => 0x028
  | .specSeq => 0x02C
  | .maxMag => 0x030
  | .irqStatus => 0x034
  | .irqEnable => 0x038
  | .actN => 0x03C
  | .actConfig => 0x040
  | .actMid => 0x044

/-- The register at a word offset of the register region; none at a reserved offset (R27, R28). -/
def regAt (o : Nat) : Option Reg :=
  match o with
  | 0x000 => some .id
  | 0x004 => some .param
  | 0x008 => some .config
  | 0x00C => some .frameN
  | 0x010 => some .midCode
  | 0x014 => some .cmd
  | 0x018 => some .status
  | 0x01C => some .wp
  | 0x020 => some .err
  | 0x024 => some .dropCount
  | 0x028 => some .frameCount
  | 0x02C => some .specSeq
  | 0x030 => some .maxMag
  | 0x034 => some .irqStatus
  | 0x038 => some .irqEnable
  | 0x03C => some .actN
  | 0x040 => some .actConfig
  | 0x044 => some .actMid
  | _ => none

/-- The word offset an aperture offset addresses: `a[19:2] * 4`, its low two bits ignored (R67). -/
def wordOffset (a : Offset) : Nat := a.toNat / 4 * 4

/-! ### RAM windows (R74, R75) -/

/-- The first offset of a window's region. -/
def Window.base : Window → Nat
  | .raw0 => 0x20000
  | .raw1 => 0x30000
  | .twid => 0x40000
  | .win => 0x50000
  | .workA => 0x60000
  | .workB => 0x80000
  | .mag => 0xA0000
  | .spec => 0xB0000

/-- The size of a window's region in bytes. -/
def Window.size : Window → Nat
  | .workA | .workB => 0x20000
  | .raw0 | .raw1 | .twid | .win | .mag | .spec => 0x10000

/-- Bytes of the aperture per element: a complex element takes two words (R72). -/
def Window.stride : Window → Nat
  | .twid | .workA | .workB => 8
  | .raw0 | .raw1 | .win | .mag | .spec => 4

/-- The element count: NMAX, or NMAX/2 for TWID, MAG and SPEC (R75). -/
def Window.count (b : Build) : Window → Nat
  | .raw0 | .raw1 | .win | .workA | .workB => b.nmax
  | .twid | .mag | .spec => b.nmax / 2

/-- The elements are 16-bit codes: bits 31:16 of their words read 0 (R72). -/
def Window.isHalf : Window → Bool
  | .raw0 | .raw1 | .spec => true
  | .twid | .win | .workA | .workB | .mag => false

/-- The window whose region holds a word offset; none outside 0x20000 to 0xBFFFF. -/
def windowAt (o : Nat) : Option Window :=
  if o < 0x20000 then none
  else if o < 0x30000 then some .raw0
  else if o < 0x40000 then some .raw1
  else if o < 0x50000 then some .twid
  else if o < 0x60000 then some .win
  else if o < 0x80000 then some .workA
  else if o < 0xA0000 then some .workB
  else if o < 0xB0000 then some .mag
  else if o < 0xC0000 then some .spec
  else none

/-- The offset of element `i` of a window (its `re` word for a complex element). -/
def Window.elem (w : Window) (i : Nat) : Nat := w.base + w.stride * i

/-- The word offset `o` of the window's region belongs to an element of the window (R75). -/
def Window.holds (b : Build) (w : Window) (o : Nat) : Bool := decide ((o - w.base) / w.stride < w.count b)

/-- The window of a frame buffer (R55, R74). -/
def rawWindow : Slot → Window
  | .s0 => .raw0
  | .s1 => .raw1

/-- The window of a work bank (R58, R74). -/
def workWindow : Bank → Window
  | .a => .workA
  | .b => .workB

end Sys2Proof.Machine
end

