-- ==== Sys2Proof/Machine/Flags.lean ====
section
/-! DEFINITION. Every flag of the core (R62): the event bits of IRQ_STATUS (R43), the interrupt output (R53), the fields of
ERR and their recording (R38, R173, R174), and the words in which STATUS, ERR and CONFIG show fields (R32, R36, R38). -/

namespace Sys2Proof.Machine

/-! ### IRQ_STATUS (R43) and the interrupt output (R53) -/

/-- CMD_DONE, bit 0. -/
def evCmdDone : BitVec 4 := 0x1#4

/-- FRAME_READY, bit 1. -/
def evFrameReady : BitVec 4 := 0x2#4

/-- DROP, bit 2. -/
def evDrop : BitVec 4 := 0x4#4

/-- ERROR, bit 3. -/
def evError : BitVec 4 := 0x8#4

/-- The level of the interrupt output `irq` (R53). -/
def State.irq (s : State) : Bool := decide (s.irqStatus &&& s.irqEnable ≠ 0#4)

/-! ### ERR (R38, R173, R174) -/

/-- The code of an error (R173). -/
def ErrCode.code : ErrCode → BitVec 8
  | .invalidSize => 0x01#8
  | .sizeExceeded => 0x02#8
  | .badParam => 0x03#8
  | .illegalCmd => 0x04#8
  | .busy => 0x05#8
  | .notConfigured => 0x06#8
  | .runState => 0x07#8
  | .noClaim => 0x08#8
  | .claimHeld => 0x09#8
  | .portOverrun => 0x10#8
  | .portShort => 0x11#8
  | .portReserved => 0x12#8

/-- ERR after an error is recorded (R174): the first error since the clear sets CAUSE, OPC and PORT and leaves MULTI 0; a
later one only sets MULTI. -/
def ErrReg.record (r : ErrReg) (port : Bool) (opc : BitVec 8) (e : ErrCode) : ErrReg :=
  if r.cause = 0#8 then ⟨e.code, if port then 0#8 else opc, port, false⟩ else { r with multi := true }

/-- ERR after a clear (R38). -/
def ErrReg.cleared : ErrReg := ⟨0#8, 0#8, false, false⟩

/-- The word ERR reads (R38). -/
def ErrReg.word (r : ErrReg) : Word :=
  0#14 ++ BitVec.ofBool r.multi ++ BitVec.ofBool r.port ++ r.opc ++ r.cause

/-! ### CONFIG (R32) -/

/-- The word CONFIG or ACT_CONFIG reads: OUT_BITS 20:16, SAMPLE_BITS 12:8, WIN_KIND 2:0, every other bit 0. -/
def ConfigReg.word (c : ConfigReg) : Word := 0#11 ++ c.outBits ++ 0#3 ++ c.sampleBits ++ 0#5 ++ c.winKind

/-- The fields a written word sets; writes to reserved bits are ignored. -/
def ConfigReg.ofWord (w : Word) : ConfigReg := ⟨w.extractLsb' 0 3, w.extractLsb' 8 5, w.extractLsb' 16 5⟩

/-! ### STATUS (R36) and PARAM (R31) -/

/-- The word STATUS reads, bit 31 down to bit 0. -/
def State.statusWord (s : State) : Word :=
  0#20 ++ BitVec.ofBool s.irq ++ BitVec.ofBool (decide (s.err.cause ≠ 0#8)) ++ BitVec.ofBool s.held.f1 ++
    BitVec.ofBool s.held.any ++ BitVec.ofBool s.held.f1 ++ BitVec.ofBool s.held.f0 ++ BitVec.ofBool s.ready.f1 ++
    BitVec.ofBool s.ready.f0 ++ BitVec.ofBool s.active.bit ++ BitVec.ofBool s.cfgValid ++ BitVec.ofBool s.run ++
    BitVec.ofBool s.busy

/-- The word PARAM reads: `{16'h0000, VERSION, 3'b000, LOG2_NMAX[4:0]}` (R31). -/
def paramWord (b : Build) : Word := 0#16 ++ Config.version ++ 0#3 ++ BitVec.ofNat 5 b.log2Nmax

end Sys2Proof.Machine
end

