-- ==== Sys2Proof/Machine/Ops.lean ====
section
/-! DEFINITION. The operations over memory and registers that the meanings share: bytes, elements and draws (R61, R71, R72), the
raising of an error and its clear (R174, R180), the issue and the completion of a command (R98, R99), register and
window accesses (R26, R68, R69) and the assertion of reset (R190). -/

namespace Sys2Proof.Machine

/-! ### Bytes -/

/-- The byte at an offset, if something has written it since reset. -/
def Memory.byte? : Memory → Nat → Option Byte
  | [], _ => none
  | c :: m, x => if c.1 = x then some c.2 else Memory.byte? m x

/-- The one write operation: the cells of [lo, hi) are replaced by `new`, whose offsets lie in [lo, hi) and rise. -/
def Memory.splice (m : Memory) (lo hi : Nat) (new : List Host.Cell) : Memory :=
  m.filter (fun c => decide (c.1 < lo)) ++ new ++ m.filter (fun c => decide (hi ≤ c.1))

/-! ### Elements and components (R71, R72) -/

/-- The 32-bit component at an offset, if written. -/
def Memory.word? (m : Memory) (o : Nat) : Option Word :=
  match m.byte? o, m.byte? (o + 1), m.byte? (o + 2), m.byte? (o + 3) with
  | some b0, some b1, some b2, some b3 => some (wordOfBytes b0 b1 b2 b3)
  | _, _, _, _ => none

/-- The 16-bit element at an offset, if written. -/
def Memory.half? (m : Memory) (o : Nat) : Option Half :=
  match m.byte? o, m.byte? (o + 1) with
  | some b0, some b1 => some (b1 ++ b0)
  | _, _ => none

/-- The cells of consecutive 32-bit components from an offset up. -/
def wordCells : Nat → List Word → List Host.Cell
  | _, [] => []
  | o, w :: ws =>
    (o, byteOf w 0) :: (o + 1, byteOf w 1) :: (o + 2, byteOf w 2) :: (o + 3, byteOf w 3) :: wordCells (o + 4) ws

/-- The cells of consecutive 16-bit elements, four bytes of the aperture apart (R74). -/
def halfCells : Nat → List Half → List Host.Cell
  | _, [] => []
  | o, h :: hs => (o, h.extractLsb' 0 8) :: (o + 1, h.extractLsb' 8 8) :: halfCells (o + 4) hs

/-- Consecutive 32-bit components written from an offset up. -/
def Memory.writeWords (m : Memory) (o : Nat) (ws : List Word) : Memory :=
  m.splice o (o + 4 * ws.length) (wordCells o ws)

/-- Consecutive 16-bit elements written from an offset up. -/
def Memory.writeHalves (m : Memory) (o : Nat) (hs : List Half) : Memory :=
  m.splice o (o + 4 * hs.length) (halfCells o hs)

/-! ### Reads with draws (R61): the value and the draw counter after it -/

/-- A component's value: what was written, or the next draw. -/
def takeWord (v : Option Word) (c : Nat) : Word × Nat :=
  match v with
  | some w => (w, c)
  | none => (Config.freeWord c, c + 1)

/-- A 16-bit element's value: what was written, or a draw of its width. -/
def takeHalf (v : Option Half) (c : Nat) : Half × Nat :=
  match v with
  | some h => (h, c)
  | none => ((Config.freeWord c).setWidth 16, c + 1)

/-- `n` consecutive 32-bit components from offset `o` up, with draw counter `c`. -/
def Memory.readWords (m : Memory) : Nat → Nat → Nat → List Word × Nat
  | _, 0, c => ([], c)
  | o, n + 1, c =>
    let v := takeWord (m.word? o) c
    let r := m.readWords (o + 4) n v.2
    (v.1 :: r.1, r.2)

/-- `n` consecutive 16-bit elements. -/
def Memory.readHalves (m : Memory) : Nat → Nat → Nat → List Half × Nat
  | _, 0, c => ([], c)
  | o, n + 1, c =>
    let v := takeHalf (m.half? o) c
    let r := m.readHalves (o + 4) n v.2
    (v.1 :: r.1, r.2)

/-- Consecutive words as complex elements: `re` first, `im` next (R72). -/
def complexesOf : List Word → List ComplexValue
  | re :: im :: ws => ⟨re, im⟩ :: complexesOf ws
  | [_] => []
  | [] => []

/-- The words of complex elements in order (R72). -/
def wordsOf : List ComplexValue → List Word
  | [] => []
  | x :: xs => x.re :: x.im :: wordsOf xs

/-- `n` complex elements of a window from its element 0 up. -/
def Memory.readComplexes (m : Memory) (w : Window) (n c : Nat) : List ComplexValue × Nat :=
  let r := m.readWords w.base (2 * n) c
  (complexesOf r.1, r.2)

/-- Complex elements written to a window from its element 0 up. -/
def Memory.writeComplexes (m : Memory) (w : Window) (xs : List ComplexValue) : Memory :=
  m.writeWords w.base (wordsOf xs)

/-! ### Raising an error (R174, R179) and clearing it (R180) -/

/-- `raise Error(code, opc)` when `port` is false, `raise PortError(code)` when it is true. An error transfers no control:
ERR records it, IRQ_STATUS.ERROR is set and nothing else changes. -/
def raise (port : Bool) (opc : BitVec 8) (e : ErrCode) (s : State) : State :=
  { s with err := s.err.record port opc e, irqStatus := s.irqStatus ||| evError }

/-- The return from an error: a host write of any value to ERR clears the register and nothing else (R38, R180). -/
def clearErr (s : State) : State := { s with err := ErrReg.cleared }

/-! ### Issue and completion of a command (R98, R99) -/

/-- The acceptance of a command word at the issue step: `pend <- w`, `busy <- 1`. -/
def accept (w : Word) (s : State) : State := { s with pend := { s.pend with word := w }, busy := true }

/-- The snapshot of the staging registers that CONFIGURE takes at its issue (R107). -/
def takeSnapshot (s : State) : State :=
  { s with pend := { s.pend with snapshot := ⟨s.frameN, s.config, s.midCode⟩ } }

/-- The end of the completion step: `busy <- 0`, CMD_DONE (R99). -/
def complete (s : State) : State := { s with busy := false, irqStatus := s.irqStatus ||| evCmdDone }

/-- The issue step of the command `i`, whose own checks gave `e`, for a core that is not busy: the error is raised with the
word's OPC, or the command is accepted. `prep` is what acceptance does besides (CONFIGURE's snapshot). -/
def issue (i : Instr) (e : Option ErrCode) (prep : State → State) (s : State) : State :=
  match e with
  | some c => raise false (opcOf (encode i)) c s
  | none => accept (encode i) (prep s)

/-- The command sequencer on the command `i`: its issue step when no command executes, its completion step when it is
executing (`busy` = 1) (DEDUCED, log entry 5). -/
def commandStep (i : Instr) (check : State → Option ErrCode) (prep effect : State → State) (s : State) :
    Host.Outcome State Fault Refusal :=
  .next (if s.busy then complete (effect s) else issue i (check s) prep s)

/-! ### The frame synchronizer's shared updates -/

/-- `drop()` (R148). -/
def drop (s : State) : State := { s with dropCount := s.dropCount + 1#32, irqStatus := s.irqStatus ||| evDrop }

/-- What START and STOP do to the handoff state (R113, R114). -/
def clearHandoff (running : Bool) (s : State) : State :=
  { s with run := running, active := .s0, ready := SlotFlags.none, held := SlotFlags.none, wp := 0#15 }

/-! ### Register accesses (R26 to R45) -/

/-- The word a register reads. -/
def readReg (r : Reg) (s : State) : Word :=
  match r with
  | .id => Config.idValue
  | .param => paramWord s.build
  | .config => s.config.word
  | .frameN => s.frameN
  | .midCode => s.midCode.setWidth 32
  | .cmd => 0#32
  | .status => s.statusWord
  | .wp => s.wp.setWidth 32
  | .err => s.err.word
  | .dropCount => s.dropCount
  | .frameCount => s.frameCount
  | .specSeq => s.specSeq
  | .maxMag => s.maxMag
  | .irqStatus => s.irqStatus.setWidth 32
  | .irqEnable => s.irqEnable.setWidth 32
  | .actN => s.actN
  | .actConfig => s.actConfig.word
  | .actMid => s.actMid.setWidth 32

/-- A host write to a register other than CMD. Writes to read-only registers are ignored; reserved bits are not stored; ERR,
DROP_COUNT and FRAME_COUNT are cleared by any value; IRQ_STATUS bits are cleared by a 1 (R26). A write to CMD is the issue
step and is made by the sequencer (R35, R98). -/
def writeReg (r : Reg) (v : Word) (s : State) : State :=
  match r with
  | .config => { s with config := ConfigReg.ofWord v }
  | .frameN => { s with frameN := v }
  | .midCode => { s with midCode := v.extractLsb' 0 16 }
  | .err => clearErr s
  | .dropCount => { s with dropCount := 0#32 }
  | .frameCount => { s with frameCount := 0#32 }
  | .irqStatus => { s with irqStatus := s.irqStatus &&& ~~~(v.extractLsb' 0 4) }
  | .irqEnable => { s with irqEnable := v.extractLsb' 0 4 }
  | .id => s
  | .param => s
  | .cmd => s
  | .status => s
  | .wp => s
  | .specSeq => s
  | .maxMag => s
  | .actN => s
  | .actConfig => s
  | .actMid => s

/-! ### Bus accesses (R67 to R69, R74, R75, R77) -/

/-- The word a window offset reads, and the draw counter after it: the element's component, zero-extended for a 16-bit
element, or 0 at a reserved element offset (R74, R75). -/
def readWindow (w : Window) (o : Nat) (s : State) : Word × Nat :=
  if w.holds s.build o then
    if w.isHalf then
      let v := takeHalf (s.mem.half? o) s.draws
      (v.1.setWidth 32, v.2)
    else takeWord (s.mem.word? o) s.draws
  else (0#32, s.draws)

/-- The word `MemRead` returns and the draw counter after it (R68). -/
def busRead (a : Offset) (s : State) : Word × Nat :=
  let o := wordOffset a
  if o < 0x20000 then
    match regAt o with
    | some r => (readReg r s, s.draws)
    | none => (0#32, s.draws)
  else
    match windowAt o with
    | some w => readWindow w o s
    | none => (0#32, s.draws)

/-- `MemWrite` at an offset other than CMD's (R69, R77). -/
def busWrite (a : Offset) (v : Word) (s : State) : State :=
  let o := wordOffset a
  if o < 0x20000 then
    match regAt o with
    | some r => writeReg r v s
    | none => s
  else
    match windowAt o with
    | some .workA => if Window.workA.holds s.build o then { s with mem := s.mem.writeWords o [v] } else s
    | some .workB => if Window.workB.holds s.build o then { s with mem := s.mem.writeWords o [v] } else s
    | some .raw0 | some .raw1 | some .twid | some .win | some .mag | some .spec | none => s

/-- The offset is in a RAM window region, where a transfer holds while a command executes (R74, R78). -/
def inRamWindow (a : Offset) : Bool := decide (0x20000 ≤ wordOffset a) && decide (wordOffset a < 0xC0000)

/-! ### Reset (R190) -/

/-- Asserting the reset input: every piece of the core's state takes its value of R64, a command in execution is abandoned,
and no RAM element has a value any more. What waits outside the core stays, and the draw counter goes on, so that later
draws are fresh (DESIGN CHOICE, log entry 14). -/
def applyReset (s : State) : State :=
  { State.reset with
    build := s.build
    resetHeld := true
    masters := s.masters
    port := s.port
    stalled := s.stalled
    turn := s.turn
    schedule := s.schedule
    readLog := s.readLog
    draws := s.draws }

end Sys2Proof.Machine
end

