-- ==== Sys2Proof/Machine/Control.lean ====
section
/-! DEFINITION. The control and configuration commands NOP, CONFIGURE, START and STOP (40_control.md), with the construction of
the twiddle and window tables (41_fft.md R116, 42_window.md R129). -/

namespace Sys2Proof.Machine

/-- No issue check of its own (R105, R114). -/
def noCheck (_ : State) : Option ErrCode := none

/-! ### NOP (R105) -/

/-- NOP: no effect. -/
def execNop (s : State) : Host.Outcome State Fault Refusal := commandStep .nop noCheck id id s

/-! ### CONFIGURE (R106 to R110) -/

/-- The issue checks on a snapshot, in order (R107). -/
def checkSnapshot (nmax : Nat) (x : Snapshot) : Option ErrCode :=
  let n := x.n.toNat
  if n < 2 ∨ n &&& (n - 1) ≠ 0 then some .invalidSize
  else if nmax < n then some .sizeExceeded
  else if 4 < x.config.winKind.toNat then some .badParam
  else if x.config.sampleBits.toNat < 1 ∨ 16 < x.config.sampleBits.toNat then some .badParam
  else if x.config.outBits.toNat < 1 ∨ 16 < x.config.outBits.toNat then some .badParam
  else if x.mid.toNat < 1 ∨ 2 ^ x.config.sampleBits.toNat - 1 < x.mid.toNat then some .badParam
  else none

/-- The issue checks of CONFIGURE, on the staging registers (R107). -/
def checkConfigure (s : State) : Option ErrCode :=
  if s.run then some .runState else checkSnapshot s.build.nmax ⟨s.frameN, s.config, s.midCode⟩

/-- The contents of TWID for frame length n: N/2 twiddle factors, then zeros up to NMAX/2 (R116). -/
def twiddleTable (num : Numerics) (nmax n : Nat) : List ComplexValue :=
  (List.range (nmax / 2)).map fun k => if k < n / 2 then num.twiddle n k else ⟨NUM.zero, NUM.zero⟩

/-- The contents of WIN for a window kind and frame length n: N coefficients, then zeros up to NMAX (R129). -/
def windowTable (num : Numerics) (nmax kind n : Nat) : List Word :=
  (List.range nmax).map fun i => if i < n then num.window kind n i else NUM.zero

/-- `regen_tw` (R108). -/
def regenTwiddle (s : State) : Bool := !s.cfgValid || decide (s.pend.snapshot.n ≠ s.actN)

/-- `regen_win` (R108). -/
def regenWindow (s : State) : Bool :=
  regenTwiddle s || decide (s.pend.snapshot.config.winKind ≠ s.actConfig.winKind)

/-- The RAM after CONFIGURE: each table is rebuilt only when its parameters change (R108). -/
def configureMem (s : State) : Memory :=
  let x := s.pend.snapshot
  let m := if regenTwiddle s then s.mem.writeComplexes .twid (twiddleTable s.num s.build.nmax x.n.toNat) else s.mem
  if regenWindow s then
    m.writeWords Window.win.base (windowTable s.num s.build.nmax x.config.winKind.toNat x.n.toNat)
  else m

/-- The effect of CONFIGURE at completion (R108). -/
def configureEffect (s : State) : State :=
  { s with
    mem := configureMem s
    actN := s.pend.snapshot.n
    actConfig := s.pend.snapshot.config
    actMid := s.pend.snapshot.mid
    cfgValid := true }

/-- CONFIGURE: acceptance takes the snapshot of the staging registers. -/
def execConfigure (s : State) : Host.Outcome State Fault Refusal :=
  commandStep .configure checkConfigure takeSnapshot configureEffect s

/-! ### START (R112, R113) -/

/-- The issue checks of START, in order (R112). -/
def checkStart (s : State) : Option ErrCode :=
  if s.run then some .runState else if !s.cfgValid then some .notConfigured else none

/-- START. -/
def execStart (s : State) : Host.Outcome State Fault Refusal := commandStep .start checkStart id (clearHandoff true) s

/-! ### STOP (R114) -/

/-- STOP. -/
def execStop (s : State) : Host.Outcome State Fault Refusal := commandStep .stop noCheck id (clearHandoff false) s

end Sys2Proof.Machine
end

