-- ==== Sys2Proof/Machine/Handoff.lean ====
section
/-! DEFINITION. The double-buffered frame synchronizer (43_handoff.md): the producer words SMP and FRC, and the commands CLAIM
and RELEASE. A producer word takes effect in one PRODUCER step; it has no issue and no completion. -/

namespace Sys2Proof.Machine

/-! ### CLAIM (R152) -/

/-- The issue check of CLAIM. -/
def checkClaim (s : State) : Option ErrCode := if s.held.any then some .claimHeld else none

/-- The effect of CLAIM at completion: the slot that alone is ready becomes held; otherwise no change. -/
def claimEffect (s : State) : State :=
  match s.readySlot? with
  | some sl => { s with ready := s.ready.set sl false, held := s.held.set sl true }
  | none => s

/-- CLAIM. -/
def execClaim (s : State) : Host.Outcome State Fault Refusal := commandStep .claim checkClaim id claimEffect s

/-! ### RELEASE (R155) -/

/-- The effect of RELEASE at completion. -/
def releaseEffect (s : State) : State := { s with held := SlotFlags.none }

/-- RELEASE. -/
def execRelease (s : State) : Host.Outcome State Fault Refusal := commandStep .release noCheck id releaseEffect s

/-! ### SMP (R144) -/

/-- The offset of the element `RAW[active][wp]`. -/
def sampleOffset (s : State) : Nat := (rawWindow s.active).elem s.wp.toNat

/-- The effect of an accepted sample. -/
def storeSample (code : Half) (s : State) : State :=
  { s with
    mem := s.mem.writeHalves (sampleOffset s) [storedCode s.sampleBits code]
    wp := s.wp + 1#15 }

/-- SMP: ignored while `run` = 0 (R142), refused with PORT_OVERRUN when the frame is full. -/
def execSmp (code : Half) (s : State) : Host.Outcome State Fault Refusal :=
  .next (if s.run then
      if s.wp.toNat = s.activeN then raise true 0#8 .portOverrun s else storeSample code s
    else s)

/-! ### FRC (R147 to R151) -/

/-- The held case: the other slot is held, so the just-filled frame is lost and its slot is refilled (R150). -/
def dropNewest (s : State) : State := { drop s with wp := 0#15 }

/-- An older frame in the other slot that nobody claimed is dropped at the flip (R149). -/
def dropUnclaimed (s : State) : State :=
  if s.ready.get s.active.other then drop { s with ready := s.ready.set s.active.other false } else s

/-- The handoff of the active slot. -/
def handoff (s : State) : State :=
  { s with
    ready := s.ready.set s.active true
    active := s.active.other
    wp := 0#15
    frameCount := s.frameCount + 1#32
    irqStatus := s.irqStatus ||| evFrameReady }

/-- The effect of FRC on a full frame. -/
def frameComplete (s : State) : State :=
  if s.held.get s.active.other then dropNewest s else handoff (dropUnclaimed s)

/-- FRC: ignored while `run` = 0 (R142), refused with PORT_SHORT when the frame is not full. -/
def execFrc (s : State) : Host.Outcome State Fault Refusal :=
  .next (if s.run then
      if s.wp.toNat = s.activeN then frameComplete s else raise true 0#8 .portShort s
    else s)

end Sys2Proof.Machine
end

