-- ==== Sys2Proof/Machine/Convert.lean ====
section
/-! DEFINITION. Sample conversion and the window coefficient multiplier: CONVERT (42_window.md R134 to R139). -/

namespace Sys2Proof.Machine

/-- `conv(c) = fdiv(f32(c - MID), f32(MID))` (R134). -/
def conv (num : Numerics) (mid : Nat) (c : Half) : Word := num.fdiv (NUM.f32 ((c.toNat : Int) - mid)) (NUM.f32 mid)

/-- One element of bank A: the converted sample times the window coefficient, imaginary part +0.0 (R137). -/
def windowed (num : Numerics) (mid : Nat) (c : Half) (w : Word) : ComplexValue := ⟨num.fmul (conv num mid c) w, NUM.zero⟩

/-- The issue check of CONVERT and of PROCESS: a slot must be held (R136, R168). -/
def checkHeld (s : State) : Option ErrCode := if s.held.any then none else some .noClaim

/-- The codes of the claimed frame, `RAW[s][0..N-1]`, and the draw counter after the read. -/
def frameCodes (s : State) : List Half × Nat :=
  s.mem.readHalves (rawWindow s.claimSlot).base s.activeN s.draws

/-- The coefficients `WIN[0..N-1]`, read after the codes. -/
def windowCoefficients (s : State) : List Word × Nat :=
  s.mem.readWords Window.win.base s.activeN (frameCodes s).2

/-- The windowed samples CONVERT writes to bank A. -/
def windowedSamples (s : State) : List ComplexValue :=
  List.zipWith (windowed s.num s.mid) (frameCodes s).1 (windowCoefficients s).1

/-- The effect of CONVERT at completion (R137): the hold ends in the same step. -/
def convertEffect (s : State) : State :=
  { s with
    mem := s.mem.writeComplexes .workA (windowedSamples s)
    held := s.held.set s.claimSlot false
    draws := (windowCoefficients s).2 }

/-- CONVERT. -/
def execConvert (s : State) : Host.Outcome State Fault Refusal := commandStep .convert checkHeld id convertEffect s

end Sys2Proof.Machine
end

