-- ==== Sys2Proof/Machine/Fft.lean ====
section
/-! DEFINITION. The radix-2 decimation-in-time FFT engine: FFT (41_fft.md R118 to R124). The three steps of R121 work on the
N elements of the destination bank as a list. -/

namespace Sys2Proof.Machine

/-- `rev(i, m)`: the m-bit reversal of i (R119). -/
def rev : Nat → Nat → Nat
  | 0, _ => 0
  | m + 1, i => i % 2 * 2 ^ m + rev m (i / 2)

/-- The complex zero, which stands for an element outside a list; a legal N never reads one. -/
def czero : ComplexValue := ⟨NUM.zero, NUM.zero⟩

/-- Element `i`. -/
def elemAt (xs : List ComplexValue) (i : Nat) : ComplexValue := xs.getD i czero

/-! ### Step 1: the bit-reversal permutation -/

/-- In place: pairwise swaps where i < rev i (R121, s = d). -/
def permuteInPlace (m n : Nat) (xs : List ComplexValue) : List ComplexValue :=
  (List.range n).foldl (fun ys i =>
    if i < rev m i then (ys.set i (elemAt ys (rev m i))).set (rev m i) (elemAt ys i) else ys) xs

/-- Out of place: element i of the source goes to rev i of the destination (R121, s ≠ d). -/
def permuteInto (m n : Nat) (xs dst : List ComplexValue) : List ComplexValue :=
  (List.range n).foldl (fun ys i => ys.set (rev m i) (elemAt xs i)) dst

/-! ### Step 2: the stage loop -/

/-- One butterfly on elements `i` and `i + half` with the twiddle factor `w`. -/
def butterfly (num : Numerics) (w : ComplexValue) (half i : Nat) (ys : List ComplexValue) : List ComplexValue :=
  let u := elemAt ys i
  let v := num.cmul w (elemAt ys (i + half))
  (ys.set i (num.cadd u v)).set (i + half) (num.csub u v)

/-- One stage: blocks of `2 * half` elements, `half` butterflies a block, twiddle step `n / (2 * half)`. -/
def stage (num : Numerics) (tw : List ComplexValue) (n half : Nat) (ys : List ComplexValue) : List ComplexValue :=
  (List.range (n / (2 * half))).foldl (fun zs b =>
    (List.range half).foldl (fun vs j =>
      butterfly num (elemAt tw (j * (n / (2 * half)))) half (b * (2 * half) + j) vs) zs) ys

/-- The stages len = 2, 4, ..., N, with half = len / 2 = 2^t for t in [0, m). -/
def stages (num : Numerics) (tw : List ComplexValue) (m n : Nat) (ys : List ComplexValue) : List ComplexValue :=
  (List.range m).foldl (fun zs t => stage num tw n (2 ^ t) zs) ys

/-! ### Step 3: the division by N -/

/-- The fixed 1/N gain: each component is divided by f32(N) (R121, R126). -/
def scale (num : Numerics) (n : Nat) (ys : List ComplexValue) : List ComplexValue :=
  ys.map fun y => ⟨num.fdiv y.re (NUM.f32 n), num.fdiv y.im (NUM.f32 n)⟩

/-- The transform of N elements with the twiddle factors `tw`, by the form of step 1 that the banks select. -/
def transform (num : Numerics) (inPlace : Bool) (tw : List ComplexValue) (n : Nat) (xs : List ComplexValue) :
    List ComplexValue :=
  let m := Nat.log2 n
  scale num n
    (stages num tw m n (if inPlace then permuteInPlace m n xs else permuteInto m n xs (List.replicate n czero)))

/-! ### FFT -/

/-- The issue check of FFT, MAG and NORM (R120, R161, R163). -/
def checkConfigured (s : State) : Option ErrCode := if s.cfgValid then none else some .notConfigured

/-- The N elements of the source bank. -/
def fftInput (src : Bank) (s : State) : List ComplexValue × Nat :=
  s.mem.readComplexes (workWindow src) s.activeN s.draws

/-- The N/2 twiddle factors, read once, after the input (DEDUCED, log entry 19). -/
def fftTwiddles (src : Bank) (s : State) : List ComplexValue × Nat :=
  s.mem.readComplexes .twid (s.activeN / 2) (fftInput src s).2

/-- The N elements FFT writes to the destination bank. -/
def fftOutput (src dst : Bank) (s : State) : List ComplexValue :=
  transform s.num (decide (src = dst)) (fftTwiddles src s).1 s.activeN (fftInput src s).1

/-- The effect of FFT at completion (R121). -/
def fftEffect (src dst : Bank) (s : State) : State :=
  { s with
    mem := s.mem.writeComplexes (workWindow dst) (fftOutput src dst s)
    draws := (fftTwiddles src s).2 }

/-- FFT. -/
def execFft (src dst : Bank) (s : State) : Host.Outcome State Fault Refusal :=
  commandStep (.fft src dst) checkConfigured id (fftEffect src dst) s

end Sys2Proof.Machine
end

