-- ==== Sys2Proof/Machine/Processor.lean ====
section
/-! DEFINITION. The complex magnitude normalizer and the frame processor: MAG, NORM and PROCESS (44_processor.md). -/

namespace Sys2Proof.Machine

/-! ### MAG (R161) -/

/-- `fsqrt(fadd(fmul(r, r), fmul(i, i)))`. -/
def magnitude (num : Numerics) (x : ComplexValue) : Word :=
  num.fsqrt (num.fadd (num.fmul x.re x.re) (num.fmul x.im x.im))

/-- The first N/2 elements of the source bank. -/
def magInput (src : Bank) (s : State) : List ComplexValue × Nat :=
  s.mem.readComplexes (workWindow src) (s.activeN / 2) s.draws

/-- The effect of MAG at completion. -/
def magEffect (src : Bank) (s : State) : State :=
  { s with
    mem := s.mem.writeWords Window.mag.base ((magInput src s).1.map (magnitude s.num))
    draws := (magInput src s).2 }

/-- MAG. -/
def execMag (src : Bank) (s : State) : Host.Outcome State Fault Refusal :=
  commandStep (.mag src) checkConfigured id (magEffect src) s

/-! ### NORM (R163 to R165) -/

/-- Step 5, the maximum: it starts at +0.0 and a NaN never replaces it (R163, R164). -/
def maxMagnitude (xs : List Word) : Word := xs.foldl (fun m x => if NUM.fgt x m then x else m) NUM.zero

/-- Step 5, the epsilon fallback: the divisor (R163). -/
def divisor (eps : Word) (xs : List Word) : Word :=
  if NUM.flt (maxMagnitude xs) eps then NUM.one else maxMagnitude xs

/-- Step 6, the clamp to [0, 1] with IEEE comparisons: a NaN gives +0.0 (R163, R164). -/
def clamp (x : Word) : Word :=
  if NUM.fgt x NUM.one then NUM.one else if NUM.fgt x NUM.zero then x else NUM.zero

/-- Step 6: normalize, clamp and quantize one magnitude (R163, R165). -/
def quantize (num : Numerics) (maxOut : Nat) (m x : Word) : Half :=
  BitVec.ofNat 16 (NUM.trunc (num.fmul (clamp (num.fdiv x m)) (NUM.f32 maxOut)))

/-- `MAG[0..N/2-1]` as step 5 reads it. -/
def normMagnitudes (s : State) : List Word × Nat := s.mem.readWords Window.mag.base (s.activeN / 2) s.draws

/-- `MAG[0..N/2-1]` as step 6 reads it: an element nothing has written takes a fresh draw again (R61; DEDUCED, log entry
19). -/
def normMagnitudesAgain (s : State) : List Word × Nat :=
  s.mem.readWords Window.mag.base (s.activeN / 2) (normMagnitudes s).2

/-- The divisor NORM uses, which MAXMAG shows (R42, R163). -/
def normDivisor (s : State) : Word := divisor s.build.magEps (normMagnitudes s).1

/-- The codes NORM writes to SPEC. -/
def normCodes (s : State) : List Half := (normMagnitudesAgain s).1.map (quantize s.num s.maxOut (normDivisor s))

/-- The effect of NORM at completion (R163). -/
def normEffect (s : State) : State :=
  { s with
    mem := s.mem.writeHalves Window.spec.base (normCodes s)
    maxMag := normDivisor s
    specSeq := s.specSeq + 1#32
    draws := (normMagnitudesAgain s).2 }

/-- NORM. -/
def execNorm (s : State) : Host.Outcome State Fault Refusal := commandStep .norm checkConfigured id normEffect s

/-! ### PROCESS (R168) -/

/-- The effect of PROCESS at completion: CONVERT, FFT a a, MAG a and NORM in one step. -/
def processEffect (s : State) : State := normEffect (magEffect .a (fftEffect .a .a (convertEffect s)))

/-- PROCESS. -/
def execProcess (s : State) : Host.Outcome State Fault Refusal := commandStep .process checkHeld id processEffect s

end Sys2Proof.Machine
end

