-- ==== Sys2Proof/Machine/Dispatch.lean ====
section
/-! DEFINITION. The one place where an instruction meets its meaning. A command's meaning is its issue step while no command
executes and its completion step while it executes (30_encoding.md R98, R99); a producer word's meaning is its one step. -/

namespace Sys2Proof.Machine

def exec (i : Instr) (s : State) : Host.Outcome State Fault Refusal :=
  match i with
  | .nop => Sys2Proof.Machine.execNop s
  | .configure => Sys2Proof.Machine.execConfigure s
  | .start => Sys2Proof.Machine.execStart s
  | .stop => Sys2Proof.Machine.execStop s
  | .claim => Sys2Proof.Machine.execClaim s
  | .release => Sys2Proof.Machine.execRelease s
  | .convert => Sys2Proof.Machine.execConvert s
  | .fft src dst => Sys2Proof.Machine.execFft src dst s
  | .mag src => Sys2Proof.Machine.execMag src s
  | .norm => Sys2Proof.Machine.execNorm s
  | .process => Sys2Proof.Machine.execProcess s
  | .smp code => Sys2Proof.Machine.execSmp code s
  | .frc => Sys2Proof.Machine.execFrc s

end Sys2Proof.Machine
end

