-- ==== Sys2Proof/Machine/Sequencer.lean ====
section
/-! DEFINITION. The steps of the agents (00_scope.md R6): a bus master's transfer (20_memory.md R68, R69, R78), with a write to CMD
as the issue step (30_encoding.md R98), a producer word (43_handoff.md R141), the ENGINE's completion step (R99), the reset input
(70_reset_and_hazards.md R190), and who moves next. -/

namespace Sys2Proof.Machine

/-! ### A write to CMD: the issue step (R98) -/

/-- BUSY first, then ILLEGAL_CMD, then the command's own checks, which its meaning makes (R177). -/
def cmdWrite (w : Word) (s : State) : Host.Outcome State Fault Refusal :=
  if s.busy then .next (raise false (opcOf w) .busy s)
  else
    match decodeC w with
    | .ok i => exec i s
    | .error _ => .next (raise false (opcOf w) .illegalCmd s)

/-! ### HOST -/

/-- The offset an operation addresses. -/
def HostOp.target : HostOp → Offset
  | .read a => a
  | .write a _ => a
  | .poll a _ _ => a

/-- What is left to master `k`. -/
def setQueue (k : Nat) (q : List HostOp) (s : State) : State := { s with masters := s.masters.set k q }

/-- A value returned to master `k`, with the draw counter after the read. -/
def returned (k : Nat) (a : Offset) (v : Word × Nat) (s : State) : State :=
  { s with readLog := ⟨k, a, v.1⟩ :: s.readLog, draws := v.2 }

/-- A write transfer: the issue step at CMD, `MemWrite` elsewhere (R69). -/
def hostWrite (a : Offset) (v : Word) (s : State) : Host.Outcome State Fault Refusal :=
  if wordOffset a = Reg.cmd.offset then cmdWrite v s else .next (busWrite a v s)

/-- One operation of master `k`, with `rest` behind it in its queue. A poll stays in the queue until its condition holds
(R104). -/
def hostOp (k : Nat) (op : HostOp) (rest : List HostOp) (s : State) : Host.Outcome State Fault Refusal :=
  match op with
  | .read a => .next (setQueue k rest (returned k a (busRead a s) s))
  | .write a v => hostWrite a v (setQueue k rest s)
  | .poll a mask v =>
    .next (setQueue k (if (busRead a s).1 &&& mask = v then rest else op :: rest) (returned k a (busRead a s) s))

/-- A transfer that arrives while reset is asserted: a write is ignored, a read returns 0 (R190). -/
def hostOpInReset (k : Nat) (op : HostOp) (rest : List HostOp) (s : State) : State :=
  match op with
  | .read a => setQueue k rest (returned k a (0#32, s.draws) s)
  | .write _ _ => setQueue k rest s
  | .poll a mask v => setQueue k (if 0#32 &&& mask = v then rest else op :: rest) (returned k a (0#32, s.draws) s)

/-- Master `k` now waits with a transfer that holds, behind those that hold already (R78). -/
def stall (k : Nat) (s : State) : State :=
  { s with stalled := if k ∈ s.stalled then s.stalled else s.stalled ++ [k] }

/-- The step of master `k`. With nothing to do it has no step; a RAM window transfer while a command executes holds: it stays
where it is and the core is not changed (R78). -/
def hostStep (k : Nat) (s : State) : Host.Outcome State Fault Refusal :=
  match s.masters.getD k [] with
  | [] => .next s
  | op :: rest =>
    if s.resetHeld then .next (hostOpInReset k op rest s)
    else if s.busy && inRamWindow op.target then .next (stall k s)
    else hostOp k op rest s

/-! ### PRODUCER -/

/-- A producer word that is neither SMP nor FRC: PORT_RESERVED while `run` = 1, ignored otherwise (R96, R146, R142). -/
def reservedWord (s : State) : State := if s.run then raise true 0#8 .portReserved s else s

/-- The delivery of one producer word. -/
def portWord (w : Word) (s : State) : Host.Outcome State Fault Refusal :=
  match decodeP w with
  | .ok i => exec i s
  | .error _ => .next (reservedWord s)

/-- The producer's step: the oldest word is taken, whatever the core is doing (R141), and ignored while reset is asserted
(R190). -/
def producerStep (s : State) : Host.Outcome State Fault Refusal :=
  match s.port with
  | [] => .next s
  | w :: rest => if s.resetHeld then .next { s with port := rest } else portWord w { s with port := rest }

/-! ### ENGINE -/

/-- The completion step of the pending command (R99); no step while no command executes. -/
def engineStep (s : State) : Host.Outcome State Fault Refusal :=
  if s.busy then
    match decodeC s.pend.word with
    | .ok i => exec i s
    | .error _ => .fault .pendNotACommand
  else .next s

/-! ### Who moves -/

/-- The masters whose held transfer takes effect now, against the state the completion left: none while a command executes,
and all of them, first come first served, before anything else once it has completed (R78, R208). -/
def dueMasters (s : State) : List Nat := if s.busy then [] else s.stalled

/-- The first queue with something to do. -/
def firstWaiting : List (List HostOp) → Option Nat
  | [] => none
  | q :: qs => if q.isEmpty then (firstWaiting qs).map (· + 1) else some 0

/-- The bus masters take turns: the first with something to do from `turn` on, else the first of all. -/
def nextMaster (s : State) : Nat :=
  match firstWaiting (s.masters.drop s.turn) with
  | some k => s.turn + k
  | none => (firstWaiting s.masters).getD 0

/-- Who moves when the schedule names nobody: the completion of a command, else a producer word, else a host transfer, the
order R178 gives the hardware (DESIGN CHOICE, log entry 4). -/
def defaultTurn (s : State) : Agent × State :=
  if s.busy then (.engine, s)
  else if s.port.isEmpty then (.host (nextMaster s), { s with turn := nextMaster s + 1 })
  else (.producer, s)

/-- Who makes the next step, and the state with that turn used up. A schedule is finite, so the ENGINE is never starved, and
a held transfer completes with the completion (R208). -/
def nextAgent (s : State) : Agent × State :=
  match dueMasters s with
  | k :: ks => (.host k, { s with stalled := ks })
  | [] =>
    match s.schedule with
    | a :: rest => (a, { s with schedule := rest })
    | [] => defaultTurn s

/-- The step of an agent. -/
def agentStep (a : Agent) (s : State) : Host.Outcome State Fault Refusal :=
  match a with
  | .host k => hostStep k s
  | .producer => producerStep s
  | .engine => engineStep s
  | .assertReset => .next (applyReset s)
  | .releaseReset => .next { s with resetHeld := false }

/-! ### Placing one word where the next step takes it (DESIGN CHOICE, log entry 6) -/

/-- A command word as the next transfer of master 0, with master 0 next to move and no held transfer due before it. -/
def placeCommand (w : Word) (s : State) : State :=
  { s with
    resetHeld := false
    stalled := if s.busy then s.stalled else []
    masters := (.write (BitVec.ofNat 20 Reg.cmd.offset) w :: s.masters.getD 0 []) :: s.masters.drop 1
    schedule := .host 0 :: s.schedule }

/-- A producer word as the next word of the port, with the producer next to move and no held transfer due before it. -/
def placePortWord (w : Word) (s : State) : State :=
  { s with
    resetHeld := false
    stalled := if s.busy then s.stalled else []
    port := w :: s.port
    schedule := .producer :: s.schedule }

/-- The port a table word goes to: the one whose decoder `decodeTableWord` reads it with, and CMD for a word that is neither. -/
def goesToPort (w : Word) : Bool :=
  match decodeC w, decodeP w with
  | .ok _, _ => false
  | .error _, .ok _ => true
  | .error _, .error _ => false

end Sys2Proof.Machine
end

