-- ==== Sys2Proof/Machine/Step.lean ====
section
/-! DEFINITION. One step of the core: the next agent moves (00_scope.md R6; 20_memory.md R80). -/

namespace Sys2Proof.Machine

/-- The step. -/
def step (s : State) : Host.Outcome State Fault Refusal := agentStep (nextAgent s).1 (nextAgent s).2

/-- `s` with the word `w` placed so that the next step takes it: a command word as a write to CMD by bus master 0, any other
word that is a producer word on the producer port, each with its agent next to move. -/
def State.withFetchWord (s : State) (nbits w : Nat) : State :=
  let x : Word := BitVec.ofNat 32 (w % 2 ^ nbits)
  if goesToPort x then placePortWord x s else placeCommand x s

end Sys2Proof.Machine
end

