-- ==== Sys2Proof/Machine/Assembly.lean ====
section
/-! DEFINITION. Host programs (30_encoding.md R102 to R104): the statements, the bus transfers and producer words each stands
for, and the interleaving in which every command completes at the next wait (95_test_vectors.md section 4). -/

namespace Sys2Proof.Machine

/-- A component of a complex element; a plain element has only `re`. -/
inductive Part where
  | re
  | im
deriving DecidableEq, Repr

/-- What `rd` and `poll` may name: a register, or a word of any RAM window by its element (R102). -/
inductive ReadName where
  | reg (r : Reg)
  | elem (w : Window) (i : Nat) (p : Part)
deriving DecidableEq, Repr

/-- The statements of R102 and the pseudo-instructions of R104. -/
inductive Stmt where
  | wr (r : Reg) (v : Word)
  | wrWork (bank : Bank) (i : Nat) (p : Part) (v : Word)
  | rd (src : ReadName)
  | command (i : Instr)
  | poll (src : ReadName) (mask value : Word)
  | waitidle
  | cfg (n kind sampleBits mid outBits : Nat)
  | tryclaim
  | fftPlain
  | magPlain
  | smp (code : Nat)
  | frc
  | word (w : Word)
  | pushframe (codes : List Nat)
deriving DecidableEq, Repr

/-- A transfer as a bus master sends it into the system, to a system address. -/
inductive SystemTransfer where
  | read (addr : Nat)
  | write (addr : Nat) (value : Word)
deriving DecidableEq, Repr

/-- What the interconnect passes on to the core: the transfer at its offset, or nothing outside the aperture (R66, R76). -/
def SystemTransfer.toCore (b : Build) : SystemTransfer → Option HostOp
  | .read addr => (apertureOffset? b addr).map .read
  | .write addr v => (apertureOffset? b addr).map (.write · v)

/-- The aperture offset of a register. -/
def regOffset (r : Reg) : Offset := BitVec.ofNat 20 r.offset

/-- The aperture offset of a component of a window's element (R74). -/
def partOffset (w : Window) (i : Nat) (p : Part) : Offset :=
  BitVec.ofNat 20 (w.elem i + match p with | .re => 0 | .im => 4)

/-- The aperture offset of what `rd` and `poll` name. -/
def ReadName.offset : ReadName → Offset
  | .reg r => regOffset r
  | .elem w i p => partOffset w i p

/-- A command is `wr CMD, <encoding>` (R102). -/
def cmdTransfer (i : Instr) : HostOp := .write (regOffset .cmd) (encode i)

/-- `waitidle` is `poll STATUS, 0x1, 0x0` (R104). -/
def idlePoll : HostOp := .poll (regOffset .status) 0x1#32 0x0#32

/-- The bus transfers of a statement (R102 to R104). -/
def hostOps : Stmt → List HostOp
  | .wr r v => [.write (regOffset r) v]
  | .wrWork k i p v => [.write (partOffset (workWindow k) i p) v]
  | .rd src => [.read src.offset]
  | .command i => [cmdTransfer i]
  | .poll src mask v => [.poll src.offset mask v]
  | .waitidle => [idlePoll]
  | .cfg n kind sb mid ob =>
    [.write (regOffset .frameN) (BitVec.ofNat 32 n),
     .write (regOffset .config) (BitVec.ofNat 32 (ob <<< 16 ||| sb <<< 8 ||| kind)),
     .write (regOffset .midCode) (BitVec.ofNat 32 mid), cmdTransfer .configure, idlePoll]
  | .tryclaim => [cmdTransfer .claim, idlePoll]
  | .fftPlain => [cmdTransfer (.fft .a .a)]
  | .magPlain => [cmdTransfer (.mag .a)]
  | .smp _ => []
  | .frc => []
  | .word _ => []
  | .pushframe _ => []

/-- The producer words of a statement (R102, R104). -/
def portWords : Stmt → List Word
  | .smp code => [BitVec.ofNat 32 code]
  | .frc => [encode .frc]
  | .word w => [w]
  | .pushframe codes => codes.map (BitVec.ofNat 32) ++ [encode .frc]
  | .wr _ _ | .wrWork _ _ _ _ | .rd _ | .command _ | .poll _ _ _ | .waitidle | .cfg _ _ _ _ _ | .tryclaim
  | .fftPlain | .magPlain => []

/-- The turns of a statement: its transfers by master 0, each poll preceded by the ENGINE's step, its words by the producer. -/
def turns (st : Stmt) : List Agent :=
  (hostOps st).flatMap (fun op =>
    match op with
    | .poll _ _ _ => [.engine, .host 0]
    | .read _ => [.host 0]
    | .write _ _ => [.host 0]) ++ (portWords st).map (fun _ => .producer)

/-- A window with complex elements has both components; any other only `re` (R72). -/
def partOk (w : Window) (p : Part) : Bool := decide (p = .re) || decide (w.stride = 8)

/-- A name of `rd` or `poll` names a register, or an element the window has and a component the element has (R75). -/
def ReadName.wellFormed (build : Build) : ReadName → Bool
  | .reg _ => true
  | .elem w i p => elementOk (w.count build) i && partOk w p

/-- The checks on a statement: element indices name elements (R75), a command statement is of format C, and every number
fits the field or register it is written to. -/
def Stmt.wellFormed (build : Build) : Stmt → Bool
  | .wr _ _ => true
  | .wrWork k i _ _ => elementOk ((workWindow k).count build) i
  | .rd src => src.wellFormed build
  | .command i => decide (formatOf i = .command)
  | .poll src _ _ => src.wellFormed build
  | .waitidle => true
  | .cfg n kind sb mid ob =>
    decide (n < 2 ^ 32) && decide (kind < 2 ^ 3) && decide (sb < 2 ^ 5) && decide (mid < 2 ^ 16) && decide (ob < 2 ^ 5)
  | .tryclaim => true
  | .fftPlain => true
  | .magPlain => true
  | .smp code => sampleNumberOk code
  | .frc => true
  | .word _ => true
  | .pushframe codes => codes.all sampleNumberOk

/-- `s` with a program waiting: its transfers at master 0, its producer words at the port, its turns in the schedule. -/
def State.load (prog : List Stmt) (s : State) : State :=
  { s with
    masters := [prog.flatMap hostOps]
    port := prog.flatMap portWords
    schedule := prog.flatMap turns }

end Sys2Proof.Machine
end

