-- ==== Sys2Proof/Safety.lean ====
section
/-! DEFINITION. What the claims speak of: the checks and the effect of each command by name, the invariants of the core
(10_state.md R46, R54; 43_handoff.md R157; 30_encoding.md R101), and what a safe step is. -/

namespace Sys2Proof.Machine

/-! ### The issue checks and the effect of a command -/

/-- The command's own issue checks (R98): the first failing one, if any. A producer word has none. -/
def checkOf : Instr → State → Option ErrCode
  | .nop => noCheck
  | .configure => checkConfigure
  | .start => checkStart
  | .stop => noCheck
  | .claim => checkClaim
  | .release => noCheck
  | .convert => checkHeld
  | .fft _ _ => checkConfigured
  | .mag _ => checkConfigured
  | .norm => checkConfigured
  | .process => checkHeld
  | .smp _ => noCheck
  | .frc => noCheck

/-- What acceptance does besides `pend` and `busy`: the snapshot of CONFIGURE (R98, R107). -/
def prepOf : Instr → State → State
  | .configure => takeSnapshot
  | .nop | .start | .stop | .claim | .release | .convert | .fft _ _ | .mag _ | .norm | .process | .smp _ | .frc => id

/-- The command's effect at completion (R99). -/
def effectOf : Instr → State → State
  | .nop => id
  | .configure => configureEffect
  | .start => clearHandoff true
  | .stop => clearHandoff false
  | .claim => claimEffect
  | .release => releaseEffect
  | .convert => convertEffect
  | .fft src dst => fftEffect src dst
  | .mag src => magEffect src
  | .norm => normEffect
  | .process => processEffect
  | .smp _ => id
  | .frc => id

/-! ### The handoff state (R54) -/

/-- The six invariants of R54. -/
structure HandoffInv (s : State) : Prop where
  /-- Invariant 1. -/
  active_not_ready : s.ready.get s.active = false
  active_not_held : s.held.get s.active = false
  /-- Invariant 2. -/
  one_ready : ¬ (s.ready.f0 = true ∧ s.ready.f1 = true)
  ready_is_other : ∀ sl, s.ready.get sl = true → sl = s.active.other
  /-- Invariant 3. -/
  one_held : ¬ (s.held.f0 = true ∧ s.held.f1 = true)
  held_is_other : ∀ sl, s.held.get sl = true → sl = s.active.other
  /-- Invariant 4. -/
  ready_or_held : ∀ sl, ¬ (s.ready.get sl = true ∧ s.held.get sl = true)
  /-- Invariant 5. -/
  stopped : s.run = false → s.ready = SlotFlags.none ∧ s.held = SlotFlags.none ∧ s.wp = 0#15
  /-- Invariant 6. -/
  running : s.run = true → s.cfgValid = true ∧ s.wp.toNat ≤ s.activeN

/-! ### The configuration (R7, R8, R45) -/

/-- The active configuration is legal (R8). -/
def State.activeOk (s : State) : Prop :=
  configurationOk s.build.nmax s.activeN s.winKind s.sampleBits s.outBits s.mid = true

/-- The build is legal, and the active configuration is once `cfg_valid` = 1 (R45). -/
structure ConfigInv (s : State) : Prop where
  build_ok : s.build.wellFormed = true
  active_ok : s.cfgValid = true → s.activeOk

/-! ### The pending command (R52, R101) -/

/-- What the issue checks of a command saw still holds (R101). -/
def stillAllowed : Instr → State → Prop
  | .nop, _ => True
  | .configure, s => s.run = false ∧ checkSnapshot s.build.nmax s.pend.snapshot = none
  | .start, s => s.run = false ∧ s.cfgValid = true
  | .stop, _ => True
  | .claim, s => s.held.any = false
  | .release, _ => True
  | .convert, s => s.held.any = true
  | .fft _ _, s => s.cfgValid = true
  | .mag _, s => s.cfgValid = true
  | .norm, s => s.cfgValid = true
  | .process, s => s.held.any = true
  | .smp _, _ => False
  | .frc, _ => False

/-- While `busy` = 1, `pend` holds a command word whose issue checks still hold. -/
def PendingInv (s : State) : Prop :=
  s.busy = true → ∃ i, decodeC s.pend.word = .ok i ∧ stillAllowed i s

/-! ### The control invariant -/

/-- The registers and flags of a state that the rules can reach. -/
structure ControlInv (s : State) : Prop where
  handoff : HandoffInv s
  config : ConfigInv s
  pending : PendingInv s

/-! ### Held transfers (R78, R190) -/

/-- The masters that hold do so once each, with a RAM window transfer next, and no command executes in reset. -/
structure StalledInv (s : State) : Prop where
  distinct : s.stalled.Nodup
  window : ∀ k ∈ s.stalled, ∃ op rest, s.masters.getD k [] = op :: rest ∧ inRamWindow op.target = true
  idle_in_reset : s.resetHeld = true → s.busy = false

/-! ### The RAM (R46, R157) -/

/-- Entry k of TWID is `x` (both components, at their place of R74). -/
def Memory.hasComplex (m : Memory) (w : Window) (k : Nat) (x : ComplexValue) : Prop :=
  m.word? (w.elem k) = some x.re ∧ m.word? (w.elem k + 4) = some x.im

/-- `v` is a value a read of the component at `o` can give: what was written, or any value where nothing was (R61). -/
def Memory.mayReadWord (m : Memory) (o : Nat) (v : Word) : Prop := ∀ w, m.word? o = some w → w = v

/-- `v` is a value a read of the 16-bit element at `o` can give (R61). -/
def Memory.mayReadHalf (m : Memory) (o : Nat) (v : Half) : Prop := ∀ h, m.half? o = some h → h = v

/-- `x` is a value a read of the complex element k can give (R61). -/
def Memory.mayReadComplex (m : Memory) (w : Window) (k : Nat) (x : ComplexValue) : Prop :=
  m.mayReadWord (w.elem k) x.re ∧ m.mayReadWord (w.elem k + 4) x.im

/-- Every byte of RAM outside [lo, hi) reads as before. -/
def sameOutside (s t : State) (lo hi : Nat) : Prop := ∀ a, a < lo ∨ hi ≤ a → t.mem.byte? a = s.mem.byte? a

/-- The tables are those of NUM (R15: for this hardware R116 and R129) for the active N and window kind, once `cfg_valid` = 1
(R46, R109). -/
def TablesInv (s : State) : Prop :=
  s.cfgValid = true →
    (∀ k, k < s.build.nmax / 2 →
      s.mem.hasComplex .twid k (if k < s.activeN / 2 then s.num.twiddle s.activeN k else ⟨NUM.zero, NUM.zero⟩)) ∧
    (∀ n, n < s.build.nmax →
      s.mem.word? (Window.win.elem n) = some (if n < s.activeN then s.num.window s.winKind s.activeN n else NUM.zero))

/-- Element i of a frame buffer has been written since reset. -/
def Memory.codeWritten (m : Memory) (sl : Slot) (i : Nat) : Prop := (m.half? ((rawWindow sl).elem i)).isSome = true

/-- The samples of the frame being filled, and every sample of a ready or held frame, have been written (R157). -/
structure FramesInv (s : State) : Prop where
  filling : s.run = true → ∀ i, i < s.wp.toNat → s.mem.codeWritten s.active i
  complete : ∀ sl, s.ready.get sl = true ∨ s.held.get sl = true → ∀ i, i < s.activeN → s.mem.codeWritten sl i

/-! ### The invariant and safety -/

/-- The whole invariant: control state, tables, frames, held transfers and the canonical form of the RAM. -/
structure Inv (s : State) : Prop where
  control : ControlInv s
  tables : TablesInv s
  frames : FramesInv s
  stalled : StalledInv s
  mem_wf : s.mem.wf

/-! ### Who writes what (R63) -/

/-- The next step is a bus master's write transfer at the word offset `o`. -/
def State.hostWrites (s : State) (o : Nat) : Prop :=
  ∃ (k : Nat) (a : Offset) (v : Word) (rest : List HostOp), (nextAgent s).1 = .host k ∧
    s.masters.getD k [] = .write a v :: rest ∧ wordOffset a = o

/-- The next step is the completion of one of the commands `is`. -/
def State.completes (s : State) (is : List Instr) : Prop :=
  (nextAgent s).1 = .engine ∧ s.busy = true ∧ ∃ i ∈ is, decodeC s.pend.word = .ok i

/-- The next step delivers an SMP word. -/
def State.deliversSample (s : State) : Prop :=
  (nextAgent s).1 = .producer ∧ ∃ (w : Word) (rest : List Word) (c : Half), s.port = w :: rest ∧ decodeP w = .ok (.smp c)

/-- The next step delivers an FRC word. -/
def State.deliversFrame (s : State) : Prop :=
  (nextAgent s).1 = .producer ∧ ∃ (w : Word) (rest : List Word), s.port = w :: rest ∧ decodeP w = .ok .frc

/-- The RAM byte at `a` differs in `t`. -/
def byteChanged (s t : State) (a : Nat) : Prop := t.mem.byte? a ≠ s.mem.byte? a

/-- The table of R63: what a step that leads from `s` to `t` has changed, one of its writers has. -/
structure OnlyWriters (s t : State) : Prop where
  config : t.config ≠ s.config → s.hostWrites 0x008
  frameN : t.frameN ≠ s.frameN → s.hostWrites 0x00C
  midCode : t.midCode ≠ s.midCode → s.hostWrites 0x010
  irqEnable : t.irqEnable ≠ s.irqEnable → s.hostWrites 0x038
  err : t.err ≠ s.err → s.hostWrites 0x014 ∨ s.hostWrites 0x020 ∨ (nextAgent s).1 = .producer
  dropCount : t.dropCount ≠ s.dropCount → s.hostWrites 0x024 ∨ s.deliversFrame
  frameCount : t.frameCount ≠ s.frameCount → s.hostWrites 0x028 ∨ s.deliversFrame
  irqStatus : t.irqStatus ≠ s.irqStatus → s.hostWrites 0x014 ∨ s.hostWrites 0x034 ∨ (nextAgent s).1 = .producer ∨
    ((nextAgent s).1 = .engine ∧ s.busy = true)
  spectrum : t.specSeq ≠ s.specSeq ∨ t.maxMag ≠ s.maxMag → s.completes [.norm, .process]
  active_config : t.actN ≠ s.actN ∨ t.actConfig ≠ s.actConfig ∨ t.actMid ≠ s.actMid ∨ t.cfgValid ≠ s.cfgValid →
    s.completes [.configure]
  run : t.run ≠ s.run → s.completes [.start, .stop]
  active : t.active ≠ s.active → s.deliversFrame ∨ s.completes [.start, .stop]
  wp : t.wp ≠ s.wp → s.deliversSample ∨ s.deliversFrame ∨ s.completes [.start, .stop]
  ready : t.ready ≠ s.ready → s.deliversFrame ∨ s.completes [.claim, .start, .stop]
  held : t.held ≠ s.held → s.completes [.claim, .release, .convert, .process, .start, .stop]
  busy : t.busy ≠ s.busy → s.hostWrites 0x014 ∨ ((nextAgent s).1 = .engine ∧ s.busy = true)
  pend : t.pend ≠ s.pend → s.hostWrites 0x014
  build : t.build = s.build
  /-- `RAW[sl]`: SMP words, to the active slot only. -/
  raw : ∀ (sl : Slot) (a : Nat), (rawWindow sl).base ≤ a → a < (rawWindow sl).base + 0x10000 → byteChanged s t a →
    s.deliversSample ∧ sl = s.active
  /-- TWID and WIN. -/
  tables : ∀ a, 0x40000 ≤ a → a < 0x60000 → byteChanged s t a → s.completes [.configure]
  /-- WORK: a host write to that word, or a completion. -/
  work : ∀ a, 0x60000 ≤ a → a < 0xA0000 → byteChanged s t a → s.hostWrites (a / 4 * 4) ∨
    s.completes [.convert, .fft .a .a, .fft .a .b, .fft .b .a, .fft .b .b, .process]
  mag : ∀ a, 0xA0000 ≤ a → a < 0xB0000 → byteChanged s t a → s.completes [.mag .a, .mag .b, .process]
  spec : ∀ a, 0xB0000 ≤ a → a < 0xC0000 → byteChanged s t a → s.completes [.norm, .process]
  /-- There is no RAM outside the windows. -/
  elsewhere : ∀ a, a < 0x20000 ∨ 0xC0000 ≤ a → ¬ byteChanged s t a

/-! ### Rounding (R14) -/

/-- `v` is the binary32 rounding to nearest, ties to even, of the real number `r`, both in units of 2^-149: below the midpoint
between the largest finite value and 2^128 it is finite, no finite value is nearer, and at a tie its significand is even;
from that midpoint on it is an infinity. -/
def IsRounding (v : Word) (r : ℝ) : Prop :=
  (2 * |r| < ((NUM.units 0x7F7FFFFF#32 + NUM.units 0x7F800000#32 : Nat) : ℝ) →
    NUM.isFinite v = true ∧ ∀ y : Word, NUM.isFinite y = true →
      |(NUM.signedUnits v : ℝ) - r| ≤ |(NUM.signedUnits y : ℝ) - r| ∧
      (|(NUM.signedUnits v : ℝ) - r| = |(NUM.signedUnits y : ℝ) - r| → NUM.signedUnits y ≠ NUM.signedUnits v →
        v.getLsbD 0 = false)) ∧
  (((NUM.units 0x7F7FFFFF#32 + NUM.units 0x7F800000#32 : Nat) : ℝ) ≤ 2 * |r| →
    v = if r < 0 then 0xFF800000#32 else 0x7F800000#32)

/-- The window formulas of R130 and R131, `w_kind` at the angle θ. -/
noncomputable def windowFormula (kind : Nat) (θ : ℝ) : ℝ :=
  match kind with
  | 0 => 1
  | 1 => 0.5 - 0.5 * Real.cos θ
  | 2 => 0.53836 - 0.46164 * Real.cos θ
  | 3 => 0.42 - 0.50 * Real.cos θ + 0.08 * Real.cos (2 * θ)
  | _ => 0.35875 - 0.48829 * Real.cos θ + 0.14128 * Real.cos (2 * θ) - 0.01168 * Real.cos (3 * θ)

/-! ### Runs and safety -/

/-- `n` steps. -/
def stepN : Nat → State → Host.Outcome State Fault Refusal
  | 0, s => .next s
  | n + 1, s =>
    match step s with
    | .next t => stepN n t
    | .fault f => .fault f
    | .refused r => .refused r

/-- A safe step: the machine answers a next state, neither a fault nor a refusal. -/
def SafeStep (s : State) : Prop := ∃ t, step s = .next t

end Sys2Proof.Machine
end

