-- ==== Sys2Proof/Certificates/Slice0/Obligations.lean ====
section
/-! DEFINITION. The statements for the provers. Each is a numbered rule of spec/ or follows from the sections its entry in
OBLIGATIONS.json cites. Where a read of RAM that nothing has written takes a free value, the statement speaks of every value
the read can give. -/

open Sys2Proof Sys2Proof.Machine

/-! ### Encoding (30_encoding.md) -/

/-- R97: decoding the word, or the bytes, of an instruction gives the instruction back, in the instruction's format. -/
def Obligations.DecodeEncodeAgree : Prop :=
  ∀ i : Instr, i.wellFormed = true →
    decodeWord (formatOf i) (encode i) = .ok i ∧ decode (formatOf i) (encodeBytes i) = .ok i

/-- R93, R103: a word is a command exactly when it is the encoding of one, so each command word has one meaning. -/
def Obligations.CommandWordIsItsEncoding : Prop :=
  ∀ (w : Word) (i : Instr), decodeC w = .ok i ↔ (formatOf i = .command ∧ encode i = w)

/-- R95: which format C words are illegal, and that issuing one raises ILLEGAL_CMD and does nothing else. -/
def Obligations.IllegalCommandWords : Prop :=
  ∀ w : Word,
    (decodeC w = .error .illegalCommand ↔
      (w.toNat % 256 ∉ [0x00, 0x01, 0x02, 0x03, 0x04, 0x05, 0x10, 0x11, 0x12, 0x13, 0x14] ∨
        (∃ k, 10 ≤ k ∧ k < 32 ∧ w.getLsbD k = true) ∨
        (w.toNat % 256 ≠ 0x11 ∧ w.toNat % 256 ≠ 0x12 ∧ (w.getLsbD 8 = true ∨ w.getLsbD 9 = true)) ∨
        (w.toNat % 256 = 0x12 ∧ w.getLsbD 9 = true))) ∧
    (decodeC w = .error .illegalCommand → ∀ s : State, s.busy = false →
      cmdWrite w s = .next (raise false (w.extractLsb' 0 8) .illegalCmd s))

/-- R94, R96, R142, R146: KIND alone selects what a producer word is; the ignored bits change nothing; a reserved word raises
PORT_RESERVED while `run` = 1; every word is ignored while `run` = 0. -/
def Obligations.ProducerWords : Prop :=
  ∀ w : Word,
    (w.getLsbD 31 = false → w.getLsbD 30 = false → decodeP w = .ok (.smp (w.extractLsb' 0 16))) ∧
    (w.getLsbD 31 = false → w.getLsbD 30 = true → decodeP w = .ok .frc) ∧
    (w.getLsbD 31 = true → decodeP w = .error .reservedProducerWord ∧
      ∀ s : State, s.run = true → portWord w s = .next (raise true 0#8 .portReserved s)) ∧
    (∀ s : State, s.run = false → portWord w s = .next s)

/-- R90, R103: words written out from the encoding tables decode to the instructions they stand for. -/
def Obligations.WrittenOutWordsDecode : Prop :=
  decodeC 0x00000001#32 = .ok .configure ∧ decodeC 0x00000002#32 = .ok .start ∧ decodeC 0x00000004#32 = .ok .claim ∧
  decodeC 0x00000010#32 = .ok .convert ∧ decodeC 0x00000211#32 = .ok (.fft .a .b) ∧
  decodeC 0x00000111#32 = .ok (.fft .b .a) ∧ decodeC 0x00000112#32 = .ok (.mag .b) ∧
  decodeC 0x00000014#32 = .ok .process ∧ decodeP 0x3FFF0800#32 = .ok (.smp 0x0800#16) ∧ decodeP 0x40000000#32 = .ok .frc

/-! ### Steps -/

/-- R98, R99, R141: the step of a bus master that writes a command word to CMD, of the ENGINE that completes the pending
command, and of the producer that delivers a word, is the decoded instruction's meaning on the state with what was taken
removed; no held transfer is due before it. That a busy core makes the ENGINE's step when the schedule is empty, the last
clause, is the model's choice (log entry 4). -/
def Obligations.StepRunsTheDecodedInstruction : Prop :=
  ∀ (s : State) (i : Instr) (ags : List Agent),
    (∀ (k : Nat) (a : Offset) (w : Word) (rest : List HostOp), s.schedule = .host k :: ags → s.resetHeld = false →
      s.busy = false → s.stalled = [] → s.masters.getD k [] = .write a w :: rest → wordOffset a = 0x14 → decodeC w = .ok i →
      step s = exec i { s with schedule := ags, masters := s.masters.set k rest }) ∧
    (s.schedule = .engine :: ags → s.busy = true → decodeC s.pend.word = .ok i →
      step s = exec i { s with schedule := ags }) ∧
    (∀ (w : Word) (rest : List Word), s.schedule = .producer :: ags → s.resetHeld = false →
      (s.busy = true ∨ s.stalled = []) → s.port = w :: rest → decodeP w = .ok i → step s = exec i { s with schedule := ags, port := rest }) ∧
    (s.schedule = [] → s.busy = true → decodeC s.pend.word = .ok i → step s = exec i s)

/-- The placing of a word for the next step (log entry 6): the next step runs exactly the instruction the table's decoder
reads. A command word is taken by a core that executes no command. A held transfer that is due is no longer before it. -/
def Obligations.PlacedWordRunsNext : Prop :=
  ∀ (s : State) (w : Word) (i : Instr), decodeTableWord 32 w.toNat = some i → (formatOf i = .command → s.busy = false) →
    step (s.withFetchWord 32 w.toNat) =
      exec i { s with
        resetHeld := false
        stalled := if s.busy then s.stalled else []
        masters := if formatOf i = .command then s.masters.getD 0 [] :: s.masters.drop 1 else s.masters }

/-- R98: a host write to CMD is the issue step, and the whole issue step. -/
def Obligations.IssueStep : Prop :=
  ∀ (w : Word) (s : State),
    (∀ a : Offset, wordOffset a = 0x14 → hostWrite a w s = cmdWrite w s) ∧
    (s.busy = true → cmdWrite w s = .next (raise false (w.extractLsb' 0 8) .busy s)) ∧
    (s.busy = false → (∀ i, decodeC w ≠ .ok i) → cmdWrite w s = .next (raise false (w.extractLsb' 0 8) .illegalCmd s)) ∧
    (∀ i, s.busy = false → decodeC w = .ok i →
      (∀ e, checkOf i s = some e → cmdWrite w s = .next (raise false (w.extractLsb' 0 8) e s)) ∧
      (checkOf i s = none → ∃ t, cmdWrite w s = .next t ∧ t = { s with pend := t.pend, busy := true } ∧
        t.pend.word = w ∧
        t.pend.snapshot = if i = .configure then ⟨s.frameN, s.config, s.midCode⟩ else s.pend.snapshot))

/-- R99: the whole completion step; the ENGINE has no other step. -/
def Obligations.CompletionStep : Prop :=
  ∀ (s : State),
    (∀ i, s.busy = true → decodeC s.pend.word = .ok i →
      engineStep s =
        .next { effectOf i s with busy := false, irqStatus := (effectOf i s).irqStatus ||| 0x1#4 }) ∧
    (s.busy = false → engineStep s = .next s)

/-- R100: a write to CMD that is not accepted changes ERR and IRQ_STATUS.ERROR and nothing else; an executing command is not
disturbed. -/
def Obligations.RejectedCommandIsPrecise : Prop :=
  ∀ (w : Word) (s t : State), cmdWrite w s = .next t → t.busy = s.busy →
    { t with err := s.err, irqStatus := s.irqStatus } = s ∧ t.irqStatus = s.irqStatus ||| 0x8#4 ∧ t.err.cause ≠ 0#8

/-! ### Errors (60_exceptions.md) -/

/-- R173, R174: the codes, and what raising an error records, for a command (`p` false) and for a producer word (`p`
true). -/
def Obligations.ErrorRecording : Prop :=
  ([ErrCode.invalidSize, .sizeExceeded, .badParam, .illegalCmd, .busy, .notConfigured, .runState, .noClaim, .claimHeld,
      .portOverrun, .portShort, .portReserved].map ErrCode.code =
    [0x01#8, 0x02#8, 0x03#8, 0x04#8, 0x05#8, 0x06#8, 0x07#8, 0x08#8, 0x09#8, 0x10#8, 0x11#8, 0x12#8]) ∧
  ∀ (p : Bool) (opc : BitVec 8) (e : ErrCode) (s : State),
    (s.err.cause = 0#8 → readReg .err (raise p opc e s) =
      BitVec.ofNat 32 (p.toNat * 2 ^ 16 + (if p then 0 else opc.toNat) * 2 ^ 8 + e.code.toNat)) ∧
    (s.err.cause ≠ 0#8 → readReg .err (raise p opc e s) = readReg .err s ||| 0x00020000#32) ∧
    readReg .irqStatus (raise p opc e s) = readReg .irqStatus s ||| 0x8#32 ∧
    { raise p opc e s with err := s.err, irqStatus := s.irqStatus } = s

/-! ### Issue checks -/

/-- R107: CONFIGURE's checks in order, and the snapshot, which no later register write changes. -/
def Obligations.ConfigureChecks : Prop :=
  ∀ s : State, s.busy = false →
    exec .configure s = .next (
      if s.run = true then raise false 0x01#8 .runState s
      else if s.frameN.toNat < 2 ∨ s.frameN.toNat &&& (s.frameN.toNat - 1) ≠ 0 then raise false 0x01#8 .invalidSize s
      else if s.build.nmax < s.frameN.toNat then raise false 0x01#8 .sizeExceeded s
      else if 4 < s.config.winKind.toNat then raise false 0x01#8 .badParam s
      else if s.config.sampleBits.toNat < 1 ∨ 16 < s.config.sampleBits.toNat then raise false 0x01#8 .badParam s
      else if s.config.outBits.toNat < 1 ∨ 16 < s.config.outBits.toNat then raise false 0x01#8 .badParam s
      else if s.midCode.toNat < 1 ∨ 2 ^ s.config.sampleBits.toNat - 1 < s.midCode.toNat then
        raise false 0x01#8 .badParam s
      else { s with pend := ⟨0x00000001#32, ⟨s.frameN, s.config, s.midCode⟩⟩, busy := true }) ∧
    (∀ (r : Reg) (v : Word) (u : State), (writeReg r v u).pend = u.pend)

/-- R105, R112, R114, R120, R136, R152, R155, R161, R163, R168: the checks of the other commands, in order, and their
acceptance. -/
def Obligations.OtherIssueChecks : Prop :=
  ∀ s : State, s.busy = false →
    exec .nop s = .next { s with pend := ⟨0x00000000#32, s.pend.snapshot⟩, busy := true } ∧
    exec .start s = .next (
      if s.run = true then raise false 0x02#8 .runState s
      else if s.cfgValid = false then raise false 0x02#8 .notConfigured s
      else { s with pend := ⟨0x00000002#32, s.pend.snapshot⟩, busy := true }) ∧
    exec .stop s = .next { s with pend := ⟨0x00000003#32, s.pend.snapshot⟩, busy := true } ∧
    exec .claim s = .next (
      if s.held.f0 = true ∨ s.held.f1 = true then raise false 0x04#8 .claimHeld s
      else { s with pend := ⟨0x00000004#32, s.pend.snapshot⟩, busy := true }) ∧
    exec .release s = .next { s with pend := ⟨0x00000005#32, s.pend.snapshot⟩, busy := true } ∧
    exec .convert s = .next (
      if s.held.f0 = false ∧ s.held.f1 = false then raise false 0x10#8 .noClaim s
      else { s with pend := ⟨0x00000010#32, s.pend.snapshot⟩, busy := true }) ∧
    (∀ src dst, exec (.fft src dst) s = .next (
      if s.cfgValid = false then raise false 0x11#8 .notConfigured s
      else { s with pend := ⟨encode (.fft src dst), s.pend.snapshot⟩, busy := true })) ∧
    (∀ src, exec (.mag src) s = .next (
      if s.cfgValid = false then raise false 0x12#8 .notConfigured s
      else { s with pend := ⟨encode (.mag src), s.pend.snapshot⟩, busy := true })) ∧
    exec .norm s = .next (
      if s.cfgValid = false then raise false 0x13#8 .notConfigured s
      else { s with pend := ⟨0x00000013#32, s.pend.snapshot⟩, busy := true }) ∧
    exec .process s = .next (
      if s.held.f0 = false ∧ s.held.f1 = false then raise false 0x14#8 .noClaim s
      else { s with pend := ⟨0x00000014#32, s.pend.snapshot⟩, busy := true })

/-! ### Completions: the commands -/

/-- R105, R114, R155: NOP, STOP and RELEASE complete; everything else is unchanged. -/
def Obligations.NopStopReleaseComplete : Prop :=
  ∀ s : State, s.busy = true →
    exec .nop s = .next { s with busy := false, irqStatus := s.irqStatus ||| 0x1#4 } ∧
    exec .stop s = .next { s with
      run := false, active := .s0, ready := ⟨false, false⟩, held := ⟨false, false⟩, wp := 0#15
      busy := false, irqStatus := s.irqStatus ||| 0x1#4 } ∧
    exec .release s = .next { s with
      held := ⟨false, false⟩, busy := false, irqStatus := s.irqStatus ||| 0x1#4 }

/-- R113: START completes; the counters, ERR and all RAM keep their values. -/
def Obligations.StartCompletes : Prop :=
  ∀ s : State, s.busy = true →
    exec .start s = .next { s with
      run := true, active := .s0, ready := ⟨false, false⟩, held := ⟨false, false⟩, wp := 0#15
      busy := false, irqStatus := s.irqStatus ||| 0x1#4 }

/-- R108, R110, R116, R129: CONFIGURE completes: the active configuration is the snapshot, each table is rebuilt when its
parameters change and kept otherwise, and nothing else is written. -/
def Obligations.ConfigureCompletes : Prop :=
  ∀ s : State, s.busy = true → s.build.wellFormed = true →
    ∃ t, exec .configure s = .next t ∧
      t = { s with
        mem := t.mem
        actN := s.pend.snapshot.n, actConfig := s.pend.snapshot.config, actMid := s.pend.snapshot.mid, cfgValid := true
        busy := false, irqStatus := s.irqStatus ||| 0x1#4 } ∧
      (s.cfgValid = false ∨ s.pend.snapshot.n ≠ s.actN → ∀ k, k < s.build.nmax / 2 →
        t.mem.hasComplex .twid k
          (if k < t.activeN / 2 then s.num.twiddle t.activeN k else ⟨0x00000000#32, 0x00000000#32⟩)) ∧
      (s.cfgValid = false ∨ s.pend.snapshot.n ≠ s.actN ∨ s.pend.snapshot.config.winKind ≠ s.actConfig.winKind →
        ∀ n, n < s.build.nmax → t.mem.word? (Window.win.elem n) =
          some (if n < t.activeN then s.num.window t.winKind t.activeN n else 0x00000000#32)) ∧
      (s.cfgValid = true ∧ s.pend.snapshot.n = s.actN → ∀ a, 0x40000 ≤ a → a < 0x50000 →
        t.mem.byte? a = s.mem.byte? a) ∧
      (s.cfgValid = true ∧ s.pend.snapshot.n = s.actN ∧ s.pend.snapshot.config.winKind = s.actConfig.winKind →
        ∀ a, 0x50000 ≤ a → a < 0x60000 → t.mem.byte? a = s.mem.byte? a) ∧
      sameOutside s t 0x40000 0x60000

/-- R152, R154: CLAIM completes in each state of the ready flags. -/
def Obligations.ClaimCompletes : Prop :=
  ∀ s : State, s.busy = true →
    (s.ready = ⟨true, false⟩ → exec .claim s = .next { s with
      ready := ⟨false, false⟩, held := ⟨true, s.held.f1⟩, busy := false, irqStatus := s.irqStatus ||| 0x1#4 }) ∧
    (s.ready = ⟨false, true⟩ → exec .claim s = .next { s with
      ready := ⟨false, false⟩, held := ⟨s.held.f0, true⟩, busy := false, irqStatus := s.irqStatus ||| 0x1#4 }) ∧
    (s.ready = ⟨false, false⟩ ∨ s.ready = ⟨true, true⟩ →
      exec .claim s = .next { s with busy := false, irqStatus := s.irqStatus ||| 0x1#4 })

/-- R134, R137, R139: CONVERT completes: bank A receives the windowed samples of the held frame, the hold ends, and nothing
else is written. -/
def Obligations.ConvertCompletes : Prop :=
  ∀ s : State, s.busy = true → s.build.wellFormed = true → s.activeN ≤ s.build.nmax →
    ∃ t, exec .convert s = .next t ∧
      t = { s with
        mem := t.mem, draws := t.draws, held := s.held.set s.claimSlot false
        busy := false, irqStatus := s.irqStatus ||| 0x1#4 } ∧
      (∀ i, i < s.activeN → ∃ (c : Half) (w : Word), s.mem.mayReadHalf ((rawWindow s.claimSlot).elem i) c ∧
        s.mem.mayReadWord (Window.win.elem i) w ∧
        t.mem.hasComplex .workA i
          ⟨s.num.fmul (s.num.fdiv (NUM.f32 ((c.toNat : Int) - s.mid)) (NUM.f32 s.mid)) w, 0x00000000#32⟩) ∧
      sameOutside s t 0x60000 (0x60000 + 8 * s.activeN)

/-- R121, R122, R124: FFT completes: the destination bank receives the stages and the scaling of the bit-reversed source, in
place or out of place alike, and nothing else is written. -/
def Obligations.FftCompletes : Prop :=
  ∀ (s : State) (src dst : Bank) (m : Nat), s.busy = true → s.build.wellFormed = true → s.activeN = 2 ^ m →
    s.activeN ≤ s.build.nmax →
    ∃ t, exec (.fft src dst) s = .next t ∧
      t = { s with mem := t.mem, draws := t.draws, busy := false, irqStatus := s.irqStatus ||| 0x1#4 } ∧
      (∃ xs tw : List ComplexValue, xs.length = s.activeN ∧ tw.length = s.activeN / 2 ∧
        (∀ i, i < s.activeN → s.mem.mayReadComplex (workWindow src) i (elemAt xs i)) ∧
        (∀ k, k < s.activeN / 2 → s.mem.mayReadComplex .twid k (elemAt tw k)) ∧
        ∀ i, i < s.activeN → t.mem.hasComplex (workWindow dst) i
          (elemAt (scale s.num s.activeN
            (stages s.num tw m s.activeN ((List.range s.activeN).map fun j => elemAt xs (rev m j)))) i)) ∧
      sameOutside s t (workWindow dst).base ((workWindow dst).base + 8 * s.activeN)

/-- R161: MAG completes: the one-sided magnitudes, and nothing else written. -/
def Obligations.MagCompletes : Prop :=
  ∀ (s : State) (src : Bank), s.busy = true → s.build.wellFormed = true → s.activeN ≤ s.build.nmax →
    ∃ t, exec (.mag src) s = .next t ∧
      t = { s with mem := t.mem, draws := t.draws, busy := false, irqStatus := s.irqStatus ||| 0x1#4 } ∧
      (∀ k, k < s.activeN / 2 → ∃ x : ComplexValue, s.mem.mayReadComplex (workWindow src) k x ∧
        t.mem.word? (Window.mag.elem k) =
          some (s.num.fsqrt (s.num.fadd (s.num.fmul x.re x.re) (s.num.fmul x.im x.im)))) ∧
      sameOutside s t 0xA0000 (0xA0000 + 4 * (s.activeN / 2))

/-- R163 (step 5's comparison and assignment see one value of an element nothing has written: the model's choice, log entry
19): NORM completes: SPEC receives the codes, MAXMAG the divisor, SPEC_SEQ counts, and nothing else is written. -/
def Obligations.NormCompletes : Prop :=
  ∀ s : State, s.busy = true → s.build.wellFormed = true → s.activeN ≤ s.build.nmax →
    ∃ t, exec .norm s = .next t ∧
      t = { s with
        mem := t.mem, draws := t.draws, maxMag := t.maxMag, specSeq := s.specSeq + 1#32
        busy := false, irqStatus := s.irqStatus ||| 0x1#4 } ∧
      (∃ xs : List Word, xs.length = s.activeN / 2 ∧
        (∀ k, k < s.activeN / 2 → s.mem.mayReadWord (Window.mag.elem k) (xs.getD k 0#32)) ∧
        t.maxMag = if NUM.flt (maxMagnitude xs) s.build.magEps then 0x3F800000#32 else maxMagnitude xs) ∧
      (∀ k, k < s.activeN / 2 → ∃ x : Word, s.mem.mayReadWord (Window.mag.elem k) x ∧
        t.mem.half? (Window.spec.elem k) = some (BitVec.ofNat 16 (NUM.trunc
          (s.num.fmul (clamp (s.num.fdiv x t.maxMag)) (NUM.f32 ((2 ^ s.outBits - 1 : Nat) : Int)))))) ∧
      sameOutside s t 0xB0000 (0xB0000 + 4 * (s.activeN / 2))

/-- R168, R170: PROCESS completes, with the result of the commands CONVERT, FFT a a, MAG a and NORM completed one after the
other; it writes bank A, MAG, SPEC, MAXMAG, SPEC_SEQ and the hold, and nothing else. -/
def Obligations.ProcessCompletes : Prop :=
  ∀ s : State, s.busy = true → s.build.wellFormed = true → s.activeN ≤ s.build.nmax →
    ∃ t t1 t2 t3, exec .process s = .next t ∧
      exec .convert s = .next t1 ∧ exec (.fft .a .a) { t1 with busy := true } = .next t2 ∧
      exec (.mag .a) { t2 with busy := true } = .next t3 ∧ exec .norm { t3 with busy := true } = .next t ∧
      t = { s with
        mem := t.mem, draws := t.draws, maxMag := t.maxMag, specSeq := s.specSeq + 1#32
        held := s.held.set s.claimSlot false, busy := false, irqStatus := s.irqStatus ||| 0x1#4 } ∧
      (∀ a, ¬ (0x60000 ≤ a ∧ a < 0x60000 + 8 * s.activeN) → ¬ (0xA0000 ≤ a ∧ a < 0xA0000 + 4 * (s.activeN / 2)) →
        ¬ (0xB0000 ≤ a ∧ a < 0xB0000 + 4 * (s.activeN / 2)) → t.mem.byte? a = s.mem.byte? a)

/-! ### The producer words (43_handoff.md) -/

/-- R144: SMP stores the sample's low SAMPLE_BITS bits at `RAW[active][wp]` and advances `wp`; on a full frame it is refused
with PORT_OVERRUN; nothing else changes. -/
def Obligations.SampleIsStored : Prop :=
  ∀ (s : State) (code : Half), s.run = true →
    (s.wp.toNat = s.activeN → exec (.smp code) s = .next (raise true 0#8 .portOverrun s)) ∧
    (s.wp.toNat ≠ s.activeN → ∃ t, exec (.smp code) s = .next t ∧
      t = { s with mem := t.mem, wp := s.wp + 1#15 } ∧
      t.mem.half? ((rawWindow s.active).elem s.wp.toNat) = some (BitVec.ofNat 16 (code.toNat % 2 ^ s.sampleBits)) ∧
      sameOutside s t ((rawWindow s.active).elem s.wp.toNat) ((rawWindow s.active).elem s.wp.toNat + 4))

/-- R147, R148: FRC in each of its cases: a short frame, the other slot held, the other slot ready, and neither. -/
def Obligations.FrameCompletion : Prop :=
  ∀ s : State, s.run = true →
    (s.wp.toNat ≠ s.activeN → exec .frc s = .next (raise true 0#8 .portShort s)) ∧
    (s.wp.toNat = s.activeN → s.held.get s.active.other = true → exec .frc s = .next { s with
      dropCount := s.dropCount + 1#32, irqStatus := s.irqStatus ||| 0x4#4, wp := 0#15 }) ∧
    (s.wp.toNat = s.activeN → s.held.get s.active.other = false → s.ready.get s.active.other = true →
      exec .frc s = .next { s with
        dropCount := s.dropCount + 1#32, ready := (s.ready.set s.active.other false).set s.active true
        active := s.active.other, wp := 0#15, frameCount := s.frameCount + 1#32
        irqStatus := s.irqStatus ||| 0x4#4 ||| 0x2#4 }) ∧
    (s.wp.toNat = s.activeN → s.held.get s.active.other = false → s.ready.get s.active.other = false →
      exec .frc s = .next { s with
        ready := s.ready.set s.active true, active := s.active.other, wp := 0#15
        frameCount := s.frameCount + 1#32, irqStatus := s.irqStatus ||| 0x2#4 })

/-! ### Registers (10_state.md) -/

/-- R36, R53: every bit of STATUS, and the interrupt output. -/
def Obligations.StatusBits : Prop :=
  ∀ s : State,
    (readReg .status s).getLsbD 0 = s.busy ∧ (readReg .status s).getLsbD 1 = s.run ∧
    (readReg .status s).getLsbD 2 = s.cfgValid ∧ (readReg .status s).getLsbD 3 = decide (s.active = .s1) ∧
    (readReg .status s).getLsbD 4 = s.ready.f0 ∧ (readReg .status s).getLsbD 5 = s.ready.f1 ∧
    (readReg .status s).getLsbD 6 = s.held.f0 ∧ (readReg .status s).getLsbD 7 = s.held.f1 ∧
    (readReg .status s).getLsbD 8 = (s.held.f0 || s.held.f1) ∧ (readReg .status s).getLsbD 9 = s.held.f1 ∧
    (readReg .status s).getLsbD 10 = decide (s.err.cause ≠ 0#8) ∧
    (readReg .status s).getLsbD 11 = s.irq ∧
    (s.irq = true ↔ ∃ k, k < 4 ∧ s.irqStatus.getLsbD k = true ∧ s.irqEnable.getLsbD k = true) ∧
    ∀ k, 12 ≤ k → (readReg .status s).getLsbD k = false

/-- R30 to R35, R37 to R45: the other registers read their whole word, or their fields at their bits with every reserved bit
0. -/
def Obligations.RegisterFields : Prop :=
  ∀ s : State,
    readReg .id s = 0x46465432#32 ∧
    readReg .frameN s = s.frameN ∧ readReg .dropCount s = s.dropCount ∧ readReg .frameCount s = s.frameCount ∧
    readReg .specSeq s = s.specSeq ∧ readReg .maxMag s = s.maxMag ∧ readReg .actN s = s.actN ∧
    readReg .param s = BitVec.ofNat 32 (0x100 + s.build.log2Nmax % 32) ∧
    (∀ r c, (r = Reg.config ∧ c = s.config) ∨ (r = Reg.actConfig ∧ c = s.actConfig) →
      readReg r s = BitVec.ofNat 32 (c.outBits.toNat * 2 ^ 16 + c.sampleBits.toNat * 2 ^ 8 + c.winKind.toNat)) ∧
    readReg .err s = BitVec.ofNat 32
      (s.err.multi.toNat * 2 ^ 17 + s.err.port.toNat * 2 ^ 16 + s.err.opc.toNat * 2 ^ 8 + s.err.cause.toNat) ∧
    readReg .cmd s = 0#32 ∧ (readReg .wp s).toNat = s.wp.toNat ∧ (readReg .midCode s).toNat = s.midCode.toNat ∧
    (readReg .actMid s).toNat = s.actMid.toNat ∧ (readReg .irqStatus s).toNat = s.irqStatus.toNat ∧
    (readReg .irqEnable s).toNat = s.irqEnable.toNat

/-- R26, R32 to R34, R38 to R40, R43, R44: what a host write to each register does: the RW registers store their defined
bits, the WC registers clear, IRQ_STATUS bits clear by a 1, the read-only registers ignore the write; nothing else
changes. -/
def Obligations.RegisterWrites : Prop :=
  ∀ (v : Word) (s : State),
    readReg .config (writeReg .config v s) = v &&& 0x001F1F07#32 ∧
    { writeReg .config v s with config := s.config } = s ∧
    readReg .frameN (writeReg .frameN v s) = v ∧ { writeReg .frameN v s with frameN := s.frameN } = s ∧
    readReg .midCode (writeReg .midCode v s) = v &&& 0x0000FFFF#32 ∧
    { writeReg .midCode v s with midCode := s.midCode } = s ∧
    readReg .irqEnable (writeReg .irqEnable v s) = v &&& 0x0000000F#32 ∧
    { writeReg .irqEnable v s with irqEnable := s.irqEnable } = s ∧
    readReg .irqStatus (writeReg .irqStatus v s) = readReg .irqStatus s &&& ~~~v ∧
    { writeReg .irqStatus v s with irqStatus := s.irqStatus } = s ∧
    readReg .err (writeReg .err v s) = 0#32 ∧ { writeReg .err v s with err := s.err } = s ∧
    readReg .dropCount (writeReg .dropCount v s) = 0#32 ∧ { writeReg .dropCount v s with dropCount := s.dropCount } = s ∧
    readReg .frameCount (writeReg .frameCount v s) = 0#32 ∧
    { writeReg .frameCount v s with frameCount := s.frameCount } = s ∧
    ∀ r, r ∈ [Reg.id, .param, .status, .wp, .specSeq, .maxMag, .actN, .actConfig, .actMid] → writeReg r v s = s

/-- R27, R28, R35, R69: the registers' offsets; a host transfer at a register's offset reads it and writes it, a write to CMD
issues a command, and the reserved register offsets read 0 and ignore writes. -/
def Obligations.RegisterMap : Prop :=
  ([Reg.id, .param, .config, .frameN, .midCode, .cmd, .status, .wp, .err, .dropCount, .frameCount, .specSeq, .maxMag,
      .irqStatus, .irqEnable, .actN, .actConfig, .actMid].map Reg.offset =
    [0x000, 0x004, 0x008, 0x00C, 0x010, 0x014, 0x018, 0x01C, 0x020, 0x024, 0x028, 0x02C, 0x030, 0x034, 0x038, 0x03C, 0x040,
      0x044]) ∧
  ∀ (a : Offset) (s : State) (v : Word),
    (∀ r : Reg, wordOffset a = r.offset → busRead a s = (readReg r s, s.draws) ∧
      (r ≠ .cmd → hostWrite a v s = .next (writeReg r v s)) ∧ (r = .cmd → hostWrite a v s = cmdWrite v s)) ∧
    (0x048 ≤ wordOffset a → wordOffset a < 0x20000 →
      busRead a s = (0#32, s.draws) ∧ hostWrite a v s = .next s)

/-! ### The bus and the RAM windows (20_memory.md) -/

/-- R66, R67, R73, R76: a system address in the 1 MiB from CORE_BASE reaches the core at the offset of its bits 19:0, any
other address does not reach it, and address bits 1:0 are ignored by every transfer. That the aperture stands at one place,
CORE_BASE, and that an address outside its 1 MiB reaches nothing of the core, is the model's choice (log entry 18): R76
leaves the placing to the platform. -/
def Obligations.LowAddressBitsAreIgnored : Prop :=
  (∀ (build : Build), build.wellFormed = true →
    (∀ a : Offset, SystemTransfer.toCore build (.read (systemAddress build a)) = some (.read a) ∧
      ∀ v, SystemTransfer.toCore build (.write (systemAddress build a) v) = some (.write a v)) ∧
    ∀ (addr : Nat) (v : Word), (addr < build.coreBase ∨ build.coreBase + 0x100000 ≤ addr) →
      SystemTransfer.toCore build (.read addr) = none ∧ SystemTransfer.toCore build (.write addr v) = none) ∧
  ∀ (a b : Offset) (s : State) (v : Word), a.extractLsb' 2 18 = b.extractLsb' 2 18 →
    busRead a s = busRead b s ∧ hostWrite a v s = hostWrite b v s ∧ inRamWindow a = inRamWindow b

/-- R72, R74, R75, R61: what each window's word reads: the written element, a draw where nothing was written, 0 beyond the
element count and in the reserved regions. -/
def Obligations.WindowReads : Prop :=
  ∀ s : State, s.build.wellFormed = true →
    (∀ (w : Window) (i : Nat), w = .raw0 ∨ w = .raw1 ∨ w = .spec → i < w.count s.build →
      (∀ h, s.mem.half? (w.elem i) = some h →
        busRead (BitVec.ofNat 20 (w.elem i)) s = (BitVec.ofNat 32 h.toNat, s.draws)) ∧
      (s.mem.half? (w.elem i) = none → busRead (BitVec.ofNat 20 (w.elem i)) s =
        (BitVec.ofNat 32 ((Config.freeWord s.draws).toNat % 2 ^ 16), s.draws + 1))) ∧
    (∀ (w : Window) (i d : Nat), ((w = .win ∨ w = .mag) ∧ d = 0) ∨
        ((w = .twid ∨ w = .workA ∨ w = .workB) ∧ (d = 0 ∨ d = 4)) → i < w.count s.build →
      (∀ x, s.mem.word? (w.elem i + d) = some x → busRead (BitVec.ofNat 20 (w.elem i + d)) s = (x, s.draws)) ∧
      (s.mem.word? (w.elem i + d) = none →
        busRead (BitVec.ofNat 20 (w.elem i + d)) s = (Config.freeWord s.draws, s.draws + 1))) ∧
    (∀ (w : Window) (i d : Nat) (v : Word), w.count s.build ≤ i → d < w.stride → w.elem i + d < w.base + w.size →
      busRead (BitVec.ofNat 20 (w.elem i + d)) s = (0#32, s.draws) ∧
        hostWrite (BitVec.ofNat 20 (w.elem i + d)) v s = .next s) ∧
    (∀ (a : Offset) (v : Word), 0xC0000 ≤ a.toNat → busRead a s = (0#32, s.draws) ∧ hostWrite a v s = .next s)

/-- R69, R77: a write to a work bank's component stores the value there and changes no other byte; the other windows ignore
writes. -/
def Obligations.WindowWrites : Prop :=
  ∀ (s : State) (v : Word), s.build.wellFormed = true →
    (∀ (bank : Bank) (i d : Nat), i < s.build.nmax → d = 0 ∨ d = 4 →
      ∃ t, hostWrite (BitVec.ofNat 20 ((workWindow bank).elem i + d)) v s = .next t ∧
        t = { s with mem := t.mem } ∧ t.mem.word? ((workWindow bank).elem i + d) = some v ∧
        sameOutside s t ((workWindow bank).elem i + d) ((workWindow bank).elem i + d + 4)) ∧
    (∀ (a : Offset) (w : Window), windowAt (wordOffset a) = some w →
      w = .raw0 ∨ w = .raw1 ∨ w = .twid ∨ w = .win ∨ w = .mag ∨ w = .spec → hostWrite a v s = .next s)

/-- R78: a transfer to a RAM window holds while a command executes, and the core is not changed; once `busy` = 0 the held
transfers come first, in the order in which they came to hold; any other transfer, and a window transfer while `busy` = 0,
takes effect in the step; a poll (R104) is a read that stays until its condition holds. The order among held transfers is the
model's choice (log entry 3). -/
def Obligations.RamTransfersHold : Prop :=
  (∀ (s : State) (k : Nat) (ks : List Nat), s.busy = false → s.stalled = k :: ks →
    step s = hostStep k { s with stalled := ks }) ∧
  ∀ (s : State) (k : Nat) (op : HostOp) (rest : List HostOp), s.masters.getD k [] = op :: rest → s.resetHeld = false →
    (s.busy = true → 0x20000 ≤ wordOffset op.target → wordOffset op.target < 0xC0000 →
      (k ∈ s.stalled → hostStep k s = .next s) ∧
      (k ∉ s.stalled → hostStep k s = .next { s with stalled := s.stalled ++ [k] })) ∧
    (s.busy = false ∨ wordOffset op.target < 0x20000 ∨ 0xC0000 ≤ wordOffset op.target →
      (∀ a, op = .read a → hostStep k s = .next { s with
        masters := s.masters.set k rest, readLog := ⟨k, a, (busRead a s).1⟩ :: s.readLog, draws := (busRead a s).2 }) ∧
      (∀ a v, op = .write a v → hostStep k s = hostWrite a v { s with masters := s.masters.set k rest }) ∧
      (∀ a mask v, op = .poll a mask v → hostStep k s = .next { s with
        masters := s.masters.set k (if (busRead a s).1 &&& mask = v then rest else op :: rest)
        readLog := ⟨k, a, (busRead a s).1⟩ :: s.readLog, draws := (busRead a s).2 }))

/-- R79: a read transfer changes nothing in the core. -/
def Obligations.ReadsHaveNoSideEffect : Prop :=
  ∀ (s t : State) (k : Nat) (op : HostOp) (rest : List HostOp), s.masters.getD k [] = op :: rest →
    (∀ a v, op ≠ .write a v) → hostStep k s = .next t →
    t = { s with masters := t.masters, readLog := t.readLog, draws := t.draws, stalled := t.stalled }

/-- R71: byte k of a written word is its bits 8k+7 : 8k. -/
def Obligations.ByteViewIsLittleEndian : Prop :=
  ∀ (m : Memory) (o : Nat),
    (∀ (w : Word) (k : Nat), m.word? o = some w → k < 4 → m.byte? (o + k) = some (w.extractLsb' (8 * k) 8)) ∧
    (∀ (ws : List Word) (i k : Nat), i < ws.length → k < 4 →
      (m.writeWords o ws).byte? (o + 4 * i + k) = some ((ws.getD i 0#32).extractLsb' (8 * k) 8))

/-! ### Reset (70_reset_and_hazards.md) -/

/-- R64, R193: the registers and flags right after reset, and what each command does there. -/
def Obligations.StateAfterReset : Prop :=
  readReg .id State.reset = 0x46465432#32 ∧ readReg .status State.reset = 0#32 ∧ readReg .param State.reset = 0x0000010A#32 ∧
  (∀ r, r ∈ [Reg.config, .frameN, .midCode, .cmd, .wp, .err, .dropCount, .frameCount, .specSeq, .maxMag, .irqStatus,
    .irqEnable, .actN, .actConfig, .actMid] → readReg r State.reset = 0#32) ∧
  State.reset.irq = false ∧ (∀ o, State.reset.mem.word? o = none ∧ State.reset.mem.half? o = none) ∧
  checkOf .start State.reset = some .notConfigured ∧
  (∀ i, i ∈ [Instr.fft .a .a, .fft .a .b, .fft .b .a, .fft .b .b, .mag .a, .mag .b, .norm] →
    checkOf i State.reset = some .notConfigured) ∧
  checkOf .convert State.reset = some .noClaim ∧ checkOf .process State.reset = some .noClaim ∧
  (∀ i, i ∈ [Instr.nop, .stop, .claim, .release] → checkOf i State.reset = none)

/-- R190, R191: asserting reset at any time gives every piece of the core its reset value; while it is asserted a write and a
producer word are ignored and a read returns 0. That what waits outside the core stays and that an arrival is taken from its
queue is the model's choice (log entry 14), and so is the value of `pend`, which R64 leaves open (log entry 9). -/
def Obligations.ResetInput : Prop :=
  ∀ s : State,
    (∃ t, agentStep .assertReset s = .next t ∧
      t = { State.reset with
        build := s.build, resetHeld := true, masters := s.masters, port := s.port, stalled := s.stalled
        turn := s.turn, schedule := s.schedule, readLog := s.readLog, draws := s.draws }) ∧
    (s.resetHeld = true →
      (∀ k a v rest, s.masters.getD k [] = .write a v :: rest →
        hostStep k s = .next { s with masters := s.masters.set k rest }) ∧
      (∀ k a rest, s.masters.getD k [] = .read a :: rest → hostStep k s = .next { s with
        masters := s.masters.set k rest, readLog := ⟨k, a, 0#32⟩ :: s.readLog }) ∧
      (∀ w rest, s.port = w :: rest → producerStep s = .next { s with port := rest }))

/-! ### Invariants and whole-machine rules -/

/-- The whole invariant holds at reset. -/
def Obligations.ResetMeetsTheInvariant : Prop := Inv State.reset

/-- R54, R45, R101: every step keeps the handoff invariants, the legality of the active configuration, and the issue checks of
the pending command; and (R78) every step keeps each held transfer a RAM window transfer that waits at the head of its
master's queue. -/
def Obligations.StepKeepsControlInvariant : Prop :=
  ∀ s t : State, step s = .next t → (ControlInv s → ControlInv t) ∧ (StalledInv s → StalledInv t)

/-- R46, R109: every step keeps TWID and WIN the tables of the active configuration. -/
def Obligations.StepKeepsTables : Prop :=
  ∀ s t : State, ControlInv s → TablesInv s → step s = .next t → TablesInv t

/-- R157: every step keeps the samples of the frame being filled, and of ready and held frames, written. -/
def Obligations.StepKeepsFramesWritten : Prop :=
  ∀ s t : State, ControlInv s → FramesInv s → step s = .next t → FramesInv t

/-- Every step keeps the RAM's canonical form. -/
def Obligations.StepKeepsMemoryCanonical : Prop :=
  ∀ s t : State, s.mem.wf → step s = .next t → t.mem.wf

/-- R158: while a slot is held no step changes an element of its frame buffer; asserting reset is not such a step. -/
def Obligations.HeldFrameIsNeverWritten : Prop :=
  ∀ (s t : State) (sl : Slot), ControlInv s → s.held.get sl = true → (nextAgent s).1 ≠ .assertReset → step s = .next t →
    ∀ i, i < s.build.nmax → t.mem.half? ((rawWindow sl).elem i) = s.mem.half? ((rawWindow sl).elem i)

/-- R157, R158: a command that converts a claimed frame never reads an element nothing has written: the draw counter stays. -/
def Obligations.ConvertTakesNoDraw : Prop :=
  ∀ (s t : State), ControlInv s → TablesInv s → FramesInv s → s.busy = true → s.held.any = true →
    exec .convert s = .next t → t.draws = s.draws

/-- In every state the rules can reach, a step answers a next state: nothing faults and nothing is refused. -/
def Obligations.EveryStepIsSafe : Prop := ∀ s : State, ControlInv s → SafeStep s

/-- R208: an accepted command completes at the ENGINE's step, which comes after finitely many steps of the other agents unless
reset abandons the command, and every held RAM window transfer completes with that completion: before any other step, each
held transfer takes its turn (a poll whose condition does not hold stays, as its next read). That an empty schedule lets the
ENGINE move is the model's choice (log entry 4). -/
def Obligations.AcceptedCommandCompletes : Prop :=
  (∀ (s : State) (ags : List Agent), ControlInv s → s.busy = true → s.schedule = .engine :: ags ∨ s.schedule = [] →
    ∃ t, step s = .next t ∧ t.busy = false ∧ t.irqStatus.getLsbD 0 = true) ∧
  (∀ s : State, ControlInv s → s.busy = true →
    ∃ (n : Nat) (t u : State), n ≤ s.schedule.length ∧ stepN n s = .next t ∧ t.busy = true ∧
      ((nextAgent t).1 = .engine ∨ (nextAgent t).1 = .assertReset) ∧ step t = .next u ∧ u.busy = false) ∧
  (∀ s : State, StalledInv s → s.busy = false →
    ∃ t, stepN s.stalled.length s = .next t ∧ t.stalled = [] ∧ t.busy = false ∧ t.schedule = s.schedule ∧ t.port = s.port ∧
      ∀ k ∈ s.stalled, t.masters.getD k [] = (s.masters.getD k []).tail ∨
        ∃ a mask v, (s.masters.getD k []).head? = some (.poll a mask v) ∧ t.masters.getD k [] = s.masters.getD k [])

/-- R63: each piece of state is changed only by its writers, as the table of R63 (the structure `OnlyWriters`, one field a
row) lists them; asserting reset is not such a step. -/
def Obligations.OnlyTheListedWriters : Prop :=
  ∀ s t : State, ControlInv s → step s = .next t → (nextAgent s).1 ≠ .assertReset → OnlyWriters s t

/-- R43: an event bit, once set, stays set through every step but a host write of 1 to it and a reset. -/
def Obligations.EventBitsAreSticky : Prop :=
  ∀ (s t : State) (b : Nat), step s = .next t → s.irqStatus.getLsbD b = true → t.irqStatus.getLsbD b = false →
    (nextAgent s).1 = .assertReset ∨
      ∃ (k : Nat) (a : Offset) (v : Word) (rest : List HostOp), (nextAgent s).1 = .host k ∧
        s.masters.getD k [] = .write a v :: rest ∧ wordOffset a = 0x34 ∧ v.getLsbD b = true

/-! ### The FFT engine (41_fft.md) -/

/-- R119, R122: bit reversal is its own inverse, and the swaps of the in-place form give the array of the out-of-place form. -/
def Obligations.InPlacePermutationAgrees : Prop :=
  ∀ (m : Nat) (xs dst : List ComplexValue), xs.length = 2 ^ m → dst.length = 2 ^ m →
    (∀ i, i < 2 ^ m → rev m i < 2 ^ m ∧ rev m (rev m i) = i ∧
      ∀ b, b < m → (rev m i).testBit b = i.testBit (m - 1 - b)) ∧
    permuteInPlace m (2 ^ m) xs = permuteInto m (2 ^ m) xs dst

/-- R123, for every record NUM: two butterflies on disjoint pairs can be computed in either order. -/
def Obligations.ButterfliesCommute : Prop :=
  ∀ (num : Numerics) (w v : ComplexValue) (half i j : Nat) (ys : List ComplexValue), i ≠ j → i ≠ j + half → j ≠ i + half →
    butterfly num w half i (butterfly num v half j ys) = butterfly num v half j (butterfly num w half i ys)

/-! ### Numbers (00_scope.md R14) -/

/-- R14: the rounding of every primitive is to nearest with ties to even: no finite encoding is nearer to the exact value
`p/q`, a tie goes to the even significand, and the result is infinity exactly from the midpoint between the largest finite
value and 2^128 (the threshold is PRESUMED, log entry 12). -/
def Obligations.RoundingIsToNearestEven : Prop :=
  ∀ p q : Nat, 0 < q →
    (2 * p < (NUM.units 0x7F7FFFFF#32 + NUM.units 0x7F800000#32) * q → NUM.roundMag p q < 0x7F800000 ∧
      ∀ y : Nat, y < 0x7F800000 →
        let r := (NUM.units (BitVec.ofNat 32 (NUM.roundMag p q)) : Int) * q - p
        let d := (NUM.units (BitVec.ofNat 32 y) : Int) * q - p
        r.natAbs ≤ d.natAbs ∧ (r.natAbs = d.natAbs → y ≠ NUM.roundMag p q → NUM.roundMag p q % 2 = 0)) ∧
    ((NUM.units 0x7F7FFFFF#32 + NUM.units 0x7F800000#32) * q ≤ 2 * p → NUM.roundMag p q = 0x7F800000)

/-- R14: `fsqrt` of a positive finite value is the finite encoding nearest to the exact square root. -/
def Obligations.SquareRootIsNearest : Prop :=
  ∀ x y : Word, NUM.isFinite x = true → NUM.isFinite y = true → NUM.sign x = false → NUM.sign y = false →
    NUM.isFinite (NUM.fsqrt x) = true ∧ NUM.sign (NUM.fsqrt x) = false ∧
    |(NUM.units (NUM.fsqrt x) : ℝ) - √((NUM.units x : ℝ) * 2 ^ 149)| ≤
      |(NUM.units y : ℝ) - √((NUM.units x : ℝ) * 2 ^ 149)|

/-- R14: a result that is a NaN is the canonical quiet NaN, and a comparison with a NaN is false. -/
def Obligations.NanRules : Prop :=
  ∀ x y : Word,
    (NUM.isNaN (NUM.fadd x y) = true → NUM.fadd x y = 0x7FC00000#32) ∧
    (NUM.isNaN (NUM.fsub x y) = true → NUM.fsub x y = 0x7FC00000#32) ∧
    (NUM.isNaN (NUM.fmul x y) = true → NUM.fmul x y = 0x7FC00000#32) ∧
    (NUM.isNaN (NUM.fdiv x y) = true → NUM.fdiv x y = 0x7FC00000#32) ∧
    (NUM.isNaN (NUM.fsqrt x) = true → NUM.fsqrt x = 0x7FC00000#32) ∧
    (NUM.isNaN x = true → NUM.fsqrt x = 0x7FC00000#32) ∧
    (NUM.isNaN x = true ∨ NUM.isNaN y = true → NUM.fgt x y = false ∧ NUM.flt x y = false ∧
      NUM.fadd x y = 0x7FC00000#32 ∧ NUM.fsub x y = 0x7FC00000#32 ∧ NUM.fmul x y = 0x7FC00000#32 ∧
      NUM.fdiv x y = 0x7FC00000#32)

/-- R14, R16: `f32(i)` is exact for |i| < 2^24. -/
def Obligations.IntegerConversionIsExact : Prop :=
  ∀ i : Int, i.natAbs < 2 ^ 24 →
    NUM.isFinite (NUM.f32 i) = true ∧ NUM.signedUnits (NUM.f32 i) = i * 2 ^ 149

/-- R135, for NUM = binary32: `conv(0)` is -1.0 and `conv(MID)` is +0.0, whatever the legal MID. -/
def Obligations.ConversionOfTheEnds : Prop :=
  ∀ mid : Half, mid ≠ 0#16 → conv NUM.binary32 mid.toNat 0#16 = 0xBF800000#32 ∧ conv NUM.binary32 mid.toNat mid = 0x00000000#32

/-- R164: the maximum search never ends at a NaN or a negative value, and no magnitude is above its result. -/
def Obligations.MaximumSearch : Prop :=
  ∀ xs : List Word,
    NUM.isNaN (maxMagnitude xs) = false ∧ NUM.sign (maxMagnitude xs) = false ∧
    (maxMagnitude xs = 0x00000000#32 ∨ maxMagnitude xs ∈ xs) ∧ ∀ x ∈ xs, NUM.fgt x (maxMagnitude xs) = false

/-- R165, for NUM = binary32: every code is in [0, MAXOUT], and a normalized value of at least 1.0 gives exactly MAXOUT. -/
def Obligations.QuantizedCodeBound : Prop :=
  ∀ (outBits : Nat) (m x : Word), 1 ≤ outBits → outBits ≤ 16 →
    (quantize NUM.binary32 (2 ^ outBits - 1) m x).toNat ≤ 2 ^ outBits - 1 ∧
    (NUM.fdiv x m = 0x3F800000#32 → (quantize NUM.binary32 (2 ^ outBits - 1) m x).toNat = 2 ^ outBits - 1)

/-- R167, for NUM = binary32: when every magnitude is finite and the maximum is not below MAG_EPS, each bin that has the
maximum gets exactly MAXOUT. -/
def Obligations.MaximumBinGetsMaxout : Prop :=
  ∀ (outBits : Nat) (eps : Word) (xs : List Word), 1 ≤ outBits → outBits ≤ 16 →
    0 < eps.toNat → eps.toNat < 0x7F800000 → (∀ x ∈ xs, NUM.isFinite x = true ∧ NUM.sign x = false) →
    NUM.flt (maxMagnitude xs) eps = false →
    ∀ x ∈ xs, x = maxMagnitude xs →
      (quantize NUM.binary32 (2 ^ outBits - 1) (divisor eps xs) x).toNat = 2 ^ outBits - 1

/-- R116, R129, R130, R131: every entry that its enclosure settles (log entry 11) is the binary32 value nearest to the exact
formula, ties to even, +0.0 for an exact zero; R117, R132: the exact entries TWID[0] and TWID[N/4] for every N, the
rectangular window, the first entry of the others, and the symmetry of every window. -/
def Obligations.TableEntries : Prop :=
  ∀ n : Nat, 2 ≤ n →
    (∀ k, k < n / 2 →
      ((NUM.settle (NUM.cosTurn k n) 1).isSome = true →
        IsRounding (NUM.twiddle n k).re (Real.cos (2 * Real.pi * k / n) * 2 ^ 149) ∧
        (Real.cos (2 * Real.pi * k / n) = 0 → (NUM.twiddle n k).re = 0x00000000#32)) ∧
      ((NUM.settle (NUM.minusSinTurn k n) 1).isSome = true →
        IsRounding (NUM.twiddle n k).im (-Real.sin (2 * Real.pi * k / n) * 2 ^ 149) ∧
        (Real.sin (2 * Real.pi * k / n) = 0 → (NUM.twiddle n k).im = 0x00000000#32))) ∧
    (∀ kind i, kind ≤ 4 → i < n → (NUM.settle (NUM.windowFix kind n i) 100000).isSome = true →
      IsRounding (NUM.window kind n i) (windowFormula kind (2 * Real.pi * i / (n - 1 : Nat)) * 2 ^ 149) ∧
      (windowFormula kind (2 * Real.pi * i / (n - 1 : Nat)) = 0 → NUM.window kind n i = 0x00000000#32)) ∧
    NUM.twiddle n 0 = ⟨0x3F800000#32, 0x00000000#32⟩ ∧
    (n % 4 = 0 → NUM.twiddle n (n / 4) = ⟨0x00000000#32, 0xBF800000#32⟩) ∧
    (∀ i, i < n → NUM.window 0 n i = 0x3F800000#32) ∧
    (∀ kind i, kind ≤ 4 → i < n → (NUM.settle (NUM.windowFix kind n i) 100000).isSome = true →
      NUM.window kind n i = NUM.window kind n (n - 1 - i)) ∧
    (NUM.window 1 n 0 = 0x00000000#32 ∧ NUM.window 2 n 0 = 0x3D9D1F60#32 ∧ NUM.window 3 n 0 = 0x00000000#32 ∧
      NUM.window 4 n 0 = 0x387BA882#32)

/-- R116, R130 (log entry 11): the fixed-point enclosure encloses the exact cosine of a rational part of a turn, so a table
entry that both ends of it round to is the correctly rounded one. -/
def Obligations.CosineIsEnclosed : Prop :=
  ∀ a b : Nat, 0 < b → a ≤ b →
    ((NUM.cosTurn a b).1 : ℝ) ≤ Real.cos (2 * Real.pi * a / b) * 2 ^ 128 ∧
    Real.cos (2 * Real.pi * a / b) * 2 ^ 128 ≤ ((NUM.cosTurn a b).2 : ℝ)

/-- R7, R15: the record NUM of the default build is IEEE binary32. R14: each primitive of finite operands gives the rounding
to nearest even of the exact sum, difference, product, quotient or square root, in units of 2^-149, and the comparisons order
non-NaN values as the numbers they stand for, an infinity beyond every finite value (the overflow threshold and the order of
the infinities are PRESUMED, log entry 12). -/
def Obligations.PrimitivesRoundTheExactResult : Prop :=
  (∀ s : State, s.build.num = .binary32 → s.num.fadd = NUM.fadd ∧ s.num.fsub = NUM.fsub ∧ s.num.fmul = NUM.fmul ∧
    s.num.fdiv = NUM.fdiv ∧ s.num.fsqrt = NUM.fsqrt ∧ s.num.twiddle = NUM.twiddle ∧ s.num.window = NUM.window) ∧
  State.reset.build.num = .binary32 ∧
  (∀ x y : Word, NUM.isFinite x = true → NUM.isFinite y = true →
    IsRounding (NUM.fadd x y) ((NUM.signedUnits x : ℝ) + NUM.signedUnits y) ∧
    IsRounding (NUM.fsub x y) ((NUM.signedUnits x : ℝ) - NUM.signedUnits y) ∧
    IsRounding (NUM.fmul x y) ((NUM.signedUnits x : ℝ) * NUM.signedUnits y / 2 ^ 149) ∧
    (NUM.isZero y = false → IsRounding (NUM.fdiv x y) ((NUM.signedUnits x : ℝ) * 2 ^ 149 / NUM.signedUnits y)) ∧
    (0 ≤ NUM.signedUnits x → IsRounding (NUM.fsqrt x) √((NUM.signedUnits x : ℝ) * 2 ^ 149)) ∧
    (NUM.fgt x y = true ↔ NUM.signedUnits y < NUM.signedUnits x)) ∧
  (∀ x y : Word, NUM.isNaN x = false → NUM.isNaN y = false → NUM.isInf x = true ∨ NUM.isInf y = true →
    (NUM.fgt x y = true ↔ x ≠ y ∧ (x = 0x7F800000#32 ∨ y = 0xFF800000#32))) ∧
  (∀ x y : Word, NUM.flt x y = NUM.fgt y x)
end

