-- ==== Sys2Proof/Laws/Cosine.lean ====
section
/-! SUPPORT. The fixed-point enclosure of the cosine of up to a quarter turn (log entry 11): the constant `piFix`, the
truncation errors of `cosSeries`, and the enclosure of `cosQuarter`. -/

namespace Sys2Proof.Laws.Cosine

open Sys2Proof.NUM

open Finset in
/-- Even and odd partial sums of the arctangent series enclose it. -/
theorem arctan_between {x : ℝ} (h0 : 0 < x) (h1 : x < 1) (k : ℕ) :
    ∑ i ∈ range (2 * k), (-1) ^ i * (x ^ (2 * i + 1) / (2 * i + 1 : ℕ)) ≤ Real.arctan x ∧
    Real.arctan x ≤ ∑ i ∈ range (2 * k + 1), (-1) ^ i * (x ^ (2 * i + 1) / (2 * i + 1 : ℕ)) := by
  have hs := Real.hasSum_arctan (x := x) (by rw [Real.norm_eq_abs, abs_of_pos h0]; exact h1)
  have ht := hs.tendsto_sum_nat
  have ht' : Filter.Tendsto (fun n ↦ ∑ i ∈ range n, (-1 : ℝ) ^ i * (x ^ (2 * i + 1) / (2 * i + 1 : ℕ))) Filter.atTop
      (nhds (Real.arctan x)) := by
    refine ht.congr fun n => sum_congr rfl fun i _ => ?_
    push_cast
    ring
  have ha : Antitone fun i : ℕ => x ^ (2 * i + 1) / ((2 * i + 1 : ℕ) : ℝ) := by
    refine antitone_nat_of_succ_le fun n => ?_
    have h2 : x ^ (2 * (n + 1) + 1) ≤ x ^ (2 * n + 1) := pow_le_pow_of_le_one h0.le h1.le (by omega)
    gcongr
    omega
  exact ⟨ha.alternating_series_le_tendsto ht' k, ha.tendsto_le_alternating_series ht' k⟩

/-- `piFix` is the floor of pi * 2^128, by Machin's formula. -/
theorem piFix_bounds : (piFix : ℝ) / 2 ^ 128 ≤ Real.pi ∧ Real.pi ≤ ((piFix : ℝ) + 1) / 2 ^ 128 := by
  have hm := Real.four_mul_arctan_inv_5_sub_arctan_inv_239
  have h5 := arctan_between (x := 5⁻¹) (by norm_num) (by norm_num) 15
  have h239 := arctan_between (x := 239⁻¹) (by norm_num) (by norm_num) 5
  norm_num [Finset.sum_range_succ] at h5 h239
  have hp : Real.pi = 4 * (4 * Real.arctan 5⁻¹ - Real.arctan 239⁻¹) := by linarith
  simp only [piFix]
  constructor
  · rw [hp]; norm_num at *; linarith [h5.1, h239.2]
  · rw [hp]; norm_num at *; linarith [h5.2, h239.1]

/-- cos changes at most half as fast as the square of its argument. -/
theorem cos_sub_le {u v : ℝ} : |Real.cos u - Real.cos v| ≤ |u ^ 2 - v ^ 2| / 2 := by
  rw [Real.cos_sub_cos, abs_mul, abs_mul]
  have h1 := Real.abs_sin_le_abs (x := (u + v) / 2)
  have h2 := Real.abs_sin_le_abs (x := (u - v) / 2)
  have h3 : |u ^ 2 - v ^ 2| / 2 = 2 * (|(u + v) / 2| * |(u - v) / 2|) := by
    rw [← abs_mul, show (u + v) / 2 * ((u - v) / 2) = (u ^ 2 - v ^ 2) / 4 by ring, abs_div]
    norm_num
    linarith
  rw [h3, show |(-2 : ℝ)| = 2 by norm_num, mul_assoc]
  gcongr

/-- The exact terms of the series, scaled by 2^128. -/
noncomputable def term (y2 : ℝ) (k : ℕ) : ℝ := 2 ^ 128 * (y2 ^ k / ((2 * k).factorial : ℝ))

/-- Each term from the one before. -/
theorem term_succ (y2 : ℝ) (k : ℕ) : term y2 (k + 1) = term y2 k * y2 / ((2 * k + 1) * (2 * k + 2) : ℕ) := by
  unfold term
  rw [show 2 * (k + 1) = 2 * k + 1 + 1 by ring, Nat.factorial_succ, Nat.factorial_succ]
  have := Nat.factorial_pos (2 * k)
  push_cast
  field_simp
  ring

/-- The truncation errors of the loop. -/
theorem cosSeries_error (x2 : ℕ) (hx : x2 < 5 * 2 ^ 127) : ∀ (fuel k t pos sub : ℕ),
    (t : ℝ) ≤ term (x2 / 2 ^ 128) k → term (x2 / 2 ^ 128) k ≤ t + 2 → (k = 0 → term (x2 / 2 ^ 128) k = t) →
    |(cosSeries x2 fuel k t pos sub : ℝ) -
      ((pos : ℝ) - sub + ∑ j ∈ Finset.range fuel, (-1) ^ (k + j) * term (x2 / 2 ^ 128) (k + j))| ≤ 2 * fuel := by
  intro fuel
  induction fuel with
  | zero => intro k t pos sub _ _ _; simp [cosSeries]
  | succ fuel ih =>
    intro k t pos sub h1 h2 h3
    set y2 : ℝ := (x2 : ℝ) / 2 ^ 128 with hy
    have hy0 : 0 ≤ y2 := by positivity
    have hy5 : y2 ≤ 5 / 2 := by
      rw [hy, div_le_iff₀ (by positivity)]
      have : (x2 : ℝ) ≤ 5 * 2 ^ 127 := by exact_mod_cast hx.le
      linarith
    set D : ℕ := (2 * k + 1) * (2 * k + 2) with hD
    have hD0 : 0 < D := by positivity
    have hD0' : (0 : ℝ) < D := by exact_mod_cast hD0
    set t' : ℕ := t * x2 / 2 ^ fixBits / D with ht'
    have e1 : t' = t * x2 / (2 ^ 128 * D) := by rw [ht', Nat.div_div_eq_div_mul]; rfl
    have lo : (t' : ℝ) ≤ t * y2 / D := by
      rw [e1]
      refine (Nat.cast_div_le).trans (le_of_eq ?_)
      rw [hy]; push_cast; field_simp; norm_num
    have hi : (t : ℝ) * y2 / D < t' + 1 := by
      have h := Nat.lt_div_mul_add (a := t * x2) (b := 2 ^ 128 * D) (by positivity)
      rw [← e1] at h
      have h' : (t : ℝ) * x2 < (t' * (2 ^ 128 * D) + 2 ^ 128 * D : ℝ) := by exact_mod_cast h
      rw [div_lt_iff₀ hD0', hy, ← mul_div_assoc, div_lt_iff₀ (by positivity)]
      linarith
    have hs := term_succ y2 k
    rw [← hD] at hs
    have n1 : (t' : ℝ) ≤ term y2 (k + 1) := by
      rw [hs]; refine lo.trans ?_; gcongr
    have n2 : term y2 (k + 1) ≤ t' + 2 := by
      rw [hs]
      rcases Nat.eq_zero_or_pos k with hk | hk
      · rw [h3 hk]; linarith
      · have hD12 : (12 : ℝ) ≤ D := by
          have : 12 ≤ D := by rw [hD]; nlinarith
          exact_mod_cast this
        have : term y2 k * y2 / D ≤ (t + 2) * y2 / D := by gcongr
        have h6 : 2 * y2 / D ≤ 1 := by
          rw [div_le_one hD0']; linarith
        have : ((t : ℝ) + 2) * y2 / D = t * y2 / D + 2 * y2 / D := by ring
        linarith
    have n3 : k + 1 = 0 → term y2 (k + 1) = t' := by simp
    have step : cosSeries x2 (fuel + 1) k t pos sub =
        if k % 2 = 0 then cosSeries x2 fuel (k + 1) t' (pos + t) sub else cosSeries x2 fuel (k + 1) t' pos (sub + t) := rfl
    rw [step, Finset.sum_range_succ']
    have shift : ∑ j ∈ Finset.range fuel, (-1 : ℝ) ^ (k + (j + 1)) * term y2 (k + (j + 1)) =
        ∑ j ∈ Finset.range fuel, (-1) ^ (k + 1 + j) * term y2 (k + 1 + j) :=
      Finset.sum_congr rfl fun j _ => by rw [show k + (j + 1) = k + 1 + j by ring]
    rw [shift]
    have ht : |(t : ℝ) - term y2 k| ≤ 2 := by rw [abs_le]; constructor <;> linarith
    have tri : ∀ (A B p : ℝ), |A - B| ≤ 2 * fuel → |p| ≤ 2 → |A - (B + p)| ≤ 2 * ((fuel : ℝ) + 1) := by
      intro A B p hA hp
      rw [abs_le] at *
      constructor <;> linarith
    push_cast
    split_ifs with hk
    · have he : (-1 : ℝ) ^ (k + 0) = 1 := by rw [Nat.add_zero]; exact Even.neg_one_pow (Nat.even_iff.mpr hk)
      have h := ih (k + 1) t' (pos + t) sub n1 n2 n3
      rw [he, Nat.add_zero]
      push_cast at h
      convert tri _ _ (term y2 k - t) h (by rw [abs_sub_comm]; exact ht) using 2
      ring_nf
    · have he : (-1 : ℝ) ^ (k + 0) = -1 := by
        rw [Nat.add_zero]; exact Odd.neg_one_pow (Nat.odd_iff.mpr (by omega))
      have h := ih (k + 1) t' pos (sub + t) n1 n2 n3
      rw [he, Nat.add_zero]
      push_cast at h
      convert tri _ _ (t - term y2 k) h ht using 2
      ring_nf

/-- Thirty-two terms of the cosine series. -/
theorem cos_tail {y : ℝ} (h : y ^ 2 ≤ 5 / 2) :
    |2 ^ 128 * Real.cos y - ∑ j ∈ Finset.range 32, (-1) ^ j * term (y ^ 2) j| ≤ 1 := by
  have hs := (Real.hasSum_cos y).tendsto_sum_nat
  -- from the second term on the terms fall
  let g : ℕ → ℝ := fun n => term (y ^ 2) (n + 1)
  have hg0 : ∀ n, 0 ≤ term (y ^ 2) n := fun n => by unfold term; positivity
  have ha : Antitone g := by
    refine antitone_nat_of_succ_le fun n => ?_
    show term (y ^ 2) (n + 1 + 1) ≤ term (y ^ 2) (n + 1)
    rw [term_succ]
    rw [div_le_iff₀ (by positivity)]
    have : (5 / 2 : ℝ) ≤ ((2 * (n + 1) + 1) * (2 * (n + 1) + 2) : ℕ) := by
      have : (12 : ℕ) ≤ (2 * (n + 1) + 1) * (2 * (n + 1) + 2) := by nlinarith
      have : (12 : ℝ) ≤ ((2 * (n + 1) + 1) * (2 * (n + 1) + 2) : ℕ) := by exact_mod_cast this
      linarith
    exact mul_le_mul_of_nonneg_left (h.trans this) (hg0 _)
  have hsum : ∀ n, ∑ j ∈ Finset.range (n + 1), (-1 : ℝ) ^ j * term (y ^ 2) j =
      2 ^ 128 - ∑ i ∈ Finset.range n, (-1) ^ i * g i := by
    intro n
    rw [Finset.sum_range_succ', show term (y ^ 2) 0 = 2 ^ 128 by simp [term]]
    have : ∑ i ∈ Finset.range n, (-1 : ℝ) ^ (i + 1) * term (y ^ 2) (i + 1) = -∑ i ∈ Finset.range n, (-1) ^ i * g i := by
      rw [← Finset.sum_neg_distrib]
      exact Finset.sum_congr rfl fun i _ => by rw [pow_succ]; ring
    rw [this]
    ring
  have hlim : Filter.Tendsto (fun n => ∑ i ∈ Finset.range n, (-1) ^ i * g i) Filter.atTop
      (nhds (2 ^ 128 - 2 ^ 128 * Real.cos y)) := by
    have h1 : Filter.Tendsto (fun n => 2 ^ 128 - 2 ^ 128 * ∑ j ∈ Finset.range (n + 1),
        ((-1 : ℝ) ^ j * y ^ (2 * j) / ((2 * j).factorial : ℝ))) Filter.atTop (nhds (2 ^ 128 - 2 ^ 128 * Real.cos y)) :=
      ((hs.comp (Filter.tendsto_add_atTop_nat 1)).const_mul _).const_sub _
    refine h1.congr fun n => ?_
    have h2 : 2 ^ 128 * ∑ j ∈ Finset.range (n + 1), ((-1 : ℝ) ^ j * y ^ (2 * j) / ((2 * j).factorial : ℝ)) =
        ∑ j ∈ Finset.range (n + 1), (-1 : ℝ) ^ j * term (y ^ 2) j := by
      rw [Finset.mul_sum]
      refine Finset.sum_congr rfl fun j _ => ?_
      unfold term
      rw [← pow_mul]
      ring
    rw [h2, hsum n]; ring
  have lower := ha.alternating_series_le_tendsto hlim 16
  have upper := ha.tendsto_le_alternating_series hlim 15
  have hu : ∑ i ∈ Finset.range (2 * 16), (-1 : ℝ) ^ i * g i = ∑ i ∈ Finset.range 31, (-1 : ℝ) ^ i * g i - g 31 := by
    rw [show 2 * 16 = 31 + 1 by rfl, Finset.sum_range_succ]
    norm_num
    linarith
  have hg31 : g 31 ≤ 1 := by
    show term (y ^ 2) 32 ≤ 1
    unfold term
    have h1 : (y ^ 2) ^ 32 ≤ (5 / 2) ^ 32 := pow_le_pow_left₀ (sq_nonneg y) h 32
    have h2 : (2 : ℝ) ^ 128 * ((5 / 2) ^ 32 / ((2 * 32).factorial : ℝ)) ≤ 1 := by
      norm_num [Nat.factorial]
    refine le_trans ?_ h2
    gcongr
  rw [hsum 31]
  rw [hu] at lower
  rw [show 2 * 15 + 1 = 31 by rfl] at upper
  rw [abs_le]
  constructor <;> linarith

/-- The enclosure of `cosQuarter` contains the exact cosine. -/
theorem cosQuarter_encloses {a b : ℕ} (hb : 0 < b) (h : 4 * a ≤ b) :
    ((cosQuarter a b).1 : ℝ) ≤ Real.cos (2 * Real.pi * a / b) * 2 ^ 128 ∧
    Real.cos (2 * Real.pi * a / b) * 2 ^ 128 ≤ ((cosQuarter a b).2 : ℝ) := by
  have hb' : (0 : ℝ) < b := by exact_mod_cast hb
  unfold cosQuarter
  split_ifs with h0 h1
  · subst h0
    norm_num [fixBits]
  · have : 2 * Real.pi * a / b = Real.pi / 2 := by
      have : (b : ℝ) = 4 * a := by exact_mod_cast h1.symm
      rw [this]
      have : (a : ℝ) ≠ 0 := by exact_mod_cast h0
      field_simp; norm_num
    rw [this, Real.cos_pi_div_two]
    norm_num
  · have ⟨p1, p2⟩ := piFix_bounds
    set θ : ℝ := 2 * Real.pi * a / b with hθ
    set x : ℕ := 2 * piFix * a / b with hx
    set x2 : ℕ := x * x / 2 ^ fixBits with hx2
    have hab : (a : ℝ) / b ≤ 1 / 4 := by
      rw [div_le_div_iff₀ hb' (by norm_num)]
      have : (4 * a : ℝ) ≤ b := by exact_mod_cast h
      linarith
    have ha0 : (0 : ℝ) ≤ (a : ℝ) / b := by positivity
    have hθ' : θ = 2 * Real.pi * ((a : ℝ) / b) := by rw [hθ]; ring
    have xlo : (x : ℝ) ≤ 2 * piFix * ((a : ℝ) / b) := by
      rw [hx]
      refine Nat.cast_div_le.trans (le_of_eq ?_)
      push_cast; ring
    have xhi : 2 * piFix * ((a : ℝ) / b) < x + 1 := by
      have h := Nat.lt_div_mul_add (a := 2 * piFix * a) (b := b) hb
      rw [← hx] at h
      have h' : (2 * piFix * a : ℝ) < x * b + b := by exact_mod_cast h
      rw [← mul_div_assoc, div_lt_iff₀ hb']
      linarith
    have q1 : (piFix : ℝ) ≤ Real.pi * 2 ^ 128 := by rwa [div_le_iff₀ (by positivity)] at p1
    have q2 : Real.pi * 2 ^ 128 ≤ piFix + 1 := by rwa [le_div_iff₀ (by positivity)] at p2
    -- the angle in units of 2^-128
    have e1 : θ * 2 ^ 128 = 2 * (Real.pi * 2 ^ 128) * ((a : ℝ) / b) := by rw [hθ']; ring
    have t1 : (x : ℝ) ≤ θ * 2 ^ 128 := by
      rw [e1]
      exact xlo.trans (by gcongr)
    have t2 : θ * 2 ^ 128 ≤ x + 2 := by
      have : 2 * (Real.pi * 2 ^ 128) * ((a : ℝ) / b) ≤ 2 * (piFix + 1) * ((a : ℝ) / b) := by gcongr
      rw [e1]
      linarith
    have hxb : x ≤ 534514292032483373929840186580935391650 := by
      have h1 : (x : ℝ) ≤ piFix / 2 := by
        have := mul_le_mul_of_nonneg_left hab (show (0 : ℝ) ≤ 2 * piFix by positivity)
        linarith
      have h2 : 2 * x ≤ piFix := by
        have : (2 * x : ℝ) ≤ piFix := by linarith
        exact_mod_cast this
      have : piFix = 2 * 534514292032483373929840186580935391650 := by decide
      omega
    have hx2b : x2 < 5 * 2 ^ 127 := by
      rw [hx2, Nat.div_lt_iff_lt_mul (by decide)]
      calc x * x ≤ 534514292032483373929840186580935391650 * 534514292032483373929840186580935391650 := Nat.mul_le_mul hxb hxb
        _ < _ := by decide
    have z1 : (x2 : ℝ) / 2 ^ 128 ≤ ((x : ℝ) / 2 ^ 128) ^ 2 := by
      have h1 : (x2 : ℝ) ≤ x * x / 2 ^ 128 := by
        calc (x2 : ℝ) ≤ ((x * x : ℕ) : ℝ) / ((2 ^ fixBits : ℕ) : ℝ) := by rw [hx2]; exact Nat.cast_div_le
          _ = x * x / 2 ^ 128 := by norm_num [fixBits]
      calc (x2 : ℝ) / 2 ^ 128 ≤ (x * x / 2 ^ 128) / 2 ^ 128 := by gcongr
        _ = _ := by ring
    have z2 : ((x : ℝ) / 2 ^ 128) ^ 2 ≤ (x2 : ℝ) / 2 ^ 128 + 1 / 2 ^ 128 := by
      have h1 := Nat.lt_div_mul_add (a := x * x) (b := 2 ^ fixBits) (by decide)
      rw [← hx2] at h1
      have h2 : (x * x : ℝ) ≤ x2 * 2 ^ 128 + 2 ^ 128 := by exact_mod_cast h1.le
      rw [← add_div, le_div_iff₀ (by positivity), div_pow, div_mul_eq_mul_div, div_le_iff₀ (by positivity)]
      nlinarith
    set y : ℝ := √((x2 : ℝ) / 2 ^ 128) with hy
    have hy2 : y ^ 2 = (x2 : ℝ) / 2 ^ 128 := Real.sq_sqrt (by positivity)
    have hy5 : y ^ 2 ≤ 5 / 2 := by
      rw [hy2, div_le_iff₀ (by positivity)]
      have : (x2 : ℝ) ≤ 5 * 2 ^ 127 := by exact_mod_cast hx2b.le
      linarith
    have s1 := cosSeries_error x2 hx2b 32 0 (2 ^ fixBits) 0 0 (by norm_num [term, fixBits])
      (by norm_num [term, fixBits]) (by norm_num [term, fixBits])
    have s2 := cos_tail hy5
    have s3 := cos_sub_le (u := y) (v := θ)
    simp only [Nat.zero_add, ← hy2] at s1
    set c : ℤ := cosSeries x2 32 0 (2 ^ fixBits) 0 0 with hc
    set S : ℝ := ∑ j ∈ Finset.range 32, (-1 : ℝ) ^ j * term (y ^ 2) j
    have s1' : |(c : ℝ) - S| ≤ 64 := by
      have : ((0 : ℕ) : ℝ) - (0 : ℕ) + S = S := by simp
      rw [this] at s1
      refine s1.trans (by norm_num)
    -- the argument of the series against the angle
    set X : ℝ := (x : ℝ) / 2 ^ 128 with hX
    have w1 : X ≤ θ := by rw [hX, div_le_iff₀ (by positivity)]; exact t1
    have w2 : θ ≤ X + 2 / 2 ^ 128 := by
      rw [hX, ← add_div, le_div_iff₀ (by positivity)]; exact t2
    have w3 : 0 ≤ X := by positivity
    have w4 : θ ≤ 2 := by
      have := mul_le_mul_of_nonneg_left hab (show (0 : ℝ) ≤ 2 * Real.pi by positivity)
      rw [hθ']
      linarith [Real.pi_lt_four]
    have s4 : |y ^ 2 - θ ^ 2| ≤ 9 / 2 ^ 128 := by
      have e : θ ^ 2 - X ^ 2 ≤ 8 / 2 ^ 128 := by
        have : θ ^ 2 - X ^ 2 = (θ - X) * (θ + X) := by ring
        rw [this]
        calc (θ - X) * (θ + X) ≤ (2 / 2 ^ 128) * 4 := by
              exact mul_le_mul (by linarith) (by linarith) (by linarith) (by positivity)
          _ = 8 / 2 ^ 128 := by ring
      have e2 : X ^ 2 ≤ θ ^ 2 := by gcongr
      rw [hy2, abs_le]
      have : (9 : ℝ) / 2 ^ 128 = 8 / 2 ^ 128 + 1 / 2 ^ 128 := by ring
      have p : (0 : ℝ) ≤ 9 / 2 ^ 128 := by positivity
      constructor <;> linarith
    have s5 : |2 ^ 128 * Real.cos y - Real.cos θ * 2 ^ 128| ≤ 5 := by
      rw [mul_comm (Real.cos θ), ← mul_sub, abs_mul, abs_of_pos (by positivity : (0 : ℝ) < 2 ^ 128)]
      calc (2 : ℝ) ^ 128 * |Real.cos y - Real.cos θ| ≤ 2 ^ 128 * (9 / 2 ^ 128 / 2) := by gcongr; linarith
        _ ≤ 5 := by norm_num
    rw [abs_le] at s1' s2 s5
    have f : ((fixSlack : ℕ) : ℝ) = 4096 := by norm_num [fixSlack]
    show ((c - (fixSlack : ℕ) : ℤ) : ℝ) ≤ _ ∧ _ ≤ ((c + (fixSlack : ℕ) : ℤ) : ℝ)
    push_cast
    rw [f]
    constructor <;> linarith [s1'.1, s1'.2, s2.1, s2.2, s5.1, s5.2]

end Sys2Proof.Laws.Cosine
end

