-- ==== Sys2Proof/Laws/Memory.lean ====
section
/-! SUPPORT. What the memory operations do, said once: the byte an offset holds after a write, the element or component a
write leaves at its place, and that every operation keeps the canonical form. -/

namespace Sys2Proof.Machine

/-! ### Bytes under filter, append and splice -/

@[simp] theorem Memory.byte?_nil (x : Nat) : Memory.byte? [] x = none := rfl

theorem Memory.byte?_cons (c : Host.Cell) (m : Memory) (x : Nat) :
    Memory.byte? (c :: m) x = if c.1 = x then some c.2 else Memory.byte? m x := rfl

/-- A filter on offsets keeps the bytes of the offsets it keeps and no other. -/
theorem Memory.byte?_filter (p : Nat → Bool) (m : Memory) (x : Nat) :
    Memory.byte? (m.filter fun c => p c.1) x = if p x then Memory.byte? m x else none := by
  induction m with
  | nil => simp
  | cons c m ih =>
    by_cases hc : p c.1 <;> by_cases hx : c.1 = x
    · subst hx; simp [hc, Memory.byte?_cons]
    · simp [hc, Memory.byte?_cons, hx, ih]
    · subst hx; simp [hc, ih]
    · simp [hc, Memory.byte?_cons, hx, ih]

/-- An append is read from its first part first. -/
theorem Memory.byte?_append (l r : Memory) (x : Nat) :
    Memory.byte? (l ++ r) x = (Memory.byte? l x).or (Memory.byte? r x) := by
  induction l with
  | nil => simp
  | cons c l ih => by_cases h : c.1 = x <;> simp [Memory.byte?_cons, h, ih]

/-- Offsets that are no key have no byte. -/
theorem Memory.byte?_eq_none (m : Memory) (x : Nat) (h : ∀ c ∈ m, c.1 ≠ x) : Memory.byte? m x = none := by
  induction m with
  | nil => rfl
  | cons c m ih =>
    rw [Memory.byte?_cons, if_neg (h c (by simp)), ih fun d hd => h d (by simp [hd])]

/-- The spec of the one write operation: inside [lo, hi) the new cells, outside it the old ones. -/
theorem Memory.byte?_splice (m : Memory) (lo hi : Nat) (new : List Host.Cell) (hle : lo ≤ hi)
    (hnew : ∀ c ∈ new, lo ≤ c.1 ∧ c.1 < hi) (x : Nat) :
    (m.splice lo hi new).byte? x = if lo ≤ x ∧ x < hi then Memory.byte? new x else m.byte? x := by
  have hl := Memory.byte?_filter (fun a => decide (a < lo)) m x
  have hr := Memory.byte?_filter (fun a => decide (hi ≤ a)) m x
  unfold Memory.splice
  rw [Memory.byte?_append, Memory.byte?_append, hl, hr]
  by_cases h1 : x < lo
  · have : Memory.byte? new x = none := Memory.byte?_eq_none new x fun c hc => by have := hnew c hc; omega
    have h2 : ¬ hi ≤ x := by omega
    have h3 : ¬ (lo ≤ x ∧ x < hi) := by omega
    simp [h1, h2, h3, this]
  · by_cases h2 : x < hi
    · have h3 : ¬ hi ≤ x := by omega
      have h4 : lo ≤ x := by omega
      simp [h1, h2, h3, h4]
    · have : Memory.byte? new x = none := Memory.byte?_eq_none new x fun c hc => by have := hnew c hc; omega
      have h3 : hi ≤ x := by omega
      simp [h1, h2, h3, this]

/-! ### The canonical form -/

theorem Memory.wf_nil : Memory.wf [] := by simp

/-- A splice of rising cells inside [lo, hi) keeps the canonical form. -/
theorem Memory.wf_splice {m : Memory} {lo hi : Nat} {new : List Host.Cell} (hm : m.wf) (hle : lo ≤ hi)
    (hnew : ∀ c ∈ new, lo ≤ c.1 ∧ c.1 < hi) (hw : Memory.wf new) : (m.splice lo hi new).wf := by
  unfold Memory.splice Memory.wf
  rw [List.pairwise_append, List.pairwise_append]
  refine ⟨⟨hm.filter _, hw, ?_⟩, hm.filter _, ?_⟩
  · intro c hc d hd
    have h1 : c.1 < lo := by simpa using (List.mem_filter.mp hc).2
    have := hnew d hd
    omega
  · intro c hc d hd
    have h2 : hi ≤ d.1 := by simpa using (List.mem_filter.mp hd).2
    rcases List.mem_append.mp hc with h | h
    · have h1 : c.1 < lo := by simpa using (List.mem_filter.mp h).2
      omega
    · have := hnew c h
      omega

/-! ### The cells of components and of 16-bit elements -/

theorem wordCells_range (o : Nat) (ws : List Word) :
    ∀ c ∈ wordCells o ws, o ≤ c.1 ∧ c.1 < o + 4 * ws.length := by
  induction ws generalizing o with
  | nil => simp [wordCells]
  | cons w ws ih =>
    intro c hc
    simp only [wordCells, List.mem_cons] at hc
    rcases hc with rfl | rfl | rfl | rfl | hc
    all_goals first
      | (have := ih (o + 4) c hc; simp only [List.length_cons]; omega)
      | (simp only [List.length_cons]; omega)

theorem halfCells_range (o : Nat) (hs : List Half) :
    ∀ c ∈ halfCells o hs, o ≤ c.1 ∧ c.1 < o + 4 * hs.length := by
  induction hs generalizing o with
  | nil => simp [halfCells]
  | cons w ws ih =>
    intro c hc
    simp only [halfCells, List.mem_cons] at hc
    rcases hc with rfl | rfl | hc
    all_goals first
      | (have := ih (o + 4) c hc; simp only [List.length_cons]; omega)
      | (simp only [List.length_cons]; omega)

theorem wordCells_wf (o : Nat) (ws : List Word) : Memory.wf (wordCells o ws) := by
  induction ws generalizing o with
  | nil => simp [wordCells]
  | cons w ws ih =>
    have h := wordCells_range (o + 4) ws
    simp only [wordCells, List.pairwise_cons, List.mem_cons]
    refine ⟨fun c hc => ?_, fun c hc => ?_, fun c hc => ?_, fun c hc => ?_, ih (o + 4)⟩
    · rcases hc with rfl | rfl | rfl | hc
      iterate 3 omega
      have := h c hc; omega
    · rcases hc with rfl | rfl | hc
      iterate 2 omega
      have := h c hc; omega
    · rcases hc with rfl | hc
      · omega
      · have := h c hc; omega
    · have := h c hc; omega

theorem halfCells_wf (o : Nat) (hs : List Half) : Memory.wf (halfCells o hs) := by
  induction hs generalizing o with
  | nil => simp [halfCells]
  | cons w ws ih =>
    have h := halfCells_range (o + 4) ws
    simp only [halfCells, List.pairwise_cons, List.mem_cons]
    refine ⟨?_, ?_, ih (o + 4)⟩
    · rintro c (rfl | hc)
      · omega
      · have := h c hc; omega
    · rintro c hc
      have := h c hc; omega

/-- Writing components keeps the canonical form. -/
theorem Memory.wf_writeWords {m : Memory} (hm : m.wf) (o : Nat) (ws : List Word) : (m.writeWords o ws).wf :=
  Memory.wf_splice hm (by omega) (wordCells_range o ws) (wordCells_wf o ws)

/-- Writing 16-bit elements keeps the canonical form. -/
theorem Memory.wf_writeHalves {m : Memory} (hm : m.wf) (o : Nat) (hs : List Half) : (m.writeHalves o hs).wf :=
  Memory.wf_splice hm (by omega) (halfCells_range o hs) (halfCells_wf o hs)

/-- Writing complex elements keeps the canonical form. -/
theorem Memory.wf_writeComplexes {m : Memory} (hm : m.wf) (w : Window) (xs : List ComplexValue) :
    (m.writeComplexes w xs).wf :=
  Memory.wf_writeWords hm _ _

/-- Reset's memory lists nothing. -/
theorem reset_mem_wf : State.reset.mem.wf := Memory.wf_nil

/-! ### What a write leaves -/

/-- A component write leaves every byte outside the written components alone. -/
theorem Memory.byte?_writeWords_of_outside (m : Memory) (o : Nat) (ws : List Word) (x : Nat)
    (h : x < o ∨ o + 4 * ws.length ≤ x) : (m.writeWords o ws).byte? x = m.byte? x := by
  unfold Memory.writeWords
  rw [Memory.byte?_splice m _ _ _ (by omega) (wordCells_range o ws), if_neg (by omega)]

/-- A write of 16-bit elements leaves every byte outside the written range alone. -/
theorem Memory.byte?_writeHalves_of_outside (m : Memory) (o : Nat) (hs : List Half) (x : Nat)
    (h : x < o ∨ o + 4 * hs.length ≤ x) : (m.writeHalves o hs).byte? x = m.byte? x := by
  unfold Memory.writeHalves
  rw [Memory.byte?_splice m _ _ _ (by omega) (halfCells_range o hs), if_neg (by omega)]

/-- Byte k of component i of a component list. -/
theorem wordCells_byte? (o : Nat) (ws : List Word) (i k : Nat) (hi : i < ws.length) (hk : k < 4) :
    Memory.byte? (wordCells o ws) (o + 4 * i + k) = some (byteOf ws[i] k) := by
  induction ws generalizing o i with
  | nil => simp at hi
  | cons w ws ih =>
    cases i with
    | zero =>
      have : k = 0 ∨ k = 1 ∨ k = 2 ∨ k = 3 := by omega
      rcases this with rfl | rfl | rfl | rfl <;> simp [wordCells, Memory.byte?_cons]
    | succ i =>
      have h := ih (o + 4) i (by simpa using hi)
      have e : o + 4 * (i + 1) + k = o + 4 + 4 * i + k := by omega
      rw [e]
      simp only [wordCells, Memory.byte?_cons, List.getElem_cons_succ]
      rw [if_neg (by omega), if_neg (by omega), if_neg (by omega), if_neg (by omega), h]

/-- Byte k of 16-bit element i of an element list. -/
theorem halfCells_byte? (o : Nat) (hs : List Half) (i k : Nat) (hi : i < hs.length) (hk : k < 2) :
    Memory.byte? (halfCells o hs) (o + 4 * i + k) = some (hs[i].extractLsb' (8 * k) 8) := by
  induction hs generalizing o i with
  | nil => simp at hi
  | cons w ws ih =>
    cases i with
    | zero =>
      have : k = 0 ∨ k = 1 := by omega
      rcases this with rfl | rfl <;> simp [halfCells, Memory.byte?_cons]
    | succ i =>
      have h := ih (o + 4) i (by simpa using hi)
      have e : o + 4 * (i + 1) + k = o + 4 + 4 * i + k := by omega
      rw [e]
      simp only [halfCells, Memory.byte?_cons, List.getElem_cons_succ]
      rw [if_neg (by omega), if_neg (by omega), h]

/-- The bytes of a word put together give the word (R71). -/
theorem wordOfBytes_byteOf (w : Word) :
    wordOfBytes (byteOf w 0) (byteOf w 1) (byteOf w 2) (byteOf w 3) = w := by
  apply BitVec.eq_of_toNat_eq
  simp only [wordOfBytes, byteOf, BitVec.toNat_append, BitVec.extractLsb'_toNat]
  have h := w.isLt
  rw [← Nat.shiftLeft_add_eq_or_of_lt (by omega), ← Nat.shiftLeft_add_eq_or_of_lt (by omega),
    ← Nat.shiftLeft_add_eq_or_of_lt (by omega)]
  simp only [Nat.shiftLeft_eq, Nat.shiftRight_eq_div_pow]
  omega

/-- The two bytes of a code put together give the code. -/
theorem half_of_bytes (h : Half) : h.extractLsb' 8 8 ++ h.extractLsb' 0 8 = h := by
  apply BitVec.eq_of_toNat_eq
  simp only [BitVec.toNat_append, BitVec.extractLsb'_toNat]
  have hl := h.isLt
  rw [← Nat.shiftLeft_add_eq_or_of_lt (by omega)]
  simp only [Nat.shiftLeft_eq, Nat.shiftRight_eq_div_pow]
  omega

/-- A component write leaves the written component at its place. -/
theorem Memory.word?_writeWords (m : Memory) (o : Nat) (ws : List Word) (i : Nat) (hi : i < ws.length) :
    (m.writeWords o ws).word? (o + 4 * i) = some ws[i] := by
  have hb : ∀ k, k < 4 → (m.writeWords o ws).byte? (o + 4 * i + k) = some (byteOf ws[i] k) := by
    intro k hk
    unfold Memory.writeWords
    rw [Memory.byte?_splice m _ _ _ (by omega) (wordCells_range o ws), if_pos (by omega),
      wordCells_byte? o ws i k hi hk]
  have h0 := hb 0 (by omega)
  rw [Nat.add_zero] at h0
  unfold Memory.word?
  rw [h0, hb 1 (by omega), hb 2 (by omega), hb 3 (by omega)]
  simp only [wordOfBytes_byteOf]

/-- A write of 16-bit elements leaves the written element at its place. -/
theorem Memory.half?_writeHalves (m : Memory) (o : Nat) (hs : List Half) (i : Nat) (hi : i < hs.length) :
    (m.writeHalves o hs).half? (o + 4 * i) = some hs[i] := by
  have hb : ∀ k, k < 2 → (m.writeHalves o hs).byte? (o + 4 * i + k) = some (hs[i].extractLsb' (8 * k) 8) := by
    intro k hk
    unfold Memory.writeHalves
    rw [Memory.byte?_splice m _ _ _ (by omega) (halfCells_range o hs), if_pos (by omega),
      halfCells_byte? o hs i k hi hk]
  have h0 := hb 0 (by omega)
  rw [Nat.add_zero] at h0
  unfold Memory.half?
  rw [h0, hb 1 (by omega)]
  simp only [Nat.mul_zero, Nat.mul_one, half_of_bytes]

/-- A component is read from its four bytes only. -/
theorem Memory.word?_congr {m m' : Memory} {o : Nat} (h : ∀ x, o ≤ x → x < o + 4 → m.byte? x = m'.byte? x) :
    m.word? o = m'.word? o := by
  unfold Memory.word?
  rw [h o (by omega) (by omega), h (o + 1) (by omega) (by omega), h (o + 2) (by omega) (by omega),
    h (o + 3) (by omega) (by omega)]

/-- A 16-bit element is read from its two bytes only. -/
theorem Memory.half?_congr {m m' : Memory} {o : Nat} (h : ∀ x, o ≤ x → x < o + 2 → m.byte? x = m'.byte? x) :
    m.half? o = m'.half? o := by
  unfold Memory.half?
  rw [h o (by omega) (by omega), h (o + 1) (by omega) (by omega)]

/-! ### Lists of elements read back -/

theorem Memory.readWords_length (m : Memory) (o n c : Nat) : (m.readWords o n c).1.length = n := by
  induction n generalizing o c with
  | zero => rfl
  | succ n ih => simp [Memory.readWords, ih]

theorem Memory.readHalves_length (m : Memory) (o n c : Nat) : (m.readHalves o n c).1.length = n := by
  induction n generalizing o c with
  | zero => rfl
  | succ n ih => simp [Memory.readHalves, ih]

/-- A read of components gives what was written, whatever the draws for the others are. -/
theorem Memory.readWords_getElem (m : Memory) (o n c i : Nat) (w : Word) (hi : i < n)
    (h : m.word? (o + 4 * i) = some w) :
    (m.readWords o n c).1[i]'(by rw [Memory.readWords_length]; exact hi) = w := by
  induction n generalizing o c i with
  | zero => omega
  | succ n ih =>
    cases i with
    | zero =>
      rw [Nat.mul_zero, Nat.add_zero] at h
      simp [Memory.readWords, h, takeWord]
    | succ i =>
      have e : o + 4 * (i + 1) = o + 4 + 4 * i := by omega
      rw [e] at h
      simpa [Memory.readWords] using ih (o + 4) _ i (by omega) h

/-- A read of 16-bit elements gives what was written. -/
theorem Memory.readHalves_getElem (m : Memory) (o n c i : Nat) (w : Half) (hi : i < n)
    (h : m.half? (o + 4 * i) = some w) :
    (m.readHalves o n c).1[i]'(by rw [Memory.readHalves_length]; exact hi) = w := by
  induction n generalizing o c i with
  | zero => omega
  | succ n ih =>
    cases i with
    | zero =>
      rw [Nat.mul_zero, Nat.add_zero] at h
      simp [Memory.readHalves, h, takeHalf]
    | succ i =>
      have e : o + 4 * (i + 1) = o + 4 + 4 * i := by omega
      rw [e] at h
      simpa [Memory.readHalves] using ih (o + 4) _ i (by omega) h

/-- A read of written components takes no draw. -/
theorem Memory.readWords_draws (m : Memory) (o n c : Nat) (h : ∀ i < n, (m.word? (o + 4 * i)).isSome) :
    (m.readWords o n c).2 = c := by
  induction n generalizing o c with
  | zero => rfl
  | succ n ih =>
    have h0 := h 0 (by omega)
    rw [Nat.mul_zero, Nat.add_zero] at h0
    obtain ⟨w, hw⟩ := Option.isSome_iff_exists.mp h0
    have hr := ih (o + 4) c fun i hi => by
      have := h (i + 1) (by omega)
      rwa [show o + 4 * (i + 1) = o + 4 + 4 * i by omega] at this
    simp [Memory.readWords, hw, takeWord, hr]

/-- A read of written 16-bit elements takes no draw. -/
theorem Memory.readHalves_draws (m : Memory) (o n c : Nat) (h : ∀ i < n, (m.half? (o + 4 * i)).isSome) :
    (m.readHalves o n c).2 = c := by
  induction n generalizing o c with
  | zero => rfl
  | succ n ih =>
    have h0 := h 0 (by omega)
    rw [Nat.mul_zero, Nat.add_zero] at h0
    obtain ⟨w, hw⟩ := Option.isSome_iff_exists.mp h0
    have hr := ih (o + 4) c fun i hi => by
      have := h (i + 1) (by omega)
      rwa [show o + 4 * (i + 1) = o + 4 + 4 * i by omega] at this
    simp [Memory.readHalves, hw, takeHalf, hr]

/-! ### Complex elements -/

@[simp] theorem wordsOf_length (xs : List ComplexValue) : (wordsOf xs).length = 2 * xs.length := by
  induction xs with
  | nil => rfl
  | cons x xs ih => simp [wordsOf, ih]; omega

@[simp] theorem complexesOf_wordsOf (xs : List ComplexValue) : complexesOf (wordsOf xs) = xs := by
  induction xs with
  | nil => rfl
  | cons x xs ih => simp [wordsOf, complexesOf, ih]

theorem complexesOf_length (n : Nat) (ws : List Word) (h : ws.length = 2 * n) : (complexesOf ws).length = n := by
  induction n generalizing ws with
  | zero => cases ws with
    | nil => rfl
    | cons w ws => simp at h
  | succ n ih =>
    match ws, h with
    | a :: b :: ws, h =>
      simp only [complexesOf, List.length_cons]
      rw [ih ws (by simp only [List.length_cons] at h; omega)]
    | [_], h => simp at h; omega
    | [], h => simp at h

/-- The components of element i of a list of complex elements. -/
theorem wordsOf_getElem (xs : List ComplexValue) (i : Nat) (hi : i < xs.length) :
    (wordsOf xs)[2 * i]? = some xs[i].re ∧ (wordsOf xs)[2 * i + 1]? = some xs[i].im := by
  induction xs generalizing i with
  | nil => simp at hi
  | cons x xs ih =>
    cases i with
    | zero => simp [wordsOf]
    | succ i =>
      have h := ih i (by simpa using hi)
      have e : 2 * (i + 1) = 2 * i + 2 := by omega
      simp only [e, wordsOf, List.getElem_cons_succ]
      simpa using h

/-- Element i of the complex elements of a word list. -/
theorem complexesOf_getElem? (ws : List Word) (i : Nat) (a b : Word) (ha : ws[2 * i]? = some a)
    (hb : ws[2 * i + 1]? = some b) : (complexesOf ws)[i]? = some ⟨a, b⟩ := by
  induction i generalizing ws with
  | zero =>
    match ws with
    | x :: y :: ws => simp at ha hb; simp [complexesOf, ha, hb]
    | [_] => simp at hb
    | [] => simp at ha
  | succ i ih =>
    match ws with
    | x :: y :: ws =>
      have h := ih ws (by simpa [Nat.mul_add] using ha) (by simpa [Nat.mul_add] using hb)
      simpa [complexesOf] using h
    | [_] => simp [Nat.mul_add] at ha
    | [] => simp at ha

/-- A write of complex elements leaves both components of element i at their place. -/
theorem Memory.word?_writeComplexes (m : Memory) (w : Window) (xs : List ComplexValue) (i : Nat) (hi : i < xs.length) :
    (m.writeComplexes w xs).word? (w.base + 8 * i) = some xs[i].re ∧
      (m.writeComplexes w xs).word? (w.base + 8 * i + 4) = some xs[i].im := by
  obtain ⟨hre, him⟩ := wordsOf_getElem xs i hi
  have hl := wordsOf_length xs
  constructor
  · have h := Memory.word?_writeWords m w.base (wordsOf xs) (2 * i) (by omega)
    rw [show w.base + 4 * (2 * i) = w.base + 8 * i by omega] at h
    rw [Memory.writeComplexes, h, ← hre, List.getElem?_eq_getElem (by omega)]
  · have h := Memory.word?_writeWords m w.base (wordsOf xs) (2 * i + 1) (by omega)
    rw [show w.base + 4 * (2 * i + 1) = w.base + 8 * i + 4 by omega] at h
    rw [Memory.writeComplexes, h, ← him, List.getElem?_eq_getElem (by omega)]

/-- A write of complex elements leaves every byte outside them alone. -/
theorem Memory.byte?_writeComplexes_of_outside (m : Memory) (w : Window) (xs : List ComplexValue) (x : Nat)
    (h : x < w.base ∨ w.base + 8 * xs.length ≤ x) : (m.writeComplexes w xs).byte? x = m.byte? x :=
  Memory.byte?_writeWords_of_outside m _ _ x (by rw [wordsOf_length]; omega)

theorem Memory.readComplexes_length (m : Memory) (w : Window) (n c : Nat) : (m.readComplexes w n c).1.length = n :=
  complexesOf_length n _ (Memory.readWords_length m _ _ c)

/-- A read of complex elements gives what was written. -/
theorem Memory.readComplexes_getElem? (m : Memory) (w : Window) (n c i : Nat) (a b : Word) (hi : i < n)
    (ha : m.word? (w.base + 8 * i) = some a) (hb : m.word? (w.base + 8 * i + 4) = some b) :
    (m.readComplexes w n c).1[i]? = some ⟨a, b⟩ := by
  have hl := Memory.readWords_length m w.base (2 * n) c
  apply complexesOf_getElem?
  · rw [show w.base + 8 * i = w.base + 4 * (2 * i) by omega] at ha
    rw [List.getElem?_eq_getElem (by omega), Memory.readWords_getElem m w.base (2 * n) c (2 * i) a (by omega) ha]
  · rw [show w.base + 8 * i + 4 = w.base + 4 * (2 * i + 1) by omega] at hb
    rw [List.getElem?_eq_getElem (by omega), Memory.readWords_getElem m w.base (2 * n) c (2 * i + 1) b (by omega) hb]

end Sys2Proof.Machine
end

