-- ==== Sys2Proof/Laws/State.lean ====
section
/-! SUPPORT. One lemma per field per named update of the state, so that no proof unfolds an update;
for an update by cases, one lemma per field it leaves alone. -/

namespace Sys2Proof.Machine

section
variable (s : State)

/-! ### raise -/

@[simp] theorem raise_build (p : Bool) (o : BitVec 8) (e : ErrCode) : (raise p o e s).build = s.build := rfl
@[simp] theorem raise_config (p : Bool) (o : BitVec 8) (e : ErrCode) : (raise p o e s).config = s.config := rfl
@[simp] theorem raise_frameN (p : Bool) (o : BitVec 8) (e : ErrCode) : (raise p o e s).frameN = s.frameN := rfl
@[simp] theorem raise_midCode (p : Bool) (o : BitVec 8) (e : ErrCode) : (raise p o e s).midCode = s.midCode := rfl
@[simp] theorem raise_err (p : Bool) (o : BitVec 8) (e : ErrCode) : (raise p o e s).err = s.err.record p o e := rfl
@[simp] theorem raise_dropCount (p : Bool) (o : BitVec 8) (e : ErrCode) : (raise p o e s).dropCount = s.dropCount := rfl
@[simp] theorem raise_frameCount (p : Bool) (o : BitVec 8) (e : ErrCode) : (raise p o e s).frameCount = s.frameCount := rfl
@[simp] theorem raise_specSeq (p : Bool) (o : BitVec 8) (e : ErrCode) : (raise p o e s).specSeq = s.specSeq := rfl
@[simp] theorem raise_maxMag (p : Bool) (o : BitVec 8) (e : ErrCode) : (raise p o e s).maxMag = s.maxMag := rfl
@[simp] theorem raise_irqStatus (p : Bool) (o : BitVec 8) (e : ErrCode) : (raise p o e s).irqStatus = s.irqStatus ||| evError := rfl
@[simp] theorem raise_irqEnable (p : Bool) (o : BitVec 8) (e : ErrCode) : (raise p o e s).irqEnable = s.irqEnable := rfl
@[simp] theorem raise_actN (p : Bool) (o : BitVec 8) (e : ErrCode) : (raise p o e s).actN = s.actN := rfl
@[simp] theorem raise_actConfig (p : Bool) (o : BitVec 8) (e : ErrCode) : (raise p o e s).actConfig = s.actConfig := rfl
@[simp] theorem raise_actMid (p : Bool) (o : BitVec 8) (e : ErrCode) : (raise p o e s).actMid = s.actMid := rfl
@[simp] theorem raise_cfgValid (p : Bool) (o : BitVec 8) (e : ErrCode) : (raise p o e s).cfgValid = s.cfgValid := rfl
@[simp] theorem raise_run (p : Bool) (o : BitVec 8) (e : ErrCode) : (raise p o e s).run = s.run := rfl
@[simp] theorem raise_active (p : Bool) (o : BitVec 8) (e : ErrCode) : (raise p o e s).active = s.active := rfl
@[simp] theorem raise_ready (p : Bool) (o : BitVec 8) (e : ErrCode) : (raise p o e s).ready = s.ready := rfl
@[simp] theorem raise_held (p : Bool) (o : BitVec 8) (e : ErrCode) : (raise p o e s).held = s.held := rfl
@[simp] theorem raise_wp (p : Bool) (o : BitVec 8) (e : ErrCode) : (raise p o e s).wp = s.wp := rfl
@[simp] theorem raise_busy (p : Bool) (o : BitVec 8) (e : ErrCode) : (raise p o e s).busy = s.busy := rfl
@[simp] theorem raise_pend (p : Bool) (o : BitVec 8) (e : ErrCode) : (raise p o e s).pend = s.pend := rfl
@[simp] theorem raise_mem (p : Bool) (o : BitVec 8) (e : ErrCode) : (raise p o e s).mem = s.mem := rfl
@[simp] theorem raise_resetHeld (p : Bool) (o : BitVec 8) (e : ErrCode) : (raise p o e s).resetHeld = s.resetHeld := rfl
@[simp] theorem raise_masters (p : Bool) (o : BitVec 8) (e : ErrCode) : (raise p o e s).masters = s.masters := rfl
@[simp] theorem raise_port (p : Bool) (o : BitVec 8) (e : ErrCode) : (raise p o e s).port = s.port := rfl
@[simp] theorem raise_stalled (p : Bool) (o : BitVec 8) (e : ErrCode) : (raise p o e s).stalled = s.stalled := rfl
@[simp] theorem raise_turn (p : Bool) (o : BitVec 8) (e : ErrCode) : (raise p o e s).turn = s.turn := rfl
@[simp] theorem raise_schedule (p : Bool) (o : BitVec 8) (e : ErrCode) : (raise p o e s).schedule = s.schedule := rfl
@[simp] theorem raise_readLog (p : Bool) (o : BitVec 8) (e : ErrCode) : (raise p o e s).readLog = s.readLog := rfl
@[simp] theorem raise_draws (p : Bool) (o : BitVec 8) (e : ErrCode) : (raise p o e s).draws = s.draws := rfl

/-! ### clearErr -/

@[simp] theorem clearErr_build : (clearErr s).build = s.build := rfl
@[simp] theorem clearErr_config : (clearErr s).config = s.config := rfl
@[simp] theorem clearErr_frameN : (clearErr s).frameN = s.frameN := rfl
@[simp] theorem clearErr_midCode : (clearErr s).midCode = s.midCode := rfl
@[simp] theorem clearErr_err : (clearErr s).err = ErrReg.cleared := rfl
@[simp] theorem clearErr_dropCount : (clearErr s).dropCount = s.dropCount := rfl
@[simp] theorem clearErr_frameCount : (clearErr s).frameCount = s.frameCount := rfl
@[simp] theorem clearErr_specSeq : (clearErr s).specSeq = s.specSeq := rfl
@[simp] theorem clearErr_maxMag : (clearErr s).maxMag = s.maxMag := rfl
@[simp] theorem clearErr_irqStatus : (clearErr s).irqStatus = s.irqStatus := rfl
@[simp] theorem clearErr_irqEnable : (clearErr s).irqEnable = s.irqEnable := rfl
@[simp] theorem clearErr_actN : (clearErr s).actN = s.actN := rfl
@[simp] theorem clearErr_actConfig : (clearErr s).actConfig = s.actConfig := rfl
@[simp] theorem clearErr_actMid : (clearErr s).actMid = s.actMid := rfl
@[simp] theorem clearErr_cfgValid : (clearErr s).cfgValid = s.cfgValid := rfl
@[simp] theorem clearErr_run : (clearErr s).run = s.run := rfl
@[simp] theorem clearErr_active : (clearErr s).active = s.active := rfl
@[simp] theorem clearErr_ready : (clearErr s).ready = s.ready := rfl
@[simp] theorem clearErr_held : (clearErr s).held = s.held := rfl
@[simp] theorem clearErr_wp : (clearErr s).wp = s.wp := rfl
@[simp] theorem clearErr_busy : (clearErr s).busy = s.busy := rfl
@[simp] theorem clearErr_pend : (clearErr s).pend = s.pend := rfl
@[simp] theorem clearErr_mem : (clearErr s).mem = s.mem := rfl
@[simp] theorem clearErr_resetHeld : (clearErr s).resetHeld = s.resetHeld := rfl
@[simp] theorem clearErr_masters : (clearErr s).masters = s.masters := rfl
@[simp] theorem clearErr_port : (clearErr s).port = s.port := rfl
@[simp] theorem clearErr_stalled : (clearErr s).stalled = s.stalled := rfl
@[simp] theorem clearErr_turn : (clearErr s).turn = s.turn := rfl
@[simp] theorem clearErr_schedule : (clearErr s).schedule = s.schedule := rfl
@[simp] theorem clearErr_readLog : (clearErr s).readLog = s.readLog := rfl
@[simp] theorem clearErr_draws : (clearErr s).draws = s.draws := rfl

/-! ### accept -/

@[simp] theorem accept_build (w : Word) : (accept w s).build = s.build := rfl
@[simp] theorem accept_config (w : Word) : (accept w s).config = s.config := rfl
@[simp] theorem accept_frameN (w : Word) : (accept w s).frameN = s.frameN := rfl
@[simp] theorem accept_midCode (w : Word) : (accept w s).midCode = s.midCode := rfl
@[simp] theorem accept_err (w : Word) : (accept w s).err = s.err := rfl
@[simp] theorem accept_dropCount (w : Word) : (accept w s).dropCount = s.dropCount := rfl
@[simp] theorem accept_frameCount (w : Word) : (accept w s).frameCount = s.frameCount := rfl
@[simp] theorem accept_specSeq (w : Word) : (accept w s).specSeq = s.specSeq := rfl
@[simp] theorem accept_maxMag (w : Word) : (accept w s).maxMag = s.maxMag := rfl
@[simp] theorem accept_irqStatus (w : Word) : (accept w s).irqStatus = s.irqStatus := rfl
@[simp] theorem accept_irqEnable (w : Word) : (accept w s).irqEnable = s.irqEnable := rfl
@[simp] theorem accept_actN (w : Word) : (accept w s).actN = s.actN := rfl
@[simp] theorem accept_actConfig (w : Word) : (accept w s).actConfig = s.actConfig := rfl
@[simp] theorem accept_actMid (w : Word) : (accept w s).actMid = s.actMid := rfl
@[simp] theorem accept_cfgValid (w : Word) : (accept w s).cfgValid = s.cfgValid := rfl
@[simp] theorem accept_run (w : Word) : (accept w s).run = s.run := rfl
@[simp] theorem accept_active (w : Word) : (accept w s).active = s.active := rfl
@[simp] theorem accept_ready (w : Word) : (accept w s).ready = s.ready := rfl
@[simp] theorem accept_held (w : Word) : (accept w s).held = s.held := rfl
@[simp] theorem accept_wp (w : Word) : (accept w s).wp = s.wp := rfl
@[simp] theorem accept_busy (w : Word) : (accept w s).busy = true := rfl
@[simp] theorem accept_pend (w : Word) : (accept w s).pend = { s.pend with word := w } := rfl
@[simp] theorem accept_mem (w : Word) : (accept w s).mem = s.mem := rfl
@[simp] theorem accept_resetHeld (w : Word) : (accept w s).resetHeld = s.resetHeld := rfl
@[simp] theorem accept_masters (w : Word) : (accept w s).masters = s.masters := rfl
@[simp] theorem accept_port (w : Word) : (accept w s).port = s.port := rfl
@[simp] theorem accept_stalled (w : Word) : (accept w s).stalled = s.stalled := rfl
@[simp] theorem accept_turn (w : Word) : (accept w s).turn = s.turn := rfl
@[simp] theorem accept_schedule (w : Word) : (accept w s).schedule = s.schedule := rfl
@[simp] theorem accept_readLog (w : Word) : (accept w s).readLog = s.readLog := rfl
@[simp] theorem accept_draws (w : Word) : (accept w s).draws = s.draws := rfl

/-! ### takeSnapshot -/

@[simp] theorem takeSnapshot_build : (takeSnapshot s).build = s.build := rfl
@[simp] theorem takeSnapshot_config : (takeSnapshot s).config = s.config := rfl
@[simp] theorem takeSnapshot_frameN : (takeSnapshot s).frameN = s.frameN := rfl
@[simp] theorem takeSnapshot_midCode : (takeSnapshot s).midCode = s.midCode := rfl
@[simp] theorem takeSnapshot_err : (takeSnapshot s).err = s.err := rfl
@[simp] theorem takeSnapshot_dropCount : (takeSnapshot s).dropCount = s.dropCount := rfl
@[simp] theorem takeSnapshot_frameCount : (takeSnapshot s).frameCount = s.frameCount := rfl
@[simp] theorem takeSnapshot_specSeq : (takeSnapshot s).specSeq = s.specSeq := rfl
@[simp] theorem takeSnapshot_maxMag : (takeSnapshot s).maxMag = s.maxMag := rfl
@[simp] theorem takeSnapshot_irqStatus : (takeSnapshot s).irqStatus = s.irqStatus := rfl
@[simp] theorem takeSnapshot_irqEnable : (takeSnapshot s).irqEnable = s.irqEnable := rfl
@[simp] theorem takeSnapshot_actN : (takeSnapshot s).actN = s.actN := rfl
@[simp] theorem takeSnapshot_actConfig : (takeSnapshot s).actConfig = s.actConfig := rfl
@[simp] theorem takeSnapshot_actMid : (takeSnapshot s).actMid = s.actMid := rfl
@[simp] theorem takeSnapshot_cfgValid : (takeSnapshot s).cfgValid = s.cfgValid := rfl
@[simp] theorem takeSnapshot_run : (takeSnapshot s).run = s.run := rfl
@[simp] theorem takeSnapshot_active : (takeSnapshot s).active = s.active := rfl
@[simp] theorem takeSnapshot_ready : (takeSnapshot s).ready = s.ready := rfl
@[simp] theorem takeSnapshot_held : (takeSnapshot s).held = s.held := rfl
@[simp] theorem takeSnapshot_wp : (takeSnapshot s).wp = s.wp := rfl
@[simp] theorem takeSnapshot_busy : (takeSnapshot s).busy = s.busy := rfl
@[simp] theorem takeSnapshot_pend : (takeSnapshot s).pend = { s.pend with snapshot := ⟨s.frameN, s.config, s.midCode⟩ } := rfl
@[simp] theorem takeSnapshot_mem : (takeSnapshot s).mem = s.mem := rfl
@[simp] theorem takeSnapshot_resetHeld : (takeSnapshot s).resetHeld = s.resetHeld := rfl
@[simp] theorem takeSnapshot_masters : (takeSnapshot s).masters = s.masters := rfl
@[simp] theorem takeSnapshot_port : (takeSnapshot s).port = s.port := rfl
@[simp] theorem takeSnapshot_stalled : (takeSnapshot s).stalled = s.stalled := rfl
@[simp] theorem takeSnapshot_turn : (takeSnapshot s).turn = s.turn := rfl
@[simp] theorem takeSnapshot_schedule : (takeSnapshot s).schedule = s.schedule := rfl
@[simp] theorem takeSnapshot_readLog : (takeSnapshot s).readLog = s.readLog := rfl
@[simp] theorem takeSnapshot_draws : (takeSnapshot s).draws = s.draws := rfl

/-! ### complete -/

@[simp] theorem complete_build : (complete s).build = s.build := rfl
@[simp] theorem complete_config : (complete s).config = s.config := rfl
@[simp] theorem complete_frameN : (complete s).frameN = s.frameN := rfl
@[simp] theorem complete_midCode : (complete s).midCode = s.midCode := rfl
@[simp] theorem complete_err : (complete s).err = s.err := rfl
@[simp] theorem complete_dropCount : (complete s).dropCount = s.dropCount := rfl
@[simp] theorem complete_frameCount : (complete s).frameCount = s.frameCount := rfl
@[simp] theorem complete_specSeq : (complete s).specSeq = s.specSeq := rfl
@[simp] theorem complete_maxMag : (complete s).maxMag = s.maxMag := rfl
@[simp] theorem complete_irqStatus : (complete s).irqStatus = s.irqStatus ||| evCmdDone := rfl
@[simp] theorem complete_irqEnable : (complete s).irqEnable = s.irqEnable := rfl
@[simp] theorem complete_actN : (complete s).actN = s.actN := rfl
@[simp] theorem complete_actConfig : (complete s).actConfig = s.actConfig := rfl
@[simp] theorem complete_actMid : (complete s).actMid = s.actMid := rfl
@[simp] theorem complete_cfgValid : (complete s).cfgValid = s.cfgValid := rfl
@[simp] theorem complete_run : (complete s).run = s.run := rfl
@[simp] theorem complete_active : (complete s).active = s.active := rfl
@[simp] theorem complete_ready : (complete s).ready = s.ready := rfl
@[simp] theorem complete_held : (complete s).held = s.held := rfl
@[simp] theorem complete_wp : (complete s).wp = s.wp := rfl
@[simp] theorem complete_busy : (complete s).busy = false := rfl
@[simp] theorem complete_pend : (complete s).pend = s.pend := rfl
@[simp] theorem complete_mem : (complete s).mem = s.mem := rfl
@[simp] theorem complete_resetHeld : (complete s).resetHeld = s.resetHeld := rfl
@[simp] theorem complete_masters : (complete s).masters = s.masters := rfl
@[simp] theorem complete_port : (complete s).port = s.port := rfl
@[simp] theorem complete_stalled : (complete s).stalled = s.stalled := rfl
@[simp] theorem complete_turn : (complete s).turn = s.turn := rfl
@[simp] theorem complete_schedule : (complete s).schedule = s.schedule := rfl
@[simp] theorem complete_readLog : (complete s).readLog = s.readLog := rfl
@[simp] theorem complete_draws : (complete s).draws = s.draws := rfl

/-! ### drop -/

@[simp] theorem drop_build : (drop s).build = s.build := rfl
@[simp] theorem drop_config : (drop s).config = s.config := rfl
@[simp] theorem drop_frameN : (drop s).frameN = s.frameN := rfl
@[simp] theorem drop_midCode : (drop s).midCode = s.midCode := rfl
@[simp] theorem drop_err : (drop s).err = s.err := rfl
@[simp] theorem drop_dropCount : (drop s).dropCount = s.dropCount + 1#32 := rfl
@[simp] theorem drop_frameCount : (drop s).frameCount = s.frameCount := rfl
@[simp] theorem drop_specSeq : (drop s).specSeq = s.specSeq := rfl
@[simp] theorem drop_maxMag : (drop s).maxMag = s.maxMag := rfl
@[simp] theorem drop_irqStatus : (drop s).irqStatus = s.irqStatus ||| evDrop := rfl
@[simp] theorem drop_irqEnable : (drop s).irqEnable = s.irqEnable := rfl
@[simp] theorem drop_actN : (drop s).actN = s.actN := rfl
@[simp] theorem drop_actConfig : (drop s).actConfig = s.actConfig := rfl
@[simp] theorem drop_actMid : (drop s).actMid = s.actMid := rfl
@[simp] theorem drop_cfgValid : (drop s).cfgValid = s.cfgValid := rfl
@[simp] theorem drop_run : (drop s).run = s.run := rfl
@[simp] theorem drop_active : (drop s).active = s.active := rfl
@[simp] theorem drop_ready : (drop s).ready = s.ready := rfl
@[simp] theorem drop_held : (drop s).held = s.held := rfl
@[simp] theorem drop_wp : (drop s).wp = s.wp := rfl
@[simp] theorem drop_busy : (drop s).busy = s.busy := rfl
@[simp] theorem drop_pend : (drop s).pend = s.pend := rfl
@[simp] theorem drop_mem : (drop s).mem = s.mem := rfl
@[simp] theorem drop_resetHeld : (drop s).resetHeld = s.resetHeld := rfl
@[simp] theorem drop_masters : (drop s).masters = s.masters := rfl
@[simp] theorem drop_port : (drop s).port = s.port := rfl
@[simp] theorem drop_stalled : (drop s).stalled = s.stalled := rfl
@[simp] theorem drop_turn : (drop s).turn = s.turn := rfl
@[simp] theorem drop_schedule : (drop s).schedule = s.schedule := rfl
@[simp] theorem drop_readLog : (drop s).readLog = s.readLog := rfl
@[simp] theorem drop_draws : (drop s).draws = s.draws := rfl

/-! ### clearHandoff -/

@[simp] theorem clearHandoff_build (r : Bool) : (clearHandoff r s).build = s.build := rfl
@[simp] theorem clearHandoff_config (r : Bool) : (clearHandoff r s).config = s.config := rfl
@[simp] theorem clearHandoff_frameN (r : Bool) : (clearHandoff r s).frameN = s.frameN := rfl
@[simp] theorem clearHandoff_midCode (r : Bool) : (clearHandoff r s).midCode = s.midCode := rfl
@[simp] theorem clearHandoff_err (r : Bool) : (clearHandoff r s).err = s.err := rfl
@[simp] theorem clearHandoff_dropCount (r : Bool) : (clearHandoff r s).dropCount = s.dropCount := rfl
@[simp] theorem clearHandoff_frameCount (r : Bool) : (clearHandoff r s).frameCount = s.frameCount := rfl
@[simp] theorem clearHandoff_specSeq (r : Bool) : (clearHandoff r s).specSeq = s.specSeq := rfl
@[simp] theorem clearHandoff_maxMag (r : Bool) : (clearHandoff r s).maxMag = s.maxMag := rfl
@[simp] theorem clearHandoff_irqStatus (r : Bool) : (clearHandoff r s).irqStatus = s.irqStatus := rfl
@[simp] theorem clearHandoff_irqEnable (r : Bool) : (clearHandoff r s).irqEnable = s.irqEnable := rfl
@[simp] theorem clearHandoff_actN (r : Bool) : (clearHandoff r s).actN = s.actN := rfl
@[simp] theorem clearHandoff_actConfig (r : Bool) : (clearHandoff r s).actConfig = s.actConfig := rfl
@[simp] theorem clearHandoff_actMid (r : Bool) : (clearHandoff r s).actMid = s.actMid := rfl
@[simp] theorem clearHandoff_cfgValid (r : Bool) : (clearHandoff r s).cfgValid = s.cfgValid := rfl
@[simp] theorem clearHandoff_run (r : Bool) : (clearHandoff r s).run = r := rfl
@[simp] theorem clearHandoff_active (r : Bool) : (clearHandoff r s).active = .s0 := rfl
@[simp] theorem clearHandoff_ready (r : Bool) : (clearHandoff r s).ready = SlotFlags.none := rfl
@[simp] theorem clearHandoff_held (r : Bool) : (clearHandoff r s).held = SlotFlags.none := rfl
@[simp] theorem clearHandoff_wp (r : Bool) : (clearHandoff r s).wp = 0#15 := rfl
@[simp] theorem clearHandoff_busy (r : Bool) : (clearHandoff r s).busy = s.busy := rfl
@[simp] theorem clearHandoff_pend (r : Bool) : (clearHandoff r s).pend = s.pend := rfl
@[simp] theorem clearHandoff_mem (r : Bool) : (clearHandoff r s).mem = s.mem := rfl
@[simp] theorem clearHandoff_resetHeld (r : Bool) : (clearHandoff r s).resetHeld = s.resetHeld := rfl
@[simp] theorem clearHandoff_masters (r : Bool) : (clearHandoff r s).masters = s.masters := rfl
@[simp] theorem clearHandoff_port (r : Bool) : (clearHandoff r s).port = s.port := rfl
@[simp] theorem clearHandoff_stalled (r : Bool) : (clearHandoff r s).stalled = s.stalled := rfl
@[simp] theorem clearHandoff_turn (r : Bool) : (clearHandoff r s).turn = s.turn := rfl
@[simp] theorem clearHandoff_schedule (r : Bool) : (clearHandoff r s).schedule = s.schedule := rfl
@[simp] theorem clearHandoff_readLog (r : Bool) : (clearHandoff r s).readLog = s.readLog := rfl
@[simp] theorem clearHandoff_draws (r : Bool) : (clearHandoff r s).draws = s.draws := rfl

/-! ### configureEffect -/

@[simp] theorem configureEffect_build : (configureEffect s).build = s.build := rfl
@[simp] theorem configureEffect_config : (configureEffect s).config = s.config := rfl
@[simp] theorem configureEffect_frameN : (configureEffect s).frameN = s.frameN := rfl
@[simp] theorem configureEffect_midCode : (configureEffect s).midCode = s.midCode := rfl
@[simp] theorem configureEffect_err : (configureEffect s).err = s.err := rfl
@[simp] theorem configureEffect_dropCount : (configureEffect s).dropCount = s.dropCount := rfl
@[simp] theorem configureEffect_frameCount : (configureEffect s).frameCount = s.frameCount := rfl
@[simp] theorem configureEffect_specSeq : (configureEffect s).specSeq = s.specSeq := rfl
@[simp] theorem configureEffect_maxMag : (configureEffect s).maxMag = s.maxMag := rfl
@[simp] theorem configureEffect_irqStatus : (configureEffect s).irqStatus = s.irqStatus := rfl
@[simp] theorem configureEffect_irqEnable : (configureEffect s).irqEnable = s.irqEnable := rfl
@[simp] theorem configureEffect_actN : (configureEffect s).actN = s.pend.snapshot.n := rfl
@[simp] theorem configureEffect_actConfig : (configureEffect s).actConfig = s.pend.snapshot.config := rfl
@[simp] theorem configureEffect_actMid : (configureEffect s).actMid = s.pend.snapshot.mid := rfl
@[simp] theorem configureEffect_cfgValid : (configureEffect s).cfgValid = true := rfl
@[simp] theorem configureEffect_run : (configureEffect s).run = s.run := rfl
@[simp] theorem configureEffect_active : (configureEffect s).active = s.active := rfl
@[simp] theorem configureEffect_ready : (configureEffect s).ready = s.ready := rfl
@[simp] theorem configureEffect_held : (configureEffect s).held = s.held := rfl
@[simp] theorem configureEffect_wp : (configureEffect s).wp = s.wp := rfl
@[simp] theorem configureEffect_busy : (configureEffect s).busy = s.busy := rfl
@[simp] theorem configureEffect_pend : (configureEffect s).pend = s.pend := rfl
@[simp] theorem configureEffect_mem : (configureEffect s).mem = configureMem s := rfl
@[simp] theorem configureEffect_resetHeld : (configureEffect s).resetHeld = s.resetHeld := rfl
@[simp] theorem configureEffect_masters : (configureEffect s).masters = s.masters := rfl
@[simp] theorem configureEffect_port : (configureEffect s).port = s.port := rfl
@[simp] theorem configureEffect_stalled : (configureEffect s).stalled = s.stalled := rfl
@[simp] theorem configureEffect_turn : (configureEffect s).turn = s.turn := rfl
@[simp] theorem configureEffect_schedule : (configureEffect s).schedule = s.schedule := rfl
@[simp] theorem configureEffect_readLog : (configureEffect s).readLog = s.readLog := rfl
@[simp] theorem configureEffect_draws : (configureEffect s).draws = s.draws := rfl

/-! ### releaseEffect -/

@[simp] theorem releaseEffect_build : (releaseEffect s).build = s.build := rfl
@[simp] theorem releaseEffect_config : (releaseEffect s).config = s.config := rfl
@[simp] theorem releaseEffect_frameN : (releaseEffect s).frameN = s.frameN := rfl
@[simp] theorem releaseEffect_midCode : (releaseEffect s).midCode = s.midCode := rfl
@[simp] theorem releaseEffect_err : (releaseEffect s).err = s.err := rfl
@[simp] theorem releaseEffect_dropCount : (releaseEffect s).dropCount = s.dropCount := rfl
@[simp] theorem releaseEffect_frameCount : (releaseEffect s).frameCount = s.frameCount := rfl
@[simp] theorem releaseEffect_specSeq : (releaseEffect s).specSeq = s.specSeq := rfl
@[simp] theorem releaseEffect_maxMag : (releaseEffect s).maxMag = s.maxMag := rfl
@[simp] theorem releaseEffect_irqStatus : (releaseEffect s).irqStatus = s.irqStatus := rfl
@[simp] theorem releaseEffect_irqEnable : (releaseEffect s).irqEnable = s.irqEnable := rfl
@[simp] theorem releaseEffect_actN : (releaseEffect s).actN = s.actN := rfl
@[simp] theorem releaseEffect_actConfig : (releaseEffect s).actConfig = s.actConfig := rfl
@[simp] theorem releaseEffect_actMid : (releaseEffect s).actMid = s.actMid := rfl
@[simp] theorem releaseEffect_cfgValid : (releaseEffect s).cfgValid = s.cfgValid := rfl
@[simp] theorem releaseEffect_run : (releaseEffect s).run = s.run := rfl
@[simp] theorem releaseEffect_active : (releaseEffect s).active = s.active := rfl
@[simp] theorem releaseEffect_ready : (releaseEffect s).ready = s.ready := rfl
@[simp] theorem releaseEffect_held : (releaseEffect s).held = SlotFlags.none := rfl
@[simp] theorem releaseEffect_wp : (releaseEffect s).wp = s.wp := rfl
@[simp] theorem releaseEffect_busy : (releaseEffect s).busy = s.busy := rfl
@[simp] theorem releaseEffect_pend : (releaseEffect s).pend = s.pend := rfl
@[simp] theorem releaseEffect_mem : (releaseEffect s).mem = s.mem := rfl
@[simp] theorem releaseEffect_resetHeld : (releaseEffect s).resetHeld = s.resetHeld := rfl
@[simp] theorem releaseEffect_masters : (releaseEffect s).masters = s.masters := rfl
@[simp] theorem releaseEffect_port : (releaseEffect s).port = s.port := rfl
@[simp] theorem releaseEffect_stalled : (releaseEffect s).stalled = s.stalled := rfl
@[simp] theorem releaseEffect_turn : (releaseEffect s).turn = s.turn := rfl
@[simp] theorem releaseEffect_schedule : (releaseEffect s).schedule = s.schedule := rfl
@[simp] theorem releaseEffect_readLog : (releaseEffect s).readLog = s.readLog := rfl
@[simp] theorem releaseEffect_draws : (releaseEffect s).draws = s.draws := rfl

/-! ### storeSample -/

@[simp] theorem storeSample_build (c : Half) : (storeSample c s).build = s.build := rfl
@[simp] theorem storeSample_config (c : Half) : (storeSample c s).config = s.config := rfl
@[simp] theorem storeSample_frameN (c : Half) : (storeSample c s).frameN = s.frameN := rfl
@[simp] theorem storeSample_midCode (c : Half) : (storeSample c s).midCode = s.midCode := rfl
@[simp] theorem storeSample_err (c : Half) : (storeSample c s).err = s.err := rfl
@[simp] theorem storeSample_dropCount (c : Half) : (storeSample c s).dropCount = s.dropCount := rfl
@[simp] theorem storeSample_frameCount (c : Half) : (storeSample c s).frameCount = s.frameCount := rfl
@[simp] theorem storeSample_specSeq (c : Half) : (storeSample c s).specSeq = s.specSeq := rfl
@[simp] theorem storeSample_maxMag (c : Half) : (storeSample c s).maxMag = s.maxMag := rfl
@[simp] theorem storeSample_irqStatus (c : Half) : (storeSample c s).irqStatus = s.irqStatus := rfl
@[simp] theorem storeSample_irqEnable (c : Half) : (storeSample c s).irqEnable = s.irqEnable := rfl
@[simp] theorem storeSample_actN (c : Half) : (storeSample c s).actN = s.actN := rfl
@[simp] theorem storeSample_actConfig (c : Half) : (storeSample c s).actConfig = s.actConfig := rfl
@[simp] theorem storeSample_actMid (c : Half) : (storeSample c s).actMid = s.actMid := rfl
@[simp] theorem storeSample_cfgValid (c : Half) : (storeSample c s).cfgValid = s.cfgValid := rfl
@[simp] theorem storeSample_run (c : Half) : (storeSample c s).run = s.run := rfl
@[simp] theorem storeSample_active (c : Half) : (storeSample c s).active = s.active := rfl
@[simp] theorem storeSample_ready (c : Half) : (storeSample c s).ready = s.ready := rfl
@[simp] theorem storeSample_held (c : Half) : (storeSample c s).held = s.held := rfl
@[simp] theorem storeSample_wp (c : Half) : (storeSample c s).wp = s.wp + 1#15 := rfl
@[simp] theorem storeSample_busy (c : Half) : (storeSample c s).busy = s.busy := rfl
@[simp] theorem storeSample_pend (c : Half) : (storeSample c s).pend = s.pend := rfl
@[simp] theorem storeSample_mem (c : Half) : (storeSample c s).mem = s.mem.writeHalves (sampleOffset s) [storedCode s.sampleBits c] := rfl
@[simp] theorem storeSample_resetHeld (c : Half) : (storeSample c s).resetHeld = s.resetHeld := rfl
@[simp] theorem storeSample_masters (c : Half) : (storeSample c s).masters = s.masters := rfl
@[simp] theorem storeSample_port (c : Half) : (storeSample c s).port = s.port := rfl
@[simp] theorem storeSample_stalled (c : Half) : (storeSample c s).stalled = s.stalled := rfl
@[simp] theorem storeSample_turn (c : Half) : (storeSample c s).turn = s.turn := rfl
@[simp] theorem storeSample_schedule (c : Half) : (storeSample c s).schedule = s.schedule := rfl
@[simp] theorem storeSample_readLog (c : Half) : (storeSample c s).readLog = s.readLog := rfl
@[simp] theorem storeSample_draws (c : Half) : (storeSample c s).draws = s.draws := rfl

/-! ### handoff -/

@[simp] theorem handoff_build : (handoff s).build = s.build := rfl
@[simp] theorem handoff_config : (handoff s).config = s.config := rfl
@[simp] theorem handoff_frameN : (handoff s).frameN = s.frameN := rfl
@[simp] theorem handoff_midCode : (handoff s).midCode = s.midCode := rfl
@[simp] theorem handoff_err : (handoff s).err = s.err := rfl
@[simp] theorem handoff_dropCount : (handoff s).dropCount = s.dropCount := rfl
@[simp] theorem handoff_frameCount : (handoff s).frameCount = s.frameCount + 1#32 := rfl
@[simp] theorem handoff_specSeq : (handoff s).specSeq = s.specSeq := rfl
@[simp] theorem handoff_maxMag : (handoff s).maxMag = s.maxMag := rfl
@[simp] theorem handoff_irqStatus : (handoff s).irqStatus = s.irqStatus ||| evFrameReady := rfl
@[simp] theorem handoff_irqEnable : (handoff s).irqEnable = s.irqEnable := rfl
@[simp] theorem handoff_actN : (handoff s).actN = s.actN := rfl
@[simp] theorem handoff_actConfig : (handoff s).actConfig = s.actConfig := rfl
@[simp] theorem handoff_actMid : (handoff s).actMid = s.actMid := rfl
@[simp] theorem handoff_cfgValid : (handoff s).cfgValid = s.cfgValid := rfl
@[simp] theorem handoff_run : (handoff s).run = s.run := rfl
@[simp] theorem handoff_active : (handoff s).active = s.active.other := rfl
@[simp] theorem handoff_ready : (handoff s).ready = s.ready.set s.active true := rfl
@[simp] theorem handoff_held : (handoff s).held = s.held := rfl
@[simp] theorem handoff_wp : (handoff s).wp = 0#15 := rfl
@[simp] theorem handoff_busy : (handoff s).busy = s.busy := rfl
@[simp] theorem handoff_pend : (handoff s).pend = s.pend := rfl
@[simp] theorem handoff_mem : (handoff s).mem = s.mem := rfl
@[simp] theorem handoff_resetHeld : (handoff s).resetHeld = s.resetHeld := rfl
@[simp] theorem handoff_masters : (handoff s).masters = s.masters := rfl
@[simp] theorem handoff_port : (handoff s).port = s.port := rfl
@[simp] theorem handoff_stalled : (handoff s).stalled = s.stalled := rfl
@[simp] theorem handoff_turn : (handoff s).turn = s.turn := rfl
@[simp] theorem handoff_schedule : (handoff s).schedule = s.schedule := rfl
@[simp] theorem handoff_readLog : (handoff s).readLog = s.readLog := rfl
@[simp] theorem handoff_draws : (handoff s).draws = s.draws := rfl

/-! ### convertEffect -/

@[simp] theorem convertEffect_build : (convertEffect s).build = s.build := rfl
@[simp] theorem convertEffect_config : (convertEffect s).config = s.config := rfl
@[simp] theorem convertEffect_frameN : (convertEffect s).frameN = s.frameN := rfl
@[simp] theorem convertEffect_midCode : (convertEffect s).midCode = s.midCode := rfl
@[simp] theorem convertEffect_err : (convertEffect s).err = s.err := rfl
@[simp] theorem convertEffect_dropCount : (convertEffect s).dropCount = s.dropCount := rfl
@[simp] theorem convertEffect_frameCount : (convertEffect s).frameCount = s.frameCount := rfl
@[simp] theorem convertEffect_specSeq : (convertEffect s).specSeq = s.specSeq := rfl
@[simp] theorem convertEffect_maxMag : (convertEffect s).maxMag = s.maxMag := rfl
@[simp] theorem convertEffect_irqStatus : (convertEffect s).irqStatus = s.irqStatus := rfl
@[simp] theorem convertEffect_irqEnable : (convertEffect s).irqEnable = s.irqEnable := rfl
@[simp] theorem convertEffect_actN : (convertEffect s).actN = s.actN := rfl
@[simp] theorem convertEffect_actConfig : (convertEffect s).actConfig = s.actConfig := rfl
@[simp] theorem convertEffect_actMid : (convertEffect s).actMid = s.actMid := rfl
@[simp] theorem convertEffect_cfgValid : (convertEffect s).cfgValid = s.cfgValid := rfl
@[simp] theorem convertEffect_run : (convertEffect s).run = s.run := rfl
@[simp] theorem convertEffect_active : (convertEffect s).active = s.active := rfl
@[simp] theorem convertEffect_ready : (convertEffect s).ready = s.ready := rfl
@[simp] theorem convertEffect_held : (convertEffect s).held = s.held.set s.claimSlot false := rfl
@[simp] theorem convertEffect_wp : (convertEffect s).wp = s.wp := rfl
@[simp] theorem convertEffect_busy : (convertEffect s).busy = s.busy := rfl
@[simp] theorem convertEffect_pend : (convertEffect s).pend = s.pend := rfl
@[simp] theorem convertEffect_mem : (convertEffect s).mem = s.mem.writeComplexes .workA (windowedSamples s) := rfl
@[simp] theorem convertEffect_resetHeld : (convertEffect s).resetHeld = s.resetHeld := rfl
@[simp] theorem convertEffect_masters : (convertEffect s).masters = s.masters := rfl
@[simp] theorem convertEffect_port : (convertEffect s).port = s.port := rfl
@[simp] theorem convertEffect_stalled : (convertEffect s).stalled = s.stalled := rfl
@[simp] theorem convertEffect_turn : (convertEffect s).turn = s.turn := rfl
@[simp] theorem convertEffect_schedule : (convertEffect s).schedule = s.schedule := rfl
@[simp] theorem convertEffect_readLog : (convertEffect s).readLog = s.readLog := rfl
@[simp] theorem convertEffect_draws : (convertEffect s).draws = (windowCoefficients s).2 := rfl

/-! ### fftEffect -/

@[simp] theorem fftEffect_build (src dst : Bank) : (fftEffect src dst s).build = s.build := rfl
@[simp] theorem fftEffect_config (src dst : Bank) : (fftEffect src dst s).config = s.config := rfl
@[simp] theorem fftEffect_frameN (src dst : Bank) : (fftEffect src dst s).frameN = s.frameN := rfl
@[simp] theorem fftEffect_midCode (src dst : Bank) : (fftEffect src dst s).midCode = s.midCode := rfl
@[simp] theorem fftEffect_err (src dst : Bank) : (fftEffect src dst s).err = s.err := rfl
@[simp] theorem fftEffect_dropCount (src dst : Bank) : (fftEffect src dst s).dropCount = s.dropCount := rfl
@[simp] theorem fftEffect_frameCount (src dst : Bank) : (fftEffect src dst s).frameCount = s.frameCount := rfl
@[simp] theorem fftEffect_specSeq (src dst : Bank) : (fftEffect src dst s).specSeq = s.specSeq := rfl
@[simp] theorem fftEffect_maxMag (src dst : Bank) : (fftEffect src dst s).maxMag = s.maxMag := rfl
@[simp] theorem fftEffect_irqStatus (src dst : Bank) : (fftEffect src dst s).irqStatus = s.irqStatus := rfl
@[simp] theorem fftEffect_irqEnable (src dst : Bank) : (fftEffect src dst s).irqEnable = s.irqEnable := rfl
@[simp] theorem fftEffect_actN (src dst : Bank) : (fftEffect src dst s).actN = s.actN := rfl
@[simp] theorem fftEffect_actConfig (src dst : Bank) : (fftEffect src dst s).actConfig = s.actConfig := rfl
@[simp] theorem fftEffect_actMid (src dst : Bank) : (fftEffect src dst s).actMid = s.actMid := rfl
@[simp] theorem fftEffect_cfgValid (src dst : Bank) : (fftEffect src dst s).cfgValid = s.cfgValid := rfl
@[simp] theorem fftEffect_run (src dst : Bank) : (fftEffect src dst s).run = s.run := rfl
@[simp] theorem fftEffect_active (src dst : Bank) : (fftEffect src dst s).active = s.active := rfl
@[simp] theorem fftEffect_ready (src dst : Bank) : (fftEffect src dst s).ready = s.ready := rfl
@[simp] theorem fftEffect_held (src dst : Bank) : (fftEffect src dst s).held = s.held := rfl
@[simp] theorem fftEffect_wp (src dst : Bank) : (fftEffect src dst s).wp = s.wp := rfl
@[simp] theorem fftEffect_busy (src dst : Bank) : (fftEffect src dst s).busy = s.busy := rfl
@[simp] theorem fftEffect_pend (src dst : Bank) : (fftEffect src dst s).pend = s.pend := rfl
@[simp] theorem fftEffect_mem (src dst : Bank) : (fftEffect src dst s).mem = s.mem.writeComplexes (workWindow dst) (fftOutput src dst s) := rfl
@[simp] theorem fftEffect_resetHeld (src dst : Bank) : (fftEffect src dst s).resetHeld = s.resetHeld := rfl
@[simp] theorem fftEffect_masters (src dst : Bank) : (fftEffect src dst s).masters = s.masters := rfl
@[simp] theorem fftEffect_port (src dst : Bank) : (fftEffect src dst s).port = s.port := rfl
@[simp] theorem fftEffect_stalled (src dst : Bank) : (fftEffect src dst s).stalled = s.stalled := rfl
@[simp] theorem fftEffect_turn (src dst : Bank) : (fftEffect src dst s).turn = s.turn := rfl
@[simp] theorem fftEffect_schedule (src dst : Bank) : (fftEffect src dst s).schedule = s.schedule := rfl
@[simp] theorem fftEffect_readLog (src dst : Bank) : (fftEffect src dst s).readLog = s.readLog := rfl
@[simp] theorem fftEffect_draws (src dst : Bank) : (fftEffect src dst s).draws = (fftTwiddles src s).2 := rfl

/-! ### magEffect -/

@[simp] theorem magEffect_build (src : Bank) : (magEffect src s).build = s.build := rfl
@[simp] theorem magEffect_config (src : Bank) : (magEffect src s).config = s.config := rfl
@[simp] theorem magEffect_frameN (src : Bank) : (magEffect src s).frameN = s.frameN := rfl
@[simp] theorem magEffect_midCode (src : Bank) : (magEffect src s).midCode = s.midCode := rfl
@[simp] theorem magEffect_err (src : Bank) : (magEffect src s).err = s.err := rfl
@[simp] theorem magEffect_dropCount (src : Bank) : (magEffect src s).dropCount = s.dropCount := rfl
@[simp] theorem magEffect_frameCount (src : Bank) : (magEffect src s).frameCount = s.frameCount := rfl
@[simp] theorem magEffect_specSeq (src : Bank) : (magEffect src s).specSeq = s.specSeq := rfl
@[simp] theorem magEffect_maxMag (src : Bank) : (magEffect src s).maxMag = s.maxMag := rfl
@[simp] theorem magEffect_irqStatus (src : Bank) : (magEffect src s).irqStatus = s.irqStatus := rfl
@[simp] theorem magEffect_irqEnable (src : Bank) : (magEffect src s).irqEnable = s.irqEnable := rfl
@[simp] theorem magEffect_actN (src : Bank) : (magEffect src s).actN = s.actN := rfl
@[simp] theorem magEffect_actConfig (src : Bank) : (magEffect src s).actConfig = s.actConfig := rfl
@[simp] theorem magEffect_actMid (src : Bank) : (magEffect src s).actMid = s.actMid := rfl
@[simp] theorem magEffect_cfgValid (src : Bank) : (magEffect src s).cfgValid = s.cfgValid := rfl
@[simp] theorem magEffect_run (src : Bank) : (magEffect src s).run = s.run := rfl
@[simp] theorem magEffect_active (src : Bank) : (magEffect src s).active = s.active := rfl
@[simp] theorem magEffect_ready (src : Bank) : (magEffect src s).ready = s.ready := rfl
@[simp] theorem magEffect_held (src : Bank) : (magEffect src s).held = s.held := rfl
@[simp] theorem magEffect_wp (src : Bank) : (magEffect src s).wp = s.wp := rfl
@[simp] theorem magEffect_busy (src : Bank) : (magEffect src s).busy = s.busy := rfl
@[simp] theorem magEffect_pend (src : Bank) : (magEffect src s).pend = s.pend := rfl
@[simp] theorem magEffect_mem (src : Bank) : (magEffect src s).mem = s.mem.writeWords Window.mag.base ((magInput src s).1.map (magnitude s.num)) := rfl
@[simp] theorem magEffect_resetHeld (src : Bank) : (magEffect src s).resetHeld = s.resetHeld := rfl
@[simp] theorem magEffect_masters (src : Bank) : (magEffect src s).masters = s.masters := rfl
@[simp] theorem magEffect_port (src : Bank) : (magEffect src s).port = s.port := rfl
@[simp] theorem magEffect_stalled (src : Bank) : (magEffect src s).stalled = s.stalled := rfl
@[simp] theorem magEffect_turn (src : Bank) : (magEffect src s).turn = s.turn := rfl
@[simp] theorem magEffect_schedule (src : Bank) : (magEffect src s).schedule = s.schedule := rfl
@[simp] theorem magEffect_readLog (src : Bank) : (magEffect src s).readLog = s.readLog := rfl
@[simp] theorem magEffect_draws (src : Bank) : (magEffect src s).draws = (magInput src s).2 := rfl

/-! ### normEffect -/

@[simp] theorem normEffect_build : (normEffect s).build = s.build := rfl
@[simp] theorem normEffect_config : (normEffect s).config = s.config := rfl
@[simp] theorem normEffect_frameN : (normEffect s).frameN = s.frameN := rfl
@[simp] theorem normEffect_midCode : (normEffect s).midCode = s.midCode := rfl
@[simp] theorem normEffect_err : (normEffect s).err = s.err := rfl
@[simp] theorem normEffect_dropCount : (normEffect s).dropCount = s.dropCount := rfl
@[simp] theorem normEffect_frameCount : (normEffect s).frameCount = s.frameCount := rfl
@[simp] theorem normEffect_specSeq : (normEffect s).specSeq = s.specSeq + 1#32 := rfl
@[simp] theorem normEffect_maxMag : (normEffect s).maxMag = normDivisor s := rfl
@[simp] theorem normEffect_irqStatus : (normEffect s).irqStatus = s.irqStatus := rfl
@[simp] theorem normEffect_irqEnable : (normEffect s).irqEnable = s.irqEnable := rfl
@[simp] theorem normEffect_actN : (normEffect s).actN = s.actN := rfl
@[simp] theorem normEffect_actConfig : (normEffect s).actConfig = s.actConfig := rfl
@[simp] theorem normEffect_actMid : (normEffect s).actMid = s.actMid := rfl
@[simp] theorem normEffect_cfgValid : (normEffect s).cfgValid = s.cfgValid := rfl
@[simp] theorem normEffect_run : (normEffect s).run = s.run := rfl
@[simp] theorem normEffect_active : (normEffect s).active = s.active := rfl
@[simp] theorem normEffect_ready : (normEffect s).ready = s.ready := rfl
@[simp] theorem normEffect_held : (normEffect s).held = s.held := rfl
@[simp] theorem normEffect_wp : (normEffect s).wp = s.wp := rfl
@[simp] theorem normEffect_busy : (normEffect s).busy = s.busy := rfl
@[simp] theorem normEffect_pend : (normEffect s).pend = s.pend := rfl
@[simp] theorem normEffect_mem : (normEffect s).mem = s.mem.writeHalves Window.spec.base (normCodes s) := rfl
@[simp] theorem normEffect_resetHeld : (normEffect s).resetHeld = s.resetHeld := rfl
@[simp] theorem normEffect_masters : (normEffect s).masters = s.masters := rfl
@[simp] theorem normEffect_port : (normEffect s).port = s.port := rfl
@[simp] theorem normEffect_stalled : (normEffect s).stalled = s.stalled := rfl
@[simp] theorem normEffect_turn : (normEffect s).turn = s.turn := rfl
@[simp] theorem normEffect_schedule : (normEffect s).schedule = s.schedule := rfl
@[simp] theorem normEffect_readLog : (normEffect s).readLog = s.readLog := rfl
@[simp] theorem normEffect_draws : (normEffect s).draws = (normMagnitudesAgain s).2 := rfl

/-! ### setQueue -/

@[simp] theorem setQueue_build (k : Nat) (q : List HostOp) : (setQueue k q s).build = s.build := rfl
@[simp] theorem setQueue_config (k : Nat) (q : List HostOp) : (setQueue k q s).config = s.config := rfl
@[simp] theorem setQueue_frameN (k : Nat) (q : List HostOp) : (setQueue k q s).frameN = s.frameN := rfl
@[simp] theorem setQueue_midCode (k : Nat) (q : List HostOp) : (setQueue k q s).midCode = s.midCode := rfl
@[simp] theorem setQueue_err (k : Nat) (q : List HostOp) : (setQueue k q s).err = s.err := rfl
@[simp] theorem setQueue_dropCount (k : Nat) (q : List HostOp) : (setQueue k q s).dropCount = s.dropCount := rfl
@[simp] theorem setQueue_frameCount (k : Nat) (q : List HostOp) : (setQueue k q s).frameCount = s.frameCount := rfl
@[simp] theorem setQueue_specSeq (k : Nat) (q : List HostOp) : (setQueue k q s).specSeq = s.specSeq := rfl
@[simp] theorem setQueue_maxMag (k : Nat) (q : List HostOp) : (setQueue k q s).maxMag = s.maxMag := rfl
@[simp] theorem setQueue_irqStatus (k : Nat) (q : List HostOp) : (setQueue k q s).irqStatus = s.irqStatus := rfl
@[simp] theorem setQueue_irqEnable (k : Nat) (q : List HostOp) : (setQueue k q s).irqEnable = s.irqEnable := rfl
@[simp] theorem setQueue_actN (k : Nat) (q : List HostOp) : (setQueue k q s).actN = s.actN := rfl
@[simp] theorem setQueue_actConfig (k : Nat) (q : List HostOp) : (setQueue k q s).actConfig = s.actConfig := rfl
@[simp] theorem setQueue_actMid (k : Nat) (q : List HostOp) : (setQueue k q s).actMid = s.actMid := rfl
@[simp] theorem setQueue_cfgValid (k : Nat) (q : List HostOp) : (setQueue k q s).cfgValid = s.cfgValid := rfl
@[simp] theorem setQueue_run (k : Nat) (q : List HostOp) : (setQueue k q s).run = s.run := rfl
@[simp] theorem setQueue_active (k : Nat) (q : List HostOp) : (setQueue k q s).active = s.active := rfl
@[simp] theorem setQueue_ready (k : Nat) (q : List HostOp) : (setQueue k q s).ready = s.ready := rfl
@[simp] theorem setQueue_held (k : Nat) (q : List HostOp) : (setQueue k q s).held = s.held := rfl
@[simp] theorem setQueue_wp (k : Nat) (q : List HostOp) : (setQueue k q s).wp = s.wp := rfl
@[simp] theorem setQueue_busy (k : Nat) (q : List HostOp) : (setQueue k q s).busy = s.busy := rfl
@[simp] theorem setQueue_pend (k : Nat) (q : List HostOp) : (setQueue k q s).pend = s.pend := rfl
@[simp] theorem setQueue_mem (k : Nat) (q : List HostOp) : (setQueue k q s).mem = s.mem := rfl
@[simp] theorem setQueue_resetHeld (k : Nat) (q : List HostOp) : (setQueue k q s).resetHeld = s.resetHeld := rfl
@[simp] theorem setQueue_masters (k : Nat) (q : List HostOp) : (setQueue k q s).masters = s.masters.set k q := rfl
@[simp] theorem setQueue_port (k : Nat) (q : List HostOp) : (setQueue k q s).port = s.port := rfl
@[simp] theorem setQueue_stalled (k : Nat) (q : List HostOp) : (setQueue k q s).stalled = s.stalled := rfl
@[simp] theorem setQueue_turn (k : Nat) (q : List HostOp) : (setQueue k q s).turn = s.turn := rfl
@[simp] theorem setQueue_schedule (k : Nat) (q : List HostOp) : (setQueue k q s).schedule = s.schedule := rfl
@[simp] theorem setQueue_readLog (k : Nat) (q : List HostOp) : (setQueue k q s).readLog = s.readLog := rfl
@[simp] theorem setQueue_draws (k : Nat) (q : List HostOp) : (setQueue k q s).draws = s.draws := rfl

/-! ### stall -/

@[simp] theorem stall_build (k : Nat) : (stall k s).build = s.build := rfl
@[simp] theorem stall_config (k : Nat) : (stall k s).config = s.config := rfl
@[simp] theorem stall_frameN (k : Nat) : (stall k s).frameN = s.frameN := rfl
@[simp] theorem stall_midCode (k : Nat) : (stall k s).midCode = s.midCode := rfl
@[simp] theorem stall_err (k : Nat) : (stall k s).err = s.err := rfl
@[simp] theorem stall_dropCount (k : Nat) : (stall k s).dropCount = s.dropCount := rfl
@[simp] theorem stall_frameCount (k : Nat) : (stall k s).frameCount = s.frameCount := rfl
@[simp] theorem stall_specSeq (k : Nat) : (stall k s).specSeq = s.specSeq := rfl
@[simp] theorem stall_maxMag (k : Nat) : (stall k s).maxMag = s.maxMag := rfl
@[simp] theorem stall_irqStatus (k : Nat) : (stall k s).irqStatus = s.irqStatus := rfl
@[simp] theorem stall_irqEnable (k : Nat) : (stall k s).irqEnable = s.irqEnable := rfl
@[simp] theorem stall_actN (k : Nat) : (stall k s).actN = s.actN := rfl
@[simp] theorem stall_actConfig (k : Nat) : (stall k s).actConfig = s.actConfig := rfl
@[simp] theorem stall_actMid (k : Nat) : (stall k s).actMid = s.actMid := rfl
@[simp] theorem stall_cfgValid (k : Nat) : (stall k s).cfgValid = s.cfgValid := rfl
@[simp] theorem stall_run (k : Nat) : (stall k s).run = s.run := rfl
@[simp] theorem stall_active (k : Nat) : (stall k s).active = s.active := rfl
@[simp] theorem stall_ready (k : Nat) : (stall k s).ready = s.ready := rfl
@[simp] theorem stall_held (k : Nat) : (stall k s).held = s.held := rfl
@[simp] theorem stall_wp (k : Nat) : (stall k s).wp = s.wp := rfl
@[simp] theorem stall_busy (k : Nat) : (stall k s).busy = s.busy := rfl
@[simp] theorem stall_pend (k : Nat) : (stall k s).pend = s.pend := rfl
@[simp] theorem stall_mem (k : Nat) : (stall k s).mem = s.mem := rfl
@[simp] theorem stall_resetHeld (k : Nat) : (stall k s).resetHeld = s.resetHeld := rfl
@[simp] theorem stall_masters (k : Nat) : (stall k s).masters = s.masters := rfl
@[simp] theorem stall_port (k : Nat) : (stall k s).port = s.port := rfl
@[simp] theorem stall_stalled (k : Nat) : (stall k s).stalled = if k ∈ s.stalled then s.stalled else s.stalled ++ [k] := rfl
@[simp] theorem stall_turn (k : Nat) : (stall k s).turn = s.turn := rfl
@[simp] theorem stall_schedule (k : Nat) : (stall k s).schedule = s.schedule := rfl
@[simp] theorem stall_readLog (k : Nat) : (stall k s).readLog = s.readLog := rfl
@[simp] theorem stall_draws (k : Nat) : (stall k s).draws = s.draws := rfl

/-! ### returned -/

@[simp] theorem returned_build (k : Nat) (a : Offset) (v : Word × Nat) : (returned k a v s).build = s.build := rfl
@[simp] theorem returned_config (k : Nat) (a : Offset) (v : Word × Nat) : (returned k a v s).config = s.config := rfl
@[simp] theorem returned_frameN (k : Nat) (a : Offset) (v : Word × Nat) : (returned k a v s).frameN = s.frameN := rfl
@[simp] theorem returned_midCode (k : Nat) (a : Offset) (v : Word × Nat) : (returned k a v s).midCode = s.midCode := rfl
@[simp] theorem returned_err (k : Nat) (a : Offset) (v : Word × Nat) : (returned k a v s).err = s.err := rfl
@[simp] theorem returned_dropCount (k : Nat) (a : Offset) (v : Word × Nat) : (returned k a v s).dropCount = s.dropCount := rfl
@[simp] theorem returned_frameCount (k : Nat) (a : Offset) (v : Word × Nat) : (returned k a v s).frameCount = s.frameCount := rfl
@[simp] theorem returned_specSeq (k : Nat) (a : Offset) (v : Word × Nat) : (returned k a v s).specSeq = s.specSeq := rfl
@[simp] theorem returned_maxMag (k : Nat) (a : Offset) (v : Word × Nat) : (returned k a v s).maxMag = s.maxMag := rfl
@[simp] theorem returned_irqStatus (k : Nat) (a : Offset) (v : Word × Nat) : (returned k a v s).irqStatus = s.irqStatus := rfl
@[simp] theorem returned_irqEnable (k : Nat) (a : Offset) (v : Word × Nat) : (returned k a v s).irqEnable = s.irqEnable := rfl
@[simp] theorem returned_actN (k : Nat) (a : Offset) (v : Word × Nat) : (returned k a v s).actN = s.actN := rfl
@[simp] theorem returned_actConfig (k : Nat) (a : Offset) (v : Word × Nat) : (returned k a v s).actConfig = s.actConfig := rfl
@[simp] theorem returned_actMid (k : Nat) (a : Offset) (v : Word × Nat) : (returned k a v s).actMid = s.actMid := rfl
@[simp] theorem returned_cfgValid (k : Nat) (a : Offset) (v : Word × Nat) : (returned k a v s).cfgValid = s.cfgValid := rfl
@[simp] theorem returned_run (k : Nat) (a : Offset) (v : Word × Nat) : (returned k a v s).run = s.run := rfl
@[simp] theorem returned_active (k : Nat) (a : Offset) (v : Word × Nat) : (returned k a v s).active = s.active := rfl
@[simp] theorem returned_ready (k : Nat) (a : Offset) (v : Word × Nat) : (returned k a v s).ready = s.ready := rfl
@[simp] theorem returned_held (k : Nat) (a : Offset) (v : Word × Nat) : (returned k a v s).held = s.held := rfl
@[simp] theorem returned_wp (k : Nat) (a : Offset) (v : Word × Nat) : (returned k a v s).wp = s.wp := rfl
@[simp] theorem returned_busy (k : Nat) (a : Offset) (v : Word × Nat) : (returned k a v s).busy = s.busy := rfl
@[simp] theorem returned_pend (k : Nat) (a : Offset) (v : Word × Nat) : (returned k a v s).pend = s.pend := rfl
@[simp] theorem returned_mem (k : Nat) (a : Offset) (v : Word × Nat) : (returned k a v s).mem = s.mem := rfl
@[simp] theorem returned_resetHeld (k : Nat) (a : Offset) (v : Word × Nat) : (returned k a v s).resetHeld = s.resetHeld := rfl
@[simp] theorem returned_masters (k : Nat) (a : Offset) (v : Word × Nat) : (returned k a v s).masters = s.masters := rfl
@[simp] theorem returned_port (k : Nat) (a : Offset) (v : Word × Nat) : (returned k a v s).port = s.port := rfl
@[simp] theorem returned_stalled (k : Nat) (a : Offset) (v : Word × Nat) : (returned k a v s).stalled = s.stalled := rfl
@[simp] theorem returned_turn (k : Nat) (a : Offset) (v : Word × Nat) : (returned k a v s).turn = s.turn := rfl
@[simp] theorem returned_schedule (k : Nat) (a : Offset) (v : Word × Nat) : (returned k a v s).schedule = s.schedule := rfl
@[simp] theorem returned_readLog (k : Nat) (a : Offset) (v : Word × Nat) : (returned k a v s).readLog = ⟨k, a, v.1⟩ :: s.readLog := rfl
@[simp] theorem returned_draws (k : Nat) (a : Offset) (v : Word × Nat) : (returned k a v s).draws = v.2 := rfl

/-! ### processEffect: what it leaves alone -/

@[simp] theorem processEffect_build : (processEffect s).build = s.build := by simp [processEffect]
@[simp] theorem processEffect_config : (processEffect s).config = s.config := by simp [processEffect]
@[simp] theorem processEffect_frameN : (processEffect s).frameN = s.frameN := by simp [processEffect]
@[simp] theorem processEffect_midCode : (processEffect s).midCode = s.midCode := by simp [processEffect]
@[simp] theorem processEffect_err : (processEffect s).err = s.err := by simp [processEffect]
@[simp] theorem processEffect_dropCount : (processEffect s).dropCount = s.dropCount := by simp [processEffect]
@[simp] theorem processEffect_frameCount : (processEffect s).frameCount = s.frameCount := by simp [processEffect]
@[simp] theorem processEffect_specSeq : (processEffect s).specSeq = s.specSeq + 1#32 := by simp [processEffect]
@[simp] theorem processEffect_irqStatus : (processEffect s).irqStatus = s.irqStatus := by simp [processEffect]
@[simp] theorem processEffect_irqEnable : (processEffect s).irqEnable = s.irqEnable := by simp [processEffect]
@[simp] theorem processEffect_actN : (processEffect s).actN = s.actN := by simp [processEffect]
@[simp] theorem processEffect_actConfig : (processEffect s).actConfig = s.actConfig := by simp [processEffect]
@[simp] theorem processEffect_actMid : (processEffect s).actMid = s.actMid := by simp [processEffect]
@[simp] theorem processEffect_cfgValid : (processEffect s).cfgValid = s.cfgValid := by simp [processEffect]
@[simp] theorem processEffect_run : (processEffect s).run = s.run := by simp [processEffect]
@[simp] theorem processEffect_active : (processEffect s).active = s.active := by simp [processEffect]
@[simp] theorem processEffect_ready : (processEffect s).ready = s.ready := by simp [processEffect]
@[simp] theorem processEffect_held : (processEffect s).held = s.held.set s.claimSlot false := by simp [processEffect]
@[simp] theorem processEffect_wp : (processEffect s).wp = s.wp := by simp [processEffect]
@[simp] theorem processEffect_busy : (processEffect s).busy = s.busy := by simp [processEffect]
@[simp] theorem processEffect_pend : (processEffect s).pend = s.pend := by simp [processEffect]
@[simp] theorem processEffect_resetHeld : (processEffect s).resetHeld = s.resetHeld := by simp [processEffect]
@[simp] theorem processEffect_masters : (processEffect s).masters = s.masters := by simp [processEffect]
@[simp] theorem processEffect_port : (processEffect s).port = s.port := by simp [processEffect]
@[simp] theorem processEffect_stalled : (processEffect s).stalled = s.stalled := by simp [processEffect]
@[simp] theorem processEffect_turn : (processEffect s).turn = s.turn := by simp [processEffect]
@[simp] theorem processEffect_schedule : (processEffect s).schedule = s.schedule := by simp [processEffect]
@[simp] theorem processEffect_readLog : (processEffect s).readLog = s.readLog := by simp [processEffect]

/-! ### claimEffect: what it leaves alone -/

@[simp] theorem claimEffect_build : (claimEffect s).build = s.build := by unfold claimEffect; split <;> rfl
@[simp] theorem claimEffect_config : (claimEffect s).config = s.config := by unfold claimEffect; split <;> rfl
@[simp] theorem claimEffect_frameN : (claimEffect s).frameN = s.frameN := by unfold claimEffect; split <;> rfl
@[simp] theorem claimEffect_midCode : (claimEffect s).midCode = s.midCode := by unfold claimEffect; split <;> rfl
@[simp] theorem claimEffect_err : (claimEffect s).err = s.err := by unfold claimEffect; split <;> rfl
@[simp] theorem claimEffect_dropCount : (claimEffect s).dropCount = s.dropCount := by unfold claimEffect; split <;> rfl
@[simp] theorem claimEffect_frameCount : (claimEffect s).frameCount = s.frameCount := by unfold claimEffect; split <;> rfl
@[simp] theorem claimEffect_specSeq : (claimEffect s).specSeq = s.specSeq := by unfold claimEffect; split <;> rfl
@[simp] theorem claimEffect_maxMag : (claimEffect s).maxMag = s.maxMag := by unfold claimEffect; split <;> rfl
@[simp] theorem claimEffect_irqStatus : (claimEffect s).irqStatus = s.irqStatus := by unfold claimEffect; split <;> rfl
@[simp] theorem claimEffect_irqEnable : (claimEffect s).irqEnable = s.irqEnable := by unfold claimEffect; split <;> rfl
@[simp] theorem claimEffect_actN : (claimEffect s).actN = s.actN := by unfold claimEffect; split <;> rfl
@[simp] theorem claimEffect_actConfig : (claimEffect s).actConfig = s.actConfig := by unfold claimEffect; split <;> rfl
@[simp] theorem claimEffect_actMid : (claimEffect s).actMid = s.actMid := by unfold claimEffect; split <;> rfl
@[simp] theorem claimEffect_cfgValid : (claimEffect s).cfgValid = s.cfgValid := by unfold claimEffect; split <;> rfl
@[simp] theorem claimEffect_run : (claimEffect s).run = s.run := by unfold claimEffect; split <;> rfl
@[simp] theorem claimEffect_active : (claimEffect s).active = s.active := by unfold claimEffect; split <;> rfl
@[simp] theorem claimEffect_wp : (claimEffect s).wp = s.wp := by unfold claimEffect; split <;> rfl
@[simp] theorem claimEffect_busy : (claimEffect s).busy = s.busy := by unfold claimEffect; split <;> rfl
@[simp] theorem claimEffect_pend : (claimEffect s).pend = s.pend := by unfold claimEffect; split <;> rfl
@[simp] theorem claimEffect_mem : (claimEffect s).mem = s.mem := by unfold claimEffect; split <;> rfl
@[simp] theorem claimEffect_resetHeld : (claimEffect s).resetHeld = s.resetHeld := by unfold claimEffect; split <;> rfl
@[simp] theorem claimEffect_masters : (claimEffect s).masters = s.masters := by unfold claimEffect; split <;> rfl
@[simp] theorem claimEffect_port : (claimEffect s).port = s.port := by unfold claimEffect; split <;> rfl
@[simp] theorem claimEffect_stalled : (claimEffect s).stalled = s.stalled := by unfold claimEffect; split <;> rfl
@[simp] theorem claimEffect_turn : (claimEffect s).turn = s.turn := by unfold claimEffect; split <;> rfl
@[simp] theorem claimEffect_schedule : (claimEffect s).schedule = s.schedule := by unfold claimEffect; split <;> rfl
@[simp] theorem claimEffect_readLog : (claimEffect s).readLog = s.readLog := by unfold claimEffect; split <;> rfl
@[simp] theorem claimEffect_draws : (claimEffect s).draws = s.draws := by unfold claimEffect; split <;> rfl

/-! ### dropUnclaimed: what it leaves alone -/

@[simp] theorem dropUnclaimed_build : (dropUnclaimed s).build = s.build := by unfold dropUnclaimed; split <;> rfl
@[simp] theorem dropUnclaimed_config : (dropUnclaimed s).config = s.config := by unfold dropUnclaimed; split <;> rfl
@[simp] theorem dropUnclaimed_frameN : (dropUnclaimed s).frameN = s.frameN := by unfold dropUnclaimed; split <;> rfl
@[simp] theorem dropUnclaimed_midCode : (dropUnclaimed s).midCode = s.midCode := by unfold dropUnclaimed; split <;> rfl
@[simp] theorem dropUnclaimed_err : (dropUnclaimed s).err = s.err := by unfold dropUnclaimed; split <;> rfl
@[simp] theorem dropUnclaimed_frameCount : (dropUnclaimed s).frameCount = s.frameCount := by unfold dropUnclaimed; split <;> rfl
@[simp] theorem dropUnclaimed_specSeq : (dropUnclaimed s).specSeq = s.specSeq := by unfold dropUnclaimed; split <;> rfl
@[simp] theorem dropUnclaimed_maxMag : (dropUnclaimed s).maxMag = s.maxMag := by unfold dropUnclaimed; split <;> rfl
@[simp] theorem dropUnclaimed_irqEnable : (dropUnclaimed s).irqEnable = s.irqEnable := by unfold dropUnclaimed; split <;> rfl
@[simp] theorem dropUnclaimed_actN : (dropUnclaimed s).actN = s.actN := by unfold dropUnclaimed; split <;> rfl
@[simp] theorem dropUnclaimed_actConfig : (dropUnclaimed s).actConfig = s.actConfig := by unfold dropUnclaimed; split <;> rfl
@[simp] theorem dropUnclaimed_actMid : (dropUnclaimed s).actMid = s.actMid := by unfold dropUnclaimed; split <;> rfl
@[simp] theorem dropUnclaimed_cfgValid : (dropUnclaimed s).cfgValid = s.cfgValid := by unfold dropUnclaimed; split <;> rfl
@[simp] theorem dropUnclaimed_run : (dropUnclaimed s).run = s.run := by unfold dropUnclaimed; split <;> rfl
@[simp] theorem dropUnclaimed_active : (dropUnclaimed s).active = s.active := by unfold dropUnclaimed; split <;> rfl
@[simp] theorem dropUnclaimed_held : (dropUnclaimed s).held = s.held := by unfold dropUnclaimed; split <;> rfl
@[simp] theorem dropUnclaimed_wp : (dropUnclaimed s).wp = s.wp := by unfold dropUnclaimed; split <;> rfl
@[simp] theorem dropUnclaimed_busy : (dropUnclaimed s).busy = s.busy := by unfold dropUnclaimed; split <;> rfl
@[simp] theorem dropUnclaimed_pend : (dropUnclaimed s).pend = s.pend := by unfold dropUnclaimed; split <;> rfl
@[simp] theorem dropUnclaimed_mem : (dropUnclaimed s).mem = s.mem := by unfold dropUnclaimed; split <;> rfl
@[simp] theorem dropUnclaimed_resetHeld : (dropUnclaimed s).resetHeld = s.resetHeld := by unfold dropUnclaimed; split <;> rfl
@[simp] theorem dropUnclaimed_masters : (dropUnclaimed s).masters = s.masters := by unfold dropUnclaimed; split <;> rfl
@[simp] theorem dropUnclaimed_port : (dropUnclaimed s).port = s.port := by unfold dropUnclaimed; split <;> rfl
@[simp] theorem dropUnclaimed_stalled : (dropUnclaimed s).stalled = s.stalled := by unfold dropUnclaimed; split <;> rfl
@[simp] theorem dropUnclaimed_turn : (dropUnclaimed s).turn = s.turn := by unfold dropUnclaimed; split <;> rfl
@[simp] theorem dropUnclaimed_schedule : (dropUnclaimed s).schedule = s.schedule := by unfold dropUnclaimed; split <;> rfl
@[simp] theorem dropUnclaimed_readLog : (dropUnclaimed s).readLog = s.readLog := by unfold dropUnclaimed; split <;> rfl
@[simp] theorem dropUnclaimed_draws : (dropUnclaimed s).draws = s.draws := by unfold dropUnclaimed; split <;> rfl

/-! ### frameComplete: what it leaves alone -/

@[simp] theorem frameComplete_build : (frameComplete s).build = s.build := by unfold frameComplete; split <;> simp [dropNewest]
@[simp] theorem frameComplete_config : (frameComplete s).config = s.config := by unfold frameComplete; split <;> simp [dropNewest]
@[simp] theorem frameComplete_frameN : (frameComplete s).frameN = s.frameN := by unfold frameComplete; split <;> simp [dropNewest]
@[simp] theorem frameComplete_midCode : (frameComplete s).midCode = s.midCode := by unfold frameComplete; split <;> simp [dropNewest]
@[simp] theorem frameComplete_err : (frameComplete s).err = s.err := by unfold frameComplete; split <;> simp [dropNewest]
@[simp] theorem frameComplete_specSeq : (frameComplete s).specSeq = s.specSeq := by unfold frameComplete; split <;> simp [dropNewest]
@[simp] theorem frameComplete_maxMag : (frameComplete s).maxMag = s.maxMag := by unfold frameComplete; split <;> simp [dropNewest]
@[simp] theorem frameComplete_irqEnable : (frameComplete s).irqEnable = s.irqEnable := by unfold frameComplete; split <;> simp [dropNewest]
@[simp] theorem frameComplete_actN : (frameComplete s).actN = s.actN := by unfold frameComplete; split <;> simp [dropNewest]
@[simp] theorem frameComplete_actConfig : (frameComplete s).actConfig = s.actConfig := by unfold frameComplete; split <;> simp [dropNewest]
@[simp] theorem frameComplete_actMid : (frameComplete s).actMid = s.actMid := by unfold frameComplete; split <;> simp [dropNewest]
@[simp] theorem frameComplete_cfgValid : (frameComplete s).cfgValid = s.cfgValid := by unfold frameComplete; split <;> simp [dropNewest]
@[simp] theorem frameComplete_run : (frameComplete s).run = s.run := by unfold frameComplete; split <;> simp [dropNewest]
@[simp] theorem frameComplete_held : (frameComplete s).held = s.held := by unfold frameComplete; split <;> simp [dropNewest]
@[simp] theorem frameComplete_wp : (frameComplete s).wp = 0#15 := by unfold frameComplete; split <;> simp [dropNewest]
@[simp] theorem frameComplete_busy : (frameComplete s).busy = s.busy := by unfold frameComplete; split <;> simp [dropNewest]
@[simp] theorem frameComplete_pend : (frameComplete s).pend = s.pend := by unfold frameComplete; split <;> simp [dropNewest]
@[simp] theorem frameComplete_mem : (frameComplete s).mem = s.mem := by unfold frameComplete; split <;> simp [dropNewest]
@[simp] theorem frameComplete_resetHeld : (frameComplete s).resetHeld = s.resetHeld := by unfold frameComplete; split <;> simp [dropNewest]
@[simp] theorem frameComplete_masters : (frameComplete s).masters = s.masters := by unfold frameComplete; split <;> simp [dropNewest]
@[simp] theorem frameComplete_port : (frameComplete s).port = s.port := by unfold frameComplete; split <;> simp [dropNewest]
@[simp] theorem frameComplete_stalled : (frameComplete s).stalled = s.stalled := by unfold frameComplete; split <;> simp [dropNewest]
@[simp] theorem frameComplete_turn : (frameComplete s).turn = s.turn := by unfold frameComplete; split <;> simp [dropNewest]
@[simp] theorem frameComplete_schedule : (frameComplete s).schedule = s.schedule := by unfold frameComplete; split <;> simp [dropNewest]
@[simp] theorem frameComplete_readLog : (frameComplete s).readLog = s.readLog := by unfold frameComplete; split <;> simp [dropNewest]
@[simp] theorem frameComplete_draws : (frameComplete s).draws = s.draws := by unfold frameComplete; split <;> simp [dropNewest]

/-! ### writeReg: what it leaves alone -/

@[simp] theorem writeReg_build (r : Reg) (v : Word) : (writeReg r v s).build = s.build := by cases r <;> rfl
@[simp] theorem writeReg_specSeq (r : Reg) (v : Word) : (writeReg r v s).specSeq = s.specSeq := by cases r <;> rfl
@[simp] theorem writeReg_maxMag (r : Reg) (v : Word) : (writeReg r v s).maxMag = s.maxMag := by cases r <;> rfl
@[simp] theorem writeReg_actN (r : Reg) (v : Word) : (writeReg r v s).actN = s.actN := by cases r <;> rfl
@[simp] theorem writeReg_actConfig (r : Reg) (v : Word) : (writeReg r v s).actConfig = s.actConfig := by cases r <;> rfl
@[simp] theorem writeReg_actMid (r : Reg) (v : Word) : (writeReg r v s).actMid = s.actMid := by cases r <;> rfl
@[simp] theorem writeReg_cfgValid (r : Reg) (v : Word) : (writeReg r v s).cfgValid = s.cfgValid := by cases r <;> rfl
@[simp] theorem writeReg_run (r : Reg) (v : Word) : (writeReg r v s).run = s.run := by cases r <;> rfl
@[simp] theorem writeReg_active (r : Reg) (v : Word) : (writeReg r v s).active = s.active := by cases r <;> rfl
@[simp] theorem writeReg_ready (r : Reg) (v : Word) : (writeReg r v s).ready = s.ready := by cases r <;> rfl
@[simp] theorem writeReg_held (r : Reg) (v : Word) : (writeReg r v s).held = s.held := by cases r <;> rfl
@[simp] theorem writeReg_wp (r : Reg) (v : Word) : (writeReg r v s).wp = s.wp := by cases r <;> rfl
@[simp] theorem writeReg_busy (r : Reg) (v : Word) : (writeReg r v s).busy = s.busy := by cases r <;> rfl
@[simp] theorem writeReg_pend (r : Reg) (v : Word) : (writeReg r v s).pend = s.pend := by cases r <;> rfl
@[simp] theorem writeReg_mem (r : Reg) (v : Word) : (writeReg r v s).mem = s.mem := by cases r <;> rfl
@[simp] theorem writeReg_resetHeld (r : Reg) (v : Word) : (writeReg r v s).resetHeld = s.resetHeld := by cases r <;> rfl
@[simp] theorem writeReg_masters (r : Reg) (v : Word) : (writeReg r v s).masters = s.masters := by cases r <;> rfl
@[simp] theorem writeReg_port (r : Reg) (v : Word) : (writeReg r v s).port = s.port := by cases r <;> rfl
@[simp] theorem writeReg_stalled (r : Reg) (v : Word) : (writeReg r v s).stalled = s.stalled := by cases r <;> rfl
@[simp] theorem writeReg_turn (r : Reg) (v : Word) : (writeReg r v s).turn = s.turn := by cases r <;> rfl
@[simp] theorem writeReg_schedule (r : Reg) (v : Word) : (writeReg r v s).schedule = s.schedule := by cases r <;> rfl
@[simp] theorem writeReg_readLog (r : Reg) (v : Word) : (writeReg r v s).readLog = s.readLog := by cases r <;> rfl
@[simp] theorem writeReg_draws (r : Reg) (v : Word) : (writeReg r v s).draws = s.draws := by cases r <;> rfl

end

end Sys2Proof.Machine
end

