-- ==== Sys2Proof/Laws/Effects.lean ====
section
/-! SUPPORT. What the effects of the commands write, said once: how many elements each produces, which bytes of RAM each
leaves alone, and the elements each leaves at their places. -/

namespace Sys2Proof.Machine

/-! ### The numerics record -/

/-- NUM is the build's, so a step, which keeps the build, keeps it. -/
theorem num_of_build {s t : State} (h : t.build = s.build) : t.num = s.num := by rw [State.num, State.num, h]

/-! ### How many elements an effect produces -/

@[simp] theorem twiddleTable_length (num : Numerics) (nmax n : Nat) : (twiddleTable num nmax n).length = nmax / 2 := by
  simp [twiddleTable]

@[simp] theorem windowTable_length (num : Numerics) (nmax kind n : Nat) : (windowTable num nmax kind n).length = nmax := by
  simp [windowTable]

theorem frameCodes_length (s : State) : (frameCodes s).1.length = s.activeN := Memory.readHalves_length _ _ _ _

theorem windowCoefficients_length (s : State) : (windowCoefficients s).1.length = s.activeN :=
  Memory.readWords_length _ _ _ _

@[simp] theorem windowedSamples_length (s : State) : (windowedSamples s).length = s.activeN := by
  simp [windowedSamples, frameCodes_length, windowCoefficients_length]

theorem fftInput_length (src : Bank) (s : State) : (fftInput src s).1.length = s.activeN :=
  Memory.readComplexes_length _ _ _ _

theorem fftTwiddles_length (src : Bank) (s : State) : (fftTwiddles src s).1.length = s.activeN / 2 :=
  Memory.readComplexes_length _ _ _ _

/-- A fold whose step keeps the length keeps the length. -/
theorem length_foldl {α β : Type} (f : List α → β → List α) (h : ∀ xs b, (f xs b).length = xs.length) (bs : List β)
    (xs : List α) : (bs.foldl f xs).length = xs.length := by
  induction bs generalizing xs with
  | nil => rfl
  | cons b bs ih => rw [List.foldl_cons, ih, h]

@[simp] theorem butterfly_length (num : Numerics) (w : ComplexValue) (half i : Nat) (ys : List ComplexValue) :
    (butterfly num w half i ys).length = ys.length := by simp [butterfly]

@[simp] theorem stage_length (num : Numerics) (tw : List ComplexValue) (n half : Nat) (ys : List ComplexValue) :
    (stage num tw n half ys).length = ys.length :=
  length_foldl _ (fun _ _ => length_foldl _ (fun _ _ => butterfly_length _ _ _ _ _) _ _) _ _

@[simp] theorem stages_length (num : Numerics) (tw : List ComplexValue) (m n : Nat) (ys : List ComplexValue) :
    (stages num tw m n ys).length = ys.length :=
  length_foldl _ (fun _ _ => stage_length _ _ _ _ _) _ _

@[simp] theorem permuteInPlace_length (m n : Nat) (xs : List ComplexValue) :
    (permuteInPlace m n xs).length = xs.length :=
  length_foldl _ (fun ys i => by split <;> simp) _ _

@[simp] theorem permuteInto_length (m n : Nat) (xs dst : List ComplexValue) :
    (permuteInto m n xs dst).length = dst.length :=
  length_foldl _ (fun ys i => by simp) _ _

/-- The transform of n elements has n elements. -/
theorem transform_length (num : Numerics) (inPlace : Bool) (tw : List ComplexValue) (n : Nat) (xs : List ComplexValue)
    (h : xs.length = n) : (transform num inPlace tw n xs).length = n := by
  cases inPlace <;> simp [transform, scale, h]

@[simp] theorem fftOutput_length (src dst : Bank) (s : State) : (fftOutput src dst s).length = s.activeN :=
  transform_length _ _ _ _ _ (fftInput_length src s)

@[simp] theorem magInput_length (src : Bank) (s : State) : (magInput src s).1.length = s.activeN / 2 :=
  Memory.readComplexes_length _ _ _ _

theorem normMagnitudes_length (s : State) : (normMagnitudes s).1.length = s.activeN / 2 :=
  Memory.readWords_length _ _ _ _

@[simp] theorem normCodes_length (s : State) : (normCodes s).length = s.activeN / 2 := by
  rw [normCodes, List.length_map]
  exact Memory.readWords_length _ _ _ _

/-! ### The bytes an effect leaves alone -/

/-- CONFIGURE writes the tables only (R110). -/
theorem configureMem_byte? (s : State) (a : Nat)
    (h : a < 0x40000 ∨ (0x40000 + 8 * (s.build.nmax / 2) ≤ a ∧ a < 0x50000) ∨ 0x50000 + 4 * s.build.nmax ≤ a) :
    (configureMem s).byte? a = s.mem.byte? a := by
  have h1 : ∀ m : Memory, (m.writeComplexes .twid (twiddleTable s.num s.build.nmax s.pend.snapshot.n.toNat)).byte? a =
      m.byte? a := fun m =>
    Memory.byte?_writeComplexes_of_outside m _ _ a (by rw [twiddleTable_length]; simp only [Window.base]; omega)
  have h2 : ∀ m : Memory, (m.writeWords Window.win.base (windowTable s.num s.build.nmax s.pend.snapshot.config.winKind.toNat
      s.pend.snapshot.n.toNat)).byte? a = m.byte? a := fun m =>
    Memory.byte?_writeWords_of_outside m _ _ a (by rw [windowTable_length]; simp only [Window.base]; omega)
  unfold configureMem
  simp only
  split <;> split <;> simp only [h1, h2]

/-- CONVERT writes the first N elements of bank A only (R139). -/
theorem convertEffect_byte? (s : State) (a : Nat) (h : a < 0x60000 ∨ 0x60000 + 8 * s.activeN ≤ a) :
    (convertEffect s).mem.byte? a = s.mem.byte? a :=
  Memory.byte?_writeComplexes_of_outside _ _ _ a (by rw [windowedSamples_length]; exact h)

/-- FFT writes the first N elements of the destination bank only (R124). -/
theorem fftEffect_byte? (src dst : Bank) (s : State) (a : Nat)
    (h : a < (workWindow dst).base ∨ (workWindow dst).base + 8 * s.activeN ≤ a) :
    (fftEffect src dst s).mem.byte? a = s.mem.byte? a :=
  Memory.byte?_writeComplexes_of_outside _ _ _ a (by rw [fftOutput_length]; exact h)

/-- MAG writes the first N/2 magnitudes only. -/
theorem magEffect_byte? (src : Bank) (s : State) (a : Nat) (h : a < 0xA0000 ∨ 0xA0000 + 4 * (s.activeN / 2) ≤ a) :
    (magEffect src s).mem.byte? a = s.mem.byte? a :=
  Memory.byte?_writeWords_of_outside _ _ _ a (by rw [List.length_map, magInput_length]; exact h)

/-- NORM writes the first N/2 codes only. -/
theorem normEffect_byte? (s : State) (a : Nat) (h : a < 0xB0000 ∨ 0xB0000 + 4 * (s.activeN / 2) ≤ a) :
    (normEffect s).mem.byte? a = s.mem.byte? a :=
  Memory.byte?_writeHalves_of_outside _ _ _ a (by rw [normCodes_length]; exact h)

/-- PROCESS writes bank A, MAG and SPEC only (R170). -/
theorem processEffect_byte? (s : State) (a : Nat) (h1 : a < 0x60000 ∨ 0x60000 + 8 * s.activeN ≤ a)
    (h2 : a < 0xA0000 ∨ 0xA0000 + 4 * (s.activeN / 2) ≤ a) (h3 : a < 0xB0000 ∨ 0xB0000 + 4 * (s.activeN / 2) ≤ a) :
    (processEffect s).mem.byte? a = s.mem.byte? a := by
  unfold processEffect
  rw [normEffect_byte? _ a (by simpa [State.activeN] using h3), magEffect_byte? _ _ a (by simpa [State.activeN] using h2),
    fftEffect_byte? _ _ _ a (by simpa [State.activeN, workWindow, Window.base] using h1), convertEffect_byte? _ a h1]

/-- A sample's write leaves every byte outside its element alone (R144). -/
theorem storeSample_byte? (c : Half) (s : State) (a : Nat) (h : a < sampleOffset s ∨ sampleOffset s + 4 ≤ a) :
    (storeSample c s).mem.byte? a = s.mem.byte? a :=
  Memory.byte?_writeHalves_of_outside _ _ _ a (by simpa using h)

/-- A sample's write leaves the stored code at its place (R144). -/
theorem storeSample_half? (c : Half) (s : State) :
    (storeSample c s).mem.half? (sampleOffset s) = some (storedCode s.sampleBits c) := by
  simpa using Memory.half?_writeHalves s.mem (sampleOffset s) [storedCode s.sampleBits c] 0 (by simp)

/-! ### No effect reads `busy` or IRQ_STATUS -/

theorem convertEffect_flags (b : Bool) (q : BitVec 4) (s : State) : convertEffect { s with busy := b, irqStatus := q } =
    { convertEffect s with busy := b, irqStatus := q } := rfl

theorem fftEffect_flags (src dst : Bank) (b : Bool) (q : BitVec 4) (s : State) :
    fftEffect src dst { s with busy := b, irqStatus := q } = { fftEffect src dst s with busy := b, irqStatus := q } := rfl

theorem magEffect_flags (src : Bank) (b : Bool) (q : BitVec 4) (s : State) :
    magEffect src { s with busy := b, irqStatus := q } = { magEffect src s with busy := b, irqStatus := q } := rfl

theorem normEffect_flags (b : Bool) (q : BitVec 4) (s : State) : normEffect { s with busy := b, irqStatus := q } =
    { normEffect s with busy := b, irqStatus := q } := rfl

end Sys2Proof.Machine
end

