-- ==== Sys2Proof/Laws/Numerics.lean ====
section
/-! SUPPORT. The binary32 primitives, said once: what an encoding stands for, that encodings of finite values are ordered as
their values are, and between which two neighbours the rounding chooses. -/

namespace Sys2Proof.NUM

/-! ### Encodings and their values -/

theorem magBits_ofNat (y : Nat) (h : y < 2 ^ 31) : magBits (BitVec.ofNat 32 y) = y := by
  unfold magBits
  rw [BitVec.toNat_ofNat]
  omega

/-- The value of an encoding by its exponent and significand: `k` units of 2^E, for a subnormal (`E` = 0) or a 24-bit `k`; the
carry `k` = 2^24 is the next exponent's first value. -/
theorem units_ofNat (y E k : Nat) (hy : y = E * 2 ^ 23 + k) (hk : k ≤ 2 ^ 24) (hE : E = 0 ∨ 2 ^ 23 ≤ k)
    (hb : y < 2 ^ 31) : units (BitVec.ofNat 32 y) = k * 2 ^ E := by
  unfold units
  rw [magBits_ofNat _ hb]
  simp only
  by_cases h1 : k = 2 ^ 24
  · have e1 : y / 2 ^ 23 = E + 2 := by omega
    have e2 : y % 2 ^ 23 = 0 := by omega
    rw [e1, e2, if_neg (by omega), Nat.add_succ_sub_one, Nat.pow_succ, h1]
    ring
  · by_cases h2 : k < 2 ^ 23
    · have h0 : E = 0 := by omega
      have e1 : y / 2 ^ 23 = 0 := by omega
      have e2 : y % 2 ^ 23 = k := by omega
      rw [e1, e2, if_pos rfl, h0, Nat.pow_zero, Nat.mul_one]
    · have e1 : y / 2 ^ 23 = E + 1 := by omega
      have e2 : y % 2 ^ 23 + 2 ^ 23 = k := by omega
      rw [e1, e2, if_neg (by omega), Nat.add_sub_cancel]

/-- Every finite encoding has such an exponent and significand. -/
theorem encoding_split (y : Nat) : ∃ E k, y = E * 2 ^ 23 + k ∧ k < 2 ^ 24 ∧ (E = 0 ∨ 2 ^ 23 ≤ k) := by
  by_cases h : y < 2 ^ 24
  · exact ⟨0, y, by omega, h, .inl rfl⟩
  · exact ⟨y / 2 ^ 23 - 1, y % 2 ^ 23 + 2 ^ 23, by omega, by omega, .inr (by omega)⟩

/-- The next encoding has a larger value. -/
theorem units_lt_succ (y : Nat) (h : y + 1 < 2 ^ 31) :
    units (BitVec.ofNat 32 y) < units (BitVec.ofNat 32 (y + 1)) := by
  obtain ⟨E, k, hy, hk, hE⟩ := encoding_split y
  rw [units_ofNat y E k hy (by omega) hE (by omega), units_ofNat (y + 1) E (k + 1) (by omega) (by omega) (by omega) h]
  exact Nat.mul_lt_mul_of_pos_right (Nat.lt_succ_self k) (by positivity)

/-- Encodings of non-negative finite values are ordered as their values are. -/
theorem units_le (a b : Nat) (h : a ≤ b) (hb : b < 2 ^ 31) :
    units (BitVec.ofNat 32 a) ≤ units (BitVec.ofNat 32 b) := by
  induction b with
  | zero => obtain rfl : a = 0 := by omega
            exact le_rfl
  | succ b ih =>
    by_cases h' : a = b + 1
    · subst h'; exact le_rfl
    · exact (ih (by omega) (by omega)).trans (units_lt_succ b hb).le

theorem units_lt (a b : Nat) (h : a < b) (hb : b < 2 ^ 31) :
    units (BitVec.ofNat 32 a) < units (BitVec.ofNat 32 b) :=
  lt_of_lt_of_le (units_lt_succ a (by omega)) (units_le (a + 1) b h hb)

/-- An encoding's value depends on bits 30:0 only. -/
theorem units_magBits (x : Word) : units x = units (BitVec.ofNat 32 (magBits x)) := by
  have h : magBits (BitVec.ofNat 32 (magBits x)) = magBits x := magBits_ofNat _ (Nat.mod_lt _ (by positivity))
  unfold units
  rw [h]

@[simp] theorem magBits_pack (s : Bool) (m : Nat) (h : m < 2 ^ 31) : magBits (pack s m) = m := by
  unfold pack magBits
  rw [BitVec.toNat_ofNat]
  cases s <;> (simp; omega)

@[simp] theorem sign_pack (s : Bool) (m : Nat) (h : m < 2 ^ 31) : sign (pack s m) = s := by
  have h32 : ((if s then 2 ^ 31 else 0) + m) < 2 ^ 32 := by split <;> omega
  unfold sign pack
  rw [BitVec.msb_eq_decide, BitVec.toNat_ofNat, Nat.mod_eq_of_lt h32]
  cases s
  · simp; omega
  · simp

theorem units_pack (s : Bool) (m : Nat) (h : m < 2 ^ 31) : units (pack s m) = units (BitVec.ofNat 32 m) := by
  rw [units_magBits, magBits_pack s m h]

theorem magBits_lt (x : Word) : magBits x < 2 ^ 31 := Nat.mod_lt _ (by positivity)

theorem infBits_lt : infBits < 2 ^ 31 := by decide

/-- Sign and absolute-value bits determine an encoding. -/
theorem ext_magBits {x y : Word} (h1 : sign x = sign y) (h2 : magBits x = magBits y) : x = y := by
  apply BitVec.eq_of_toNat_eq
  unfold sign at h1
  unfold magBits at h2
  rw [BitVec.msb_eq_decide, BitVec.msb_eq_decide] at h1
  have hx := x.isLt
  have hy := y.isLt
  simp only [decide_eq_decide] at h1
  omega

/-- An encoding put together up to infinity is no NaN. -/
theorem isNaN_pack (s : Bool) (m : Nat) (h : m ≤ infBits) : isNaN (pack s m) = false := by
  unfold isNaN
  rw [magBits_pack s m (lt_of_le_of_lt h infBits_lt)]
  simpa using h

/-! ### Rounding -/

/-- The exponent part of the rounding of `p / q`. -/
def roundExp (p q : Nat) : Nat := Nat.log2 (p / q) - 23

/-- The significand below `p / q`. -/
def roundSig (p q : Nat) : Nat := p / (q * 2 ^ roundExp p q)

/-- The significand below `p / q` has 24 bits, or fewer for a subnormal. -/
theorem roundSig_bounds (p q : Nat) :
    roundSig p q < 2 ^ 24 ∧ (roundExp p q = 0 ∨ 2 ^ 23 ≤ roundSig p q) := by
  unfold roundSig
  rw [← Nat.div_div_eq_div_mul]
  by_cases hz : p / q = 0
  · simp [hz, roundExp]
  · have h1 := Nat.log2_self_le hz
    have h2 := @Nat.lt_log2_self (p / q)
    generalize hx : p / q = x at *
    have hl : roundExp p q = Nat.log2 x - 23 := by rw [roundExp, hx]
    rw [hl]
    by_cases hs : Nat.log2 x < 24
    · have h0 : Nat.log2 x - 23 = 0 := by omega
      have h3 : 2 ^ (Nat.log2 x + 1) ≤ 2 ^ 24 := Nat.pow_le_pow_right (by omega) (by omega)
      exact ⟨by rw [h0]; simpa using lt_of_lt_of_le h2 h3, .inl h0⟩
    · refine ⟨?_, .inr ?_⟩
      · rw [Nat.div_lt_iff_lt_mul (by positivity), ← pow_add, show 24 + (Nat.log2 x - 23) = Nat.log2 x + 1 by omega]
        exact h2
      · rw [Nat.le_div_iff_mul_le (by positivity), ← pow_add, show 23 + (Nat.log2 x - 23) = Nat.log2 x by omega]
        exact h1

/-- The encoding below `p / q`. -/
def roundDown (p q : Nat) : Nat := roundExp p q * 2 ^ 23 + roundSig p q

/-- The rounding goes up from the encoding below `p / q`: the remainder is above half a unit in the last place, or is half
of it and the significand is odd. -/
def roundsUp (p q : Nat) : Prop :=
  q * 2 ^ roundExp p q < 2 * (p % (q * 2 ^ roundExp p q)) ∨
    2 * (p % (q * 2 ^ roundExp p q)) = q * 2 ^ roundExp p q ∧ roundSig p q % 2 = 1

theorem roundMag_eq (p q : Nat) (u : Nat) (hu : (roundsUp p q ∧ u = 1) ∨ (¬ roundsUp p q ∧ u = 0)) :
    roundMag p q = min (roundDown p q + u) infBits := by
  have h : roundMag p q = min (roundDown p q + (if (decide (q * 2 ^ roundExp p q < 2 * (p % (q * 2 ^ roundExp p q))) ||
      (decide (2 * (p % (q * 2 ^ roundExp p q)) = q * 2 ^ roundExp p q) && decide (roundSig p q % 2 = 1))) = true
      then 1 else 0)) infBits := rfl
  rw [h]
  simp only [Bool.or_eq_true, Bool.and_eq_true, decide_eq_true_eq]
  unfold roundsUp at hu
  rcases hu with ⟨hu, rfl⟩ | ⟨hu, rfl⟩
  · rw [if_pos hu]
  · rw [if_neg hu]

/-- Rounding up gives the next encoding. -/
theorem roundMag_up (p q : Nat) (h : roundDown p q < infBits) (hu : roundsUp p q) :
    roundMag p q = roundDown p q + 1 := by
  rw [roundMag_eq p q 1 (.inl ⟨hu, rfl⟩)]
  exact Nat.min_eq_left h

/-- Rounding down gives the encoding below. -/
theorem roundMag_down (p q : Nat) (h : roundDown p q < infBits) (hu : ¬ roundsUp p q) :
    roundMag p q = roundDown p q := by
  rw [roundMag_eq p q 0 (.inr ⟨hu, rfl⟩), Nat.add_zero]
  exact Nat.min_eq_left h.le

/-- Beyond the largest finite value the result is infinity. -/
theorem roundMag_inf (p q : Nat) (h : infBits ≤ roundDown p q) : roundMag p q = infBits := by
  by_cases hu : roundsUp p q
  · rw [roundMag_eq p q 1 (.inl ⟨hu, rfl⟩)]
    exact Nat.min_eq_right (h.trans (Nat.le_succ _))
  · rw [roundMag_eq p q 0 (.inr ⟨hu, rfl⟩), Nat.add_zero]
    exact Nat.min_eq_right h

/-- The result is at most infinity. -/
theorem roundMag_le (p q : Nat) : roundMag p q ≤ infBits := Nat.min_le_right _ _

/-- The encoding below `p / q` stands for a value not above it, and the next one for a value above it. -/
theorem round_floor (p q : Nat) (hq : 0 < q) (hb : roundDown p q + 1 < 2 ^ 31) :
    units (BitVec.ofNat 32 (roundDown p q)) = roundSig p q * 2 ^ roundExp p q ∧
    units (BitVec.ofNat 32 (roundDown p q + 1)) = (roundSig p q + 1) * 2 ^ roundExp p q ∧
    p = roundSig p q * 2 ^ roundExp p q * q + p % (q * 2 ^ roundExp p q) ∧
    p % (q * 2 ^ roundExp p q) < q * 2 ^ roundExp p q := by
  obtain ⟨h1, h2⟩ := roundSig_bounds p q
  refine ⟨units_ofNat _ _ _ rfl h1.le h2 (by omega), ?_, ?_, Nat.mod_lt p (by positivity)⟩
  · exact units_ofNat _ _ _ (Nat.add_assoc _ _ _) h1 (by omega) hb
  · have hm := Nat.div_add_mod p (q * 2 ^ roundExp p q)
    have e : q * 2 ^ roundExp p q * (p / (q * 2 ^ roundExp p q)) = roundSig p q * 2 ^ roundExp p q * q := by
      unfold roundSig; ring
    rw [e] at hm
    omega

theorem roundMag_lt (p q : Nat) : roundMag p q < 2 ^ 31 := lt_of_le_of_lt (roundMag_le p q) infBits_lt

/-- A value that has an encoding is rounded to it. -/
theorem roundMag_units (y q : Nat) (hq : 0 < q) (hy : y < infBits) :
    roundMag (units (BitVec.ofNat 32 y) * q) q = y := by
  obtain ⟨E, k, he, hk, hE⟩ := encoding_split y
  have hy' : y < 2 ^ 31 := by unfold infBits at hy; omega
  rw [units_ofNat y E k he hk.le hE hy']
  have hexp : roundExp (k * 2 ^ E * q) q = E := by
    unfold roundExp
    rw [Nat.mul_div_cancel _ hq]
    by_cases hk0 : k = 0
    · have h0 : E = 0 := by omega
      simp [hk0, h0]
    · have h2 := Nat.log2_self_le hk0
      have h3 := @Nat.lt_log2_self k
      have h1 : Nat.log2 (k * 2 ^ E) = Nat.log2 k + E := by
        rw [Nat.log2_eq_iff (by positivity), pow_add, Nat.add_right_comm, pow_add _ _ E]
        exact ⟨Nat.mul_le_mul_right _ h2, Nat.mul_lt_mul_of_pos_right h3 (by positivity)⟩
      rw [h1]
      have h4 := (Nat.pow_lt_pow_iff_right (a := 2) (by omega)).mp (lt_of_le_of_lt h2 hk)
      rcases hE with h | h
      · omega
      · have := (Nat.pow_lt_pow_iff_right (a := 2) (by omega)).mp (lt_of_le_of_lt h h3)
        omega
  have hd : k * 2 ^ E * q = q * 2 ^ E * k := by ring
  have hsig : roundSig (k * 2 ^ E * q) q = k := by
    unfold roundSig
    rw [hexp, hd, Nat.mul_div_cancel_left _ (by positivity)]
  have hmod : k * 2 ^ E * q % (q * 2 ^ E) = 0 := by rw [hd, Nat.mul_mod_right]
  have h0 : 0 < q * 2 ^ E := by positivity
  have hdown : roundDown (k * 2 ^ E * q) q = y := by rw [roundDown, hexp, hsig, he]
  rw [roundMag_down _ _ (hdown ▸ hy), hdown]
  unfold roundsUp
  rw [hexp, hsig, hmod]
  omega

end Sys2Proof.NUM
end

