-- ==== Sys2Proof/Laws/PerInstr.lean ====
section
/-! SUPPORT. Laws about the instructions as syntax, one lemma per constructor. -/

namespace Sys2Proof.Laws.OpcodeRow

/-- The match and the mask of an instruction's row of spec/opcode_table.json. -/
def row : Instr → Word × Word
  | .nop => (0x00000000#32, 0xFFFFFFFF#32)
  | .configure => (0x00000001#32, 0xFFFFFFFF#32)
  | .start => (0x00000002#32, 0xFFFFFFFF#32)
  | .stop => (0x00000003#32, 0xFFFFFFFF#32)
  | .claim => (0x00000004#32, 0xFFFFFFFF#32)
  | .release => (0x00000005#32, 0xFFFFFFFF#32)
  | .convert => (0x00000010#32, 0xFFFFFFFF#32)
  | .fft _ _ => (0x00000011#32, 0xFFFFFCFF#32)
  | .mag _ => (0x00000012#32, 0xFFFFFEFF#32)
  | .norm => (0x00000013#32, 0xFFFFFFFF#32)
  | .process => (0x00000014#32, 0xFFFFFFFF#32)
  | .smp _ => (0x00000000#32, 0xC0000000#32)
  | .frc => (0x40000000#32, 0xC0000000#32)

/-- The instruction's word lies in its row of the opcode table (R97). -/
def Statement (i : Instr) : Prop := encode i &&& (row i).2 = (row i).1

theorem nop : Statement .nop := by unfold Statement; decide
theorem configure : Statement .configure := by unfold Statement; decide
theorem start : Statement .start := by unfold Statement; decide
theorem stop : Statement .stop := by unfold Statement; decide
theorem claim : Statement .claim := by unfold Statement; decide
theorem release : Statement .release := by unfold Statement; decide
theorem convert : Statement .convert := by unfold Statement; decide
theorem fft (src dst : Bank) : Statement (.fft src dst) := by cases src <;> cases dst <;> (unfold Statement; decide)
theorem mag (src : Bank) : Statement (.mag src) := by cases src <;> (unfold Statement; decide)
theorem norm : Statement .norm := by unfold Statement; decide
theorem process : Statement .process := by unfold Statement; decide
theorem smp (code : Half) : Statement (.smp code) := by
  unfold Statement encode row
  ext k hk
  have hc : k < 16 ∨ code.getLsbD k = false := by
    by_cases h : k < 16
    · exact .inl h
    · exact .inr (BitVec.getLsbD_of_ge code k (by omega))
  rcases hc with hc | hc
  · interval_cases k <;> simp
  · simp [BitVec.getElem_setWidth, hc]
theorem frc : Statement .frc := by unfold Statement; decide

end Sys2Proof.Laws.OpcodeRow
end

