-- ==== Sys2Proof/Laws/Step.lean ====
section
/-! SUPPORT. What one step can do, said once: up to what waits outside the core, a step leaves the core alone or makes one of
the moves of `CoreMove`. Every claim about all steps is a case analysis over these moves. -/

namespace Sys2Proof.Machine

/-- The state with nothing waiting outside, no reads logged and no draws counted: the core's own part. -/
def State.core (s : State) : State :=
  { s with masters := [], port := [], stalled := [], turn := 0, schedule := [], readLog := [], draws := 0 }

section
variable (s : State)

@[simp] theorem core_build : s.core.build = s.build := rfl
@[simp] theorem core_config : s.core.config = s.config := rfl
@[simp] theorem core_frameN : s.core.frameN = s.frameN := rfl
@[simp] theorem core_midCode : s.core.midCode = s.midCode := rfl
@[simp] theorem core_err : s.core.err = s.err := rfl
@[simp] theorem core_dropCount : s.core.dropCount = s.dropCount := rfl
@[simp] theorem core_frameCount : s.core.frameCount = s.frameCount := rfl
@[simp] theorem core_specSeq : s.core.specSeq = s.specSeq := rfl
@[simp] theorem core_maxMag : s.core.maxMag = s.maxMag := rfl
@[simp] theorem core_irqStatus : s.core.irqStatus = s.irqStatus := rfl
@[simp] theorem core_irqEnable : s.core.irqEnable = s.irqEnable := rfl
@[simp] theorem core_actN : s.core.actN = s.actN := rfl
@[simp] theorem core_actConfig : s.core.actConfig = s.actConfig := rfl
@[simp] theorem core_actMid : s.core.actMid = s.actMid := rfl
@[simp] theorem core_cfgValid : s.core.cfgValid = s.cfgValid := rfl
@[simp] theorem core_run : s.core.run = s.run := rfl
@[simp] theorem core_active : s.core.active = s.active := rfl
@[simp] theorem core_ready : s.core.ready = s.ready := rfl
@[simp] theorem core_held : s.core.held = s.held := rfl
@[simp] theorem core_wp : s.core.wp = s.wp := rfl
@[simp] theorem core_busy : s.core.busy = s.busy := rfl
@[simp] theorem core_pend : s.core.pend = s.pend := rfl
@[simp] theorem core_mem : s.core.mem = s.mem := rfl
@[simp] theorem core_resetHeld : s.core.resetHeld = s.resetHeld := rfl
@[simp] theorem core_core : s.core.core = s.core := rfl
@[simp] theorem stall_core (k : Nat) : (stall k s).core = s.core := rfl
@[simp] theorem setQueue_core (k : Nat) (q : List HostOp) : (setQueue k q s).core = s.core := rfl
@[simp] theorem returned_core (k : Nat) (a : Offset) (v : Word × Nat) : (returned k a v s).core = s.core := rfl
end

/-- The moves of the core (R6), by the agent that makes them: host writes, a raised error, the issue and the completion of a
command, a sample, a frame completion, and the reset input. -/
inductive CoreMove : Agent → State → State → Prop where
  | register (k : Nat) (r : Reg) (v : Word) (u : State) : CoreMove (.host k) u (writeReg r v u)
  | work (k : Nat) (w : Window) (o : Nat) (v : Word) (u : State) (hw : w = .workA ∨ w = .workB)
      (ho : windowAt o = some w) (hi : w.holds u.build o = true) (hb : u.busy = false) (h4 : o % 4 = 0) :
      CoreMove (.host k) u { u with mem := u.mem.writeWords o [v] }
  | rejected (k : Nat) (o : BitVec 8) (e : ErrCode) (u : State) : CoreMove (.host k) u (raise false o e u)
  | accepted (k : Nat) (i : Instr) (u : State) (hf : formatOf i = .command) (hb : u.busy = false)
      (hc : checkOf i u = none) : CoreMove (.host k) u (accept (encode i) (prepOf i u))
  | completed (i : Instr) (u : State) (hb : u.busy = true) (hd : decodeC u.pend.word = .ok i) :
      CoreMove .engine u (complete (effectOf i u))
  | sample (c : Half) (u : State) (hr : u.run = true) (hn : u.wp.toNat ≠ u.activeN) :
      CoreMove .producer u (storeSample c u)
  | frame (u : State) (hr : u.run = true) (hn : u.wp.toNat = u.activeN) : CoreMove .producer u (frameComplete u)
  | portError (e : ErrCode) (u : State) (hr : u.run = true) : CoreMove .producer u (raise true 0#8 e u)
  | asserted (u : State) : CoreMove .assertReset u (applyReset u)
  | released (u : State) : CoreMove .releaseReset u { u with resetHeld := false }

/-- `t` comes from `s` by leaving the core alone or by one move of it, made by the agent `a`. -/
def Moves (a : Agent) (s t : State) : Prop :=
  t.core = s.core ∨ ∃ u v, u.core = s.core ∧ v.core = t.core ∧ CoreMove a u v

theorem Moves.refl (a : Agent) (s : State) : Moves a s s := .inl rfl

theorem Moves.of_move {a : Agent} {u v : State} (h : CoreMove a u v) : Moves a u v := .inr ⟨u, v, rfl, rfl, h⟩

/-- A move from a state with the same core is a move. -/
theorem Moves.of_core {a : Agent} {s u t : State} (h : u.core = s.core) (hm : Moves a u t) : Moves a s t := by
  rcases hm with hm | ⟨x, y, hx, hy, hm⟩
  · exact .inl (hm.trans h)
  · exact .inr ⟨x, y, hx.trans h, hy, hm⟩

/-- What `decodeC` answers is a command. -/
theorem decodeC_format {w : Word} {i : Instr} (h : decodeC w = .ok i) : formatOf i = .command := by
  unfold decodeC at h
  split at h
  · simp at h
  · rename_i j hj
    split at h
    · simp only [Except.ok.injEq] at h
      subst h
      unfold commandOf at hj
      split at hj <;> first | (simp at hj; done) | (obtain rfl := Option.some.inj hj; rfl)
    · simp at h

/-- What `decodeP` answers is a producer word. -/
theorem decodeP_cases {w : Word} {i : Instr} (h : decodeP w = .ok i) : i = .smp (codeOf w) ∨ i = .frc := by
  unfold decodeP at h
  split at h
  · exact .inl (Except.ok.inj h).symm
  · exact .inr (Except.ok.inj h).symm
  · simp at h

/-- A command's meaning is the command sequencer on its check, its preparation and its effect. -/
theorem exec_command (i : Instr) (h : formatOf i = .command) (s : State) :
    exec i s = .next (if s.busy then complete (effectOf i s) else issue i (checkOf i s) (prepOf i) s) := by
  cases i <;> first | rfl | simp [formatOf] at h

/-- A command that is executing completes. -/
theorem exec_completes (i : Instr) (h : formatOf i = .command) (s : State) (hb : s.busy = true) :
    exec i s = .next (complete (effectOf i s)) := by
  rw [exec_command i h, if_pos hb]

/-- A command whose checks pass is accepted. -/
theorem exec_accepts (i : Instr) (h : formatOf i = .command) (s : State) (hb : s.busy = false)
    (hc : checkOf i s = none) : exec i s = .next (accept (encode i) (prepOf i s)) := by
  rw [exec_command i h, if_neg (by simp [hb]), hc]
  rfl

/-- A command whose check fails is refused with that error. -/
theorem exec_refuses (i : Instr) (h : formatOf i = .command) (s : State) (hb : s.busy = false) (e : ErrCode)
    (hc : checkOf i s = some e) : exec i s = .next (raise false (opcOf (encode i)) e s) := by
  rw [exec_command i h, if_neg (by simp [hb]), hc]
  rfl

/-- What the issue of a command does. -/
theorem exec_issue_moves {i : Instr} (k : Nat) (h : formatOf i = .command) {s t : State} (hb : s.busy = false)
    (he : exec i s = .next t) : Moves (.host k) s t := by
  cases hc : checkOf i s with
  | none =>
    rw [exec_accepts i h s hb hc] at he
    obtain rfl := Host.Outcome.next.inj he
    exact Moves.of_move (.accepted k i s h hb hc)
  | some e =>
    rw [exec_refuses i h s hb e hc] at he
    obtain rfl := Host.Outcome.next.inj he
    exact Moves.of_move (.rejected k _ e s)

/-- What a producer word does. -/
theorem portWord_moves {w : Word} {s t : State} (he : portWord w s = .next t) : Moves .producer s t := by
  unfold portWord at he
  split at he
  · rename_i i hi
    rcases decodeP_cases hi with rfl | rfl
    · obtain rfl := Host.Outcome.next.inj he
      split
      · split
        · exact Moves.of_move (.portError _ s ‹_›)
        · exact Moves.of_move (.sample _ s ‹_› ‹_›)
      · exact Moves.refl _ s
    · obtain rfl := Host.Outcome.next.inj he
      split
      · split
        · exact Moves.of_move (.frame s ‹_› ‹_›)
        · exact Moves.of_move (.portError _ s ‹_›)
      · exact Moves.refl _ s
  · obtain rfl := Host.Outcome.next.inj he
    unfold reservedWord
    split
    · exact Moves.of_move (.portError _ s ‹_›)
    · exact Moves.refl _ s

/-- What a write to CMD does. -/
theorem cmdWrite_moves {w : Word} (k : Nat) {s t : State} (he : cmdWrite w s = .next t) : Moves (.host k) s t := by
  unfold cmdWrite at he
  split at he
  · obtain rfl := Host.Outcome.next.inj he
    exact Moves.of_move (.rejected k _ _ s)
  · rename_i hb
    split at he
    · exact exec_issue_moves k (decodeC_format ‹_›) (by simpa using hb) he
    · obtain rfl := Host.Outcome.next.inj he
      exact Moves.of_move (.rejected k _ _ s)

theorem wordOffset_mod (a : Offset) : wordOffset a % 4 = 0 := by unfold wordOffset; omega

/-- An offset in a work window is in a RAM window region. -/
theorem windowAt_bounds {o : Nat} {w : Window} (h : windowAt o = some w) : 0x20000 ≤ o ∧ o < 0xC0000 := by
  unfold windowAt at h
  split at h <;> [simp at h; skip]
  split at h <;> [omega; skip]
  split at h <;> [omega; skip]
  split at h <;> [omega; skip]
  split at h <;> [omega; skip]
  split at h <;> [omega; skip]
  split at h <;> [omega; skip]
  split at h <;> [omega; skip]
  split at h <;> [omega; simp at h]

/-- What a write elsewhere does, when it is not held. -/
theorem busWrite_moves (k : Nat) (a : Offset) (v : Word) (s : State) (hh : (s.busy && inRamWindow a) = false) :
    Moves (.host k) s (busWrite a v s) := by
  unfold busWrite
  simp only
  split
  · split
    · exact Moves.of_move (.register k _ v s)
    · exact Moves.refl _ s
  · split
    · rename_i hw
      have hb : s.busy = false := by
        have := windowAt_bounds hw
        simpa [inRamWindow, this.1, this.2] using hh
      split
      · exact Moves.of_move (.work k .workA _ v s (.inl rfl) hw ‹_› hb (wordOffset_mod a))
      · exact Moves.refl _ s
    · rename_i hw
      have hb : s.busy = false := by
        have := windowAt_bounds hw
        simpa [inRamWindow, this.1, this.2] using hh
      split
      · exact Moves.of_move (.work k .workB _ v s (.inr rfl) hw ‹_› hb (wordOffset_mod a))
      · exact Moves.refl _ s
    all_goals exact Moves.refl _ s

/-- What a bus master's step does. -/
theorem hostStep_moves {k : Nat} {s t : State} (he : hostStep k s = .next t) : Moves (.host k) s t := by
  unfold hostStep at he
  split at he
  · obtain rfl := Host.Outcome.next.inj he
    exact Moves.refl _ s
  · rename_i op rest _
    split at he
    · obtain rfl := Host.Outcome.next.inj he
      cases op <;> exact .inl rfl
    · split at he
      · obtain rfl := Host.Outcome.next.inj he
        exact .inl rfl
      · rename_i hh
        cases op with
        | read a =>
          obtain rfl := Host.Outcome.next.inj he
          exact .inl rfl
        | write a v =>
          refine Moves.of_core (u := setQueue k rest s) rfl ?_
          simp only [hostOp, hostWrite] at he
          split at he
          · exact cmdWrite_moves k he
          · obtain rfl := Host.Outcome.next.inj he
            exact busWrite_moves k a v _ (by simpa [HostOp.target] using hh)
        | poll a mask v =>
          obtain rfl := Host.Outcome.next.inj he
          exact .inl rfl

/-- A bus master's step leaves the core alone unless it is a write transfer, which then takes effect. -/
theorem hostStep_cases {k : Nat} {s t : State} (he : hostStep k s = .next t) :
    t.core = s.core ∨ ∃ a v rest, s.masters.getD k [] = .write a v :: rest ∧ s.resetHeld = false ∧
      (s.busy && inRamWindow a) = false ∧ hostWrite a v (setQueue k rest s) = .next t := by
  unfold hostStep at he
  split at he
  · obtain rfl := Host.Outcome.next.inj he
    exact .inl rfl
  · rename_i op rest hq
    split at he
    · obtain rfl := Host.Outcome.next.inj he
      cases op <;> exact .inl rfl
    · rename_i hr
      split at he
      · obtain rfl := Host.Outcome.next.inj he
        exact .inl rfl
      · rename_i hh
        cases op with
        | read a =>
          obtain rfl := Host.Outcome.next.inj he
          exact .inl rfl
        | write a v => exact .inr ⟨a, v, rest, hq, by simpa using hr, by simpa [HostOp.target] using hh, he⟩
        | poll a mask v =>
          obtain rfl := Host.Outcome.next.inj he
          exact .inl rfl

/-- The producer's step leaves the core alone unless it delivers a word. -/
theorem producerStep_cases {s t : State} (he : producerStep s = .next t) :
    t.core = s.core ∨ ∃ w rest, s.port = w :: rest ∧ s.resetHeld = false ∧
      portWord w { s with port := rest } = .next t := by
  unfold producerStep at he
  split at he
  · obtain rfl := Host.Outcome.next.inj he
    exact .inl rfl
  · rename_i w rest hq
    split at he
    · obtain rfl := Host.Outcome.next.inj he
      exact .inl rfl
    · rename_i hr
      exact .inr ⟨w, rest, hq, by simpa using hr, he⟩

/-- What the producer's step does. -/
theorem producerStep_moves {s t : State} (he : producerStep s = .next t) : Moves .producer s t := by
  unfold producerStep at he
  split at he
  · obtain rfl := Host.Outcome.next.inj he
    exact Moves.refl _ s
  · split at he
    · obtain rfl := Host.Outcome.next.inj he
      exact .inl rfl
    · exact Moves.of_core (by rfl) (portWord_moves he)

/-- What the ENGINE's step does. -/
theorem engineStep_moves {s t : State} (he : engineStep s = .next t) : Moves .engine s t := by
  unfold engineStep at he
  split at he
  · split at he
    · rename_i hb _ i hi
      rw [exec_completes i (decodeC_format hi) s hb] at he
      obtain rfl := Host.Outcome.next.inj he
      exact Moves.of_move (.completed i s hb hi)
    · simp at he
  · obtain rfl := Host.Outcome.next.inj he
    exact Moves.refl _ s

/-- The inversion of an agent's step. -/
theorem agentStep_moves {a : Agent} {s t : State} (he : agentStep a s = .next t) : Moves a s t := by
  cases a with
  | host k => exact hostStep_moves he
  | producer => exact producerStep_moves he
  | engine => exact engineStep_moves he
  | assertReset =>
    obtain rfl := Host.Outcome.next.inj he
    exact Moves.of_move (.asserted s)
  | releaseReset =>
    obtain rfl := Host.Outcome.next.inj he
    exact Moves.of_move (.released s)

/-- Choosing the next agent uses up an entry of the schedule and nothing else. -/
theorem nextAgent_core (s : State) : (nextAgent s).2.core = s.core := by
  unfold nextAgent defaultTurn
  split <;> [rfl; skip]
  split <;> [rfl; skip]
  split <;> [rfl; skip]
  split <;> rfl

/-- The inversion of a step. -/
theorem step_moves {s t : State} (he : step s = .next t) : Moves (nextAgent s).1 s t :=
  Moves.of_core (nextAgent_core s) (agentStep_moves he)

/-- An invariant of the core that every move keeps is kept by every step. -/
theorem step_keeps {P : State → Prop} (hcore : ∀ s t, t.core = s.core → P s → P t)
    (hmove : ∀ a u v, CoreMove a u v → P u → P v) {s t : State} (he : step s = .next t) (hs : P s) : P t := by
  rcases step_moves he with h | ⟨u, v, hu, hv, hm⟩
  · exact hcore s t h hs
  · exact hcore v t hv.symm (hmove _ u v hm (hcore s u hu hs))

/-! ### What waits outside the core -/

/-- What waits outside the core: the masters' transfers, the producer words, the transfers that hold, and the turns. -/
def State.waiting (s : State) : List (List HostOp) × List Word × List Nat × Nat × List Agent :=
  (s.masters, s.port, s.stalled, s.turn, s.schedule)

@[simp] theorem writeReg_waiting (r : Reg) (v : Word) (s : State) : (writeReg r v s).waiting = s.waiting := by
  simp [State.waiting]

/-- No meaning changes what waits. -/
theorem exec_waiting {i : Instr} {s t : State} (he : exec i s = .next t) : t.waiting = s.waiting := by
  cases hf : formatOf i with
  | command =>
    rw [exec_command i hf] at he
    obtain rfl := Host.Outcome.next.inj he
    split
    · cases i <;> simp [State.waiting, effectOf]
    · unfold issue
      split
      · rfl
      · cases i <;> rfl
  | producer =>
    cases i <;> simp only [formatOf, reduceCtorEq] at hf
    · obtain rfl := Host.Outcome.next.inj he
      repeat' split
      all_goals rfl
    · obtain rfl := Host.Outcome.next.inj he
      repeat' split
      all_goals simp [State.waiting]

/-- No producer word changes what waits behind it. -/
theorem portWord_waiting {w : Word} {s t : State} (he : portWord w s = .next t) : t.waiting = s.waiting := by
  unfold portWord at he
  split at he
  · exact exec_waiting he
  · obtain rfl := Host.Outcome.next.inj he
    unfold reservedWord
    split <;> rfl

/-- No write transfer changes what waits behind it. -/
theorem hostWrite_waiting {a : Offset} {v : Word} {s t : State} (he : hostWrite a v s = .next t) :
    t.waiting = s.waiting := by
  unfold hostWrite at he
  split at he
  · unfold cmdWrite at he
    split at he
    · obtain rfl := Host.Outcome.next.inj he
      rfl
    · split at he
      · exact exec_waiting he
      · obtain rfl := Host.Outcome.next.inj he
        rfl
  · obtain rfl := Host.Outcome.next.inj he
    unfold busWrite
    simp only
    repeat' split
    all_goals first | rfl | exact writeReg_waiting _ _ _

/-- A bus master's step takes at most its own next transfer, unless that transfer comes to hold. -/
theorem hostStep_waiting {k : Nat} {s t : State} (he : hostStep k s = .next t) :
    (t = stall k s ∧ s.busy = true ∧ s.resetHeld = false ∧
      ∃ op rest, s.masters.getD k [] = op :: rest ∧ inRamWindow op.target = true) ∨
    t.waiting = s.waiting ∨
    ∃ op rest q, s.masters.getD k [] = op :: rest ∧ (q = rest ∨ q = op :: rest) ∧
      t.waiting = { s with masters := s.masters.set k q }.waiting := by
  unfold hostStep at he
  split at he
  · obtain rfl := Host.Outcome.next.inj he
    exact .inr (.inl rfl)
  · rename_i op rest hq
    split at he
    · obtain rfl := Host.Outcome.next.inj he
      refine .inr (.inr ⟨op, rest, ?_⟩)
      cases op with
      | read a => exact ⟨rest, hq, .inl rfl, rfl⟩
      | write a v => exact ⟨rest, hq, .inl rfl, rfl⟩
      | poll a m v => exact ⟨_, hq, by split <;> simp, rfl⟩
    · split at he
      · rename_i hr hh
        obtain rfl := Host.Outcome.next.inj he
        simp only [Bool.and_eq_true] at hh
        exact .inl ⟨rfl, hh.1, by simpa using hr, op, rest, hq, hh.2⟩
      · refine .inr (.inr ⟨op, rest, ?_⟩)
        cases op with
        | read a =>
          obtain rfl := Host.Outcome.next.inj he
          exact ⟨rest, hq, .inl rfl, rfl⟩
        | write a v => exact ⟨rest, hq, .inl rfl, hostWrite_waiting he⟩
        | poll a m v =>
          obtain rfl := Host.Outcome.next.inj he
          exact ⟨_, hq, by split <;> simp, rfl⟩

/-- Who moves next: the first transfer that was held, once no command executes; else the schedule's next agent; else, with an
empty schedule, the ENGINE while a command executes, then the producer, then a bus master. -/
theorem nextAgent_cases (s : State) :
    (∃ k ks, s.busy = false ∧ s.stalled = k :: ks ∧ nextAgent s = (.host k, { s with stalled := ks })) ∨
    ((s.busy = true ∨ s.stalled = []) ∧
      ((∃ a rest, s.schedule = a :: rest ∧ nextAgent s = (a, { s with schedule := rest })) ∨
        (s.schedule = [] ∧ nextAgent s = defaultTurn s))) := by
  unfold nextAgent dueMasters
  cases hb : s.busy <;> cases hst : s.stalled <;> cases hs : s.schedule <;> simp

/-! ### Steps that stop -/

/-- No step refuses. -/
theorem step_never_refuses (s : State) (r : Refusal) : step s ≠ .refused r := by
  have hx : ∀ (i : Instr) (u : State), exec i u ≠ .refused r := fun i u => by cases i <;> simp [exec, execNop, execConfigure,
    execStart, execStop, execClaim, execRelease, execConvert, execFft, execMag, execNorm, execProcess, execSmp, execFrc, commandStep]
  intro h
  unfold step agentStep hostStep producerStep engineStep hostOp hostWrite cmdWrite portWord at h
  repeat' split at h
  all_goals first | (exact hx _ _ h) | (simp at h)

end Sys2Proof.Machine
end

