-- ==== Sys2Proof/Tests/Slice0.lean ====
section
/-! SUPPORT. Tests of the model: the checks of WellFormed refuse ill-formed terms, words written out from the encodings
of the spec decode, each instruction gives the spec's own example, and each statement with hypotheses has a concrete state
and operands that meet them. The expected values come from the rules and vectors of the spec that each comment names. -/

set_option maxRecDepth 100000

namespace Sys2Proof.Tests

open Sys2Proof Sys2Proof.Machine

/-! ### Ill-formed terms are refused -/

/-- R7, R76: LOG2_NMAX outside 1 to 14, MAG_EPS zero, negative and infinite, and CORE_BASE no multiple of 1 MiB. -/
theorem test_ill_formed_builds :
    (let b := Build.default
     ({ b with log2Nmax := 0 }.wellFormed = false ∧ { b with log2Nmax := 15 }.wellFormed = false) ∧
     ({ b with magEps := 0x00000000#32 }.wellFormed = false ∧ { b with magEps := 0x80000001#32 }.wellFormed = false ∧
       { b with magEps := 0x7F800000#32 }.wellFormed = false) ∧
     ({ b with coreBase := 4 }.wellFormed = false ∧ { b with coreBase := 0x80000 }.wellFormed = false ∧
       { b with coreBase := 0x40000000 }.wellFormed = true)) ∧
    Build.default.wellFormed = true ∧ Build.wellFormed ⟨1, 0x00000001#32, 0, .other⟩ = true ∧
    Build.wellFormed ⟨14, 0x7F7FFFFF#32, 0, .binary32⟩ = true := by decide

/-- R8, each field out of its range, and both ends of what is legal for NMAX = 1024 (95_test_vectors.md 3.1). -/
theorem test_ill_formed_configurations :
    (configurationOk 1024 1 0 12 12 2048 = false ∧ configurationOk 1024 6 0 12 12 2048 = false ∧
      configurationOk 1024 2048 0 12 12 2048 = false) ∧
    configurationOk 1024 8 5 12 12 2048 = false ∧
    (configurationOk 1024 8 0 0 12 1 = false ∧ configurationOk 1024 8 0 17 12 1 = false) ∧
    (configurationOk 1024 8 0 12 0 2048 = false ∧ configurationOk 1024 8 0 12 17 2048 = false) ∧
    (configurationOk 1024 8 0 12 12 0 = false ∧ configurationOk 1024 8 0 12 12 4096 = false) ∧
    configurationOk 1024 2 0 1 1 1 = true ∧ configurationOk 1024 1024 4 16 16 32768 = true := by decide

/-- R75, R90, R102: a statement's numbers. -/
theorem test_ill_formed_statements :
    sampleNumberOk 65536 = false ∧ elementOk 1024 1024 = false ∧ frameLengthOk 1024 0 = false ∧
    Stmt.wellFormed Build.default (.wrWork .b 1024 .im 0#32) = false ∧
    Stmt.wellFormed Build.default (.rd (.elem .spec 512 .re)) = false ∧
    Stmt.wellFormed Build.default (.poll (.elem .raw0 0 .im) 1#32 0#32) = false ∧
    Stmt.wellFormed Build.default (.command (.smp 0#16)) = false ∧
    Stmt.wellFormed Build.default (.cfg 8 8 12 2048 12) = false ∧
    Stmt.wellFormed Build.default (.smp 65536) = false ∧
    Stmt.wellFormed Build.default (.pushframe [0, 65536]) = false := by decide

/-- Every operand type of an instruction holds legal values only, so none is ill formed. -/
theorem test_instructions_are_well_formed : (Instr.smp 0xFFFF#16).wellFormed = true ∧ (Instr.fft .b .b).wellFormed = true := by
  decide

/-! ### Decoding of words written out from R103 and R90 -/

theorem test_decode_nop : decodeC 0x00000000#32 = .ok .nop := by decide
theorem test_decode_configure : decodeC 0x00000001#32 = .ok .configure := by decide
theorem test_decode_start : decodeC 0x00000002#32 = .ok .start := by decide
theorem test_decode_stop : decodeC 0x00000003#32 = .ok .stop := by decide
theorem test_decode_claim : decodeC 0x00000004#32 = .ok .claim := by decide
theorem test_decode_release : decodeC 0x00000005#32 = .ok .release := by decide
theorem test_decode_convert : decodeC 0x00000010#32 = .ok .convert := by decide
theorem test_decode_fft :
    decodeC 0x00000011#32 = .ok (.fft .a .a) ∧ decodeC 0x00000211#32 = .ok (.fft .a .b) ∧
    decodeC 0x00000111#32 = .ok (.fft .b .a) ∧ decodeC 0x00000311#32 = .ok (.fft .b .b) := by decide
theorem test_decode_mag : decodeC 0x00000012#32 = .ok (.mag .a) ∧ decodeC 0x00000112#32 = .ok (.mag .b) := by decide
theorem test_decode_norm : decodeC 0x00000013#32 = .ok .norm := by decide
theorem test_decode_process : decodeC 0x00000014#32 = .ok .process := by decide

/-- Bits 29:16 of a producer word are ignored (95_test_vectors.md 3.8). -/
theorem test_decode_smp :
    decodeP 0x00000FFF#32 = .ok (.smp 0x0FFF#16) ∧ decodeP 0x3FFF0800#32 = .ok (.smp 0x0800#16) := by decide
theorem test_decode_frc : decodeP 0x40000000#32 = .ok .frc ∧ decodeP 0x7FFFFFFF#32 = .ok .frc := by decide

/-- R95: unassigned opcodes and reserved bits. -/
theorem test_illegal_commands :
    decodeC 0x00000006#32 = .error .illegalCommand ∧ decodeC 0x000000FF#32 = .error .illegalCommand ∧
    decodeC 0x00000113#32 = .error .illegalCommand ∧ decodeC 0x00000212#32 = .error .illegalCommand ∧
    decodeC 0x00000411#32 = .error .illegalCommand ∧ decodeC 0x80000000#32 = .error .illegalCommand := by decide

/-- R96; R88: a word is exactly four bytes. -/
theorem test_reserved_producer_words :
    decodeP 0x80000000#32 = .error .reservedProducerWord ∧ decodeP 0xC0000000#32 = .error .reservedProducerWord ∧
    decode .command [0x11#8, 0x02#8, 0x00#8] = .error .notOneWord ∧
    decode .command [0x11#8, 0x02#8, 0x00#8, 0x00#8] = .ok (.fft .a .b) := by decide

theorem test_table_words :
    decodeTableWord 32 0x00000111 = some (.fft .b .a) ∧ decodeTableWord 32 0x40000000 = some .frc ∧
    decodeTableWord 32 0x00000FFF = some (.smp 0x0FFF#16) ∧ decodeTableWord 32 0xC0000000 = none := by decide

/-! ### Small states -/

/-- What is read of the next state. -/
def after {α : Type} (o : Host.Outcome State Fault Refusal) (f : State → α) : Option α :=
  match o with
  | .next t => some (f t)
  | .fault _ => none
  | .refused _ => none

/-- `cfg n, kind, 12, 2048, 12` active on a build with NMAX = n = 2^k, stopped, RAM as given. -/
def configured (k kind : Nat) (m : Memory) : State :=
  { State.reset with
    build := ⟨k, 0x35800000#32, 0, .binary32⟩
    actN := BitVec.ofNat 32 (2 ^ k)
    actConfig := ⟨BitVec.ofNat 3 kind, 12#5, 12#5⟩
    actMid := 2048#16
    cfgValid := true
    mem := m }

/-- The command `i` accepted and not yet complete. -/
def executing (i : Instr) (s : State) : State := { s with busy := true, pend := { s.pend with word := encode i } }

/-- The components of a window from its element 0 up. -/
def window (w : Window) (n : Nat) (s : State) : List (Option Word) :=
  (List.range n).map fun i => s.mem.word? (w.base + 4 * i)

/-- The codes of a window from its element 0 up. -/
def codes (w : Window) (n : Nat) (s : State) : List (Option Half) :=
  (List.range n).map fun i => s.mem.half? (w.base + 4 * i)

/-- The rectangular tables for N = 2, 4 (95_test_vectors.md 2.1, 2.2). -/
def tables2 : Memory := (Memory.writeWords [] 0x40000 [0x3F800000#32, 0#32]).writeWords 0x50000 [0x3F800000#32, 0x3F800000#32]
def tables4 : Memory :=
  (Memory.writeWords [] 0x40000 [0x3F800000#32, 0#32, 0#32, 0xBF800000#32]).writeWords 0x50000
    [0x3F800000#32, 0x3F800000#32, 0x3F800000#32, 0x3F800000#32]

/-- N = 2, running: the frame (4095, 0) of slot 0 is held, slot 1 is being filled and has one sample. -/
def holding : State :=
  { configured 1 0 ((tables2.writeHalves 0x20000 [4095#16, 0#16]).writeHalves 0x30000 [7#16]) with
    run := true, active := .s1, held := ⟨true, false⟩, wp := 1#15 }

/-- A write to bank A held on it, with no command executing: it is due now. -/
def idleHeld : State := { holding with masters := [[.write 0x60000#20 0x3F800000#32]], stalled := [0] }

/-- PROCESS executing on it, with a producer word and a host write waiting, the engine next to move. -/
def processing : State :=
  { executing .process holding with
    port := [0x40000000#32], masters := [[.write 0x60000#20 0x3F800000#32]], schedule := [.engine] }

/-- The same with the host write already held. -/
def busyHeld : State := { processing with stalled := [0] }

/-! ### The commands -/

/-- R105, example: BUSY, then IRQ_STATUS = 0x1. -/
theorem test_nop :
    after (exec .nop State.reset) (readReg .status) = some 0x1#32 ∧
    after (exec .nop (executing .nop State.reset)) (fun t => (readReg .status t, readReg .irqStatus t)) =
      some (0x0#32, 0x1#32) := by decide

/-- 95_test_vectors.md 3.1: FRAME_N = 2048 with WIN_KIND = 7 and MID = 0 reports SIZE_EXCEEDED. -/
theorem test_configure_check_order :
    after (exec .configure { State.reset with frameN := 2048#32, config := ConfigReg.ofWord 0x000C0C07#32 })
      (fun t => (readReg .err t, readReg .status t)) = some (0x00000102#32, 0x00000400#32) := by decide

/-- R111, example, with Hann: ACT_CONFIG, and the tables of 95_test_vectors.md 2.1 and 2.2 for N = 8, zeros beyond them. -/
theorem test_configure_builds_tables :
    after (exec .configure (executing .configure
        { State.reset with build := ⟨4, 0x35800000#32, 0, .binary32⟩, pend := ⟨0#32, ⟨8#32, ⟨1#3, 12#5, 12#5⟩, 2048#16⟩⟩ }))
      (fun t => ([readReg .actN t, readReg .actConfig t, readReg .status t], window .twid 10 t, window .win 9 t)) =
    some ([8#32, 0x000C0C01#32, 0x00000004#32],
      [some 0x3F800000#32, some 0x00000000#32, some 0x3F3504F3#32, some 0xBF3504F3#32, some 0x00000000#32,
       some 0xBF800000#32, some 0xBF3504F3#32, some 0xBF3504F3#32, some 0#32, some 0#32],
      [some 0x00000000#32, some 0x3E40C5F2#32, some 0x3F1C7B91#32, some 0x3F7352F3#32, some 0x3F7352F3#32,
       some 0x3F1C7B91#32, some 0x3E40C5F2#32, some 0x00000000#32, some 0#32]) := by decide +kernel

/-- 95_test_vectors.md 3.1: `start` from reset, and configured. -/
theorem test_start :
    after (exec .start State.reset) (fun t => (readReg .err t, readReg .status t)) =
      some (0x00000206#32, 0x00000400#32) ∧
    after (exec .start (executing .start (configured 2 0 []))) (readReg .status) = some 0x00000006#32 := by decide

/-- 95_test_vectors.md 3.8: `stop` at STATUS 0x01E. -/
theorem test_stop :
    let s := { configured 2 0 [] with run := true, active := .s1, ready := ⟨true, false⟩ }
    readReg .status s = 0x01E#32 ∧
    after (exec .stop (executing .stop s)) (fun t => (readReg .status t, readReg .dropCount t)) = some (0x004#32, 0#32) := by
  decide

/-- 95_test_vectors.md 3.8: `tryclaim` at STATUS 0x026 claims slot 1; `claim` at 0x386 is refused. -/
theorem test_claim :
    after (exec .claim (executing .claim { configured 2 0 [] with run := true, ready := ⟨false, true⟩ })) (readReg .status) =
      some 0x386#32 ∧
    after (exec .claim { configured 2 0 [] with run := true, held := ⟨false, true⟩ })
      (fun t => (readReg .err t, readReg .status t)) = some (0x00000409#32, 0x786#32) := by decide

/-- 95_test_vectors.md 3.8: `release` at STATUS 0x386. -/
theorem test_release :
    after (exec .release (executing .release { configured 2 0 [] with run := true, held := ⟨false, true⟩ }))
      (fun t => (readReg .status t, readReg .dropCount t)) = some (0x006#32, 0#32) := by decide

/-- 95_test_vectors.md 3.3: NO_CLAIM. -/
theorem test_convert_needs_a_claim :
    after (exec .convert (configured 3 0 [])) (readReg .err) = some 0x00001008#32 := by decide

/-- R140: the Hann frame of N = 8; the hold ends. -/
theorem test_convert :
    after (exec .convert (executing .convert
        { configured 3 1 ((Memory.writeHalves [] 0x20000
            [3072#16, 2048#16, 1024#16, 2048#16, 3072#16, 2048#16, 1024#16, 2048#16]).writeWords 0x50000
            [0#32, 0x3E40C5F2#32, 0x3F1C7B91#32, 0x3F7352F3#32, 0x3F7352F3#32, 0x3F1C7B91#32, 0x3E40C5F2#32, 0#32]) with
          run := true, active := .s1, held := ⟨true, false⟩ }))
      (fun t => (readReg .status t, window .workA 16 t)) =
    some (0x00E#32,
      [some 0x00000000#32, some 0#32, some 0x00000000#32, some 0#32, some 0xBE9C7B91#32, some 0#32, some 0x00000000#32,
       some 0#32, some 0x3EF352F3#32, some 0#32, some 0x00000000#32, some 0#32, some 0xBDC0C5F2#32, some 0#32,
       some 0x00000000#32, some 0#32]) := by decide +kernel

/-- R128: `fft a, a` with N = 4. -/
theorem test_fft_in_place :
    after (exec (.fft .a .a) (executing (.fft .a .a) (configured 2 0 (tables4.writeWords 0x60000
        [0x3F800000#32, 0#32, 0x40000000#32, 0#32, 0x40400000#32, 0#32, 0x40800000#32, 0#32])))) (window .workA 8) =
    some [some 0x40200000#32, some 0x00000000#32, some 0xBF000000#32, some 0x3F000000#32, some 0xBF000000#32,
      some 0x00000000#32, some 0xBF000000#32, some 0xBF000000#32] := by decide +kernel

/-- 95_test_vectors.md 3.4, first row: `fft a, b` with N = 2; the source bank stays. -/
theorem test_fft_out_of_place :
    after (exec (.fft .a .b) (executing (.fft .a .b) (configured 1 0 (tables2.writeWords 0x60000
        [0x3F800000#32, 0#32, 0x40400000#32, 0#32])))) (fun t => (window .workB 4 t, window .workA 4 t)) =
    some ([some 0x40000000#32, some 0x00000000#32, some 0xBF800000#32, some 0x00000000#32],
      [some 0x3F800000#32, some 0#32, some 0x40400000#32, some 0#32]) := by decide +kernel

/-- 95_test_vectors.md 3.5: (-3, -4) and (1, 1) in bank B; an entry beyond N/2 is not written. -/
theorem test_mag :
    after (exec (.mag .b) (executing (.mag .b) (configured 2 0 (Memory.writeWords [] 0x80000
        [0xC0400000#32, 0xC0800000#32, 0x3F800000#32, 0x3F800000#32])))) (window .mag 3) =
    some [some 0x40A00000#32, some 0x3FB504F3#32, none] := by decide +kernel

/-- R7, R15: a build with another record NUM computes through that record, of which nothing is known. -/
theorem test_other_numerics :
    let s : State := { configured 1 0 (Memory.writeWords [] 0x80000 [0xC0400000#32, 0xC0800000#32]) with
      build := ⟨1, 0x35800000#32, 0, .other⟩ }
    after (exec (.mag .b) (executing (.mag .b) s)) State.mem =
    some (s.mem.writeWords 0xA0000 [Config.otherNumerics.fsqrt (Config.otherNumerics.fadd
      (Config.otherNumerics.fmul 0xC0400000#32 0xC0400000#32) (Config.otherNumerics.fmul 0xC0800000#32 0xC0800000#32))]) :=
  rfl

/-- 95_test_vectors.md 3.6, case A; R163: SPEC_SEQ. -/
theorem test_norm :
    after (exec .norm (executing .norm (configured 3 0 (Memory.writeWords [] 0xA0000
        [0x00000000#32, 0x3F000000#32, 0x3F800000#32, 0x3E800000#32]))))
      (fun t => (codes .spec 4 t, readReg .maxMag t, readReg .specSeq t)) =
    some ([some 0#16, some 2047#16, some 4095#16, some 1023#16], 0x3F800000#32, 1#32) := by decide +kernel

/-- 95_test_vectors.md 3.6, case F: a NaN bin. -/
theorem test_norm_nan :
    after (exec .norm (executing .norm (configured 3 0 (Memory.writeWords [] 0xA0000
        [0x7FC00000#32, 0x3F000000#32, 0x3E800000#32, 0x00000000#32]))))
      (fun t => (codes .spec 4 t, readReg .maxMag t)) =
    some ([some 0#16, some 4095#16, some 2047#16, some 0#16], 0x3F000000#32) := by decide +kernel

/-- 95_test_vectors.md 3.7, row 6: N = 2, the frame (4095, 0). -/
theorem test_process :
    after (step processing) (fun t => (window .workA 4 t, window .mag 1 t, codes .spec 1 t, readReg .maxMag t,
      readReg .status t)) =
    some ([some 0xB9800000#32, some 0#32, some 0x3F7FF000#32, some 0#32], [some 0x39800000#32], [some 4095#16],
      0x39800000#32, 0x00E#32) := by decide +kernel

/-- 95_test_vectors.md 3.9: NO_CLAIM from PROCESS. -/
theorem test_process_needs_a_claim :
    after (exec .process State.reset) (readReg .err) = some 0x00001408#32 := by decide

/-! ### The producer words -/

/-- 95_test_vectors.md 3.8: `smp 0xF123` stores 0x123; a full frame refuses the next sample. -/
theorem test_smp :
    after (exec (.smp 0xF123#16) { configured 2 0 [] with run := true }) (fun t => (codes .raw0 1 t, readReg .wp t)) =
      some ([some 0x123#16], 1#32) ∧
    after (exec (.smp 5#16) { configured 2 0 [] with run := true, wp := 4#15 })
      (fun t => (readReg .err t, readReg .wp t, t.mem)) = some (0x00010010#32, 4#32, []) := by decide

/-- R151, example: an older ready frame is dropped at the flip. -/
theorem test_frc_wraps :
    after (exec .frc { configured 2 0 [] with run := true, ready := ⟨false, true⟩, wp := 4#15 })
      (fun t => (t.ready, t.active, readReg .wp t, readReg .dropCount t, readReg .frameCount t, readReg .irqStatus t)) =
    some (⟨true, false⟩, .s1, 0#32, 1#32, 1#32, 0x6#32) := by decide

/-- 95_test_vectors.md 3.8: STATUS 0x14E with a full frame drops the newest; a short frame is refused. -/
theorem test_frc_held_and_short :
    after (exec .frc { configured 2 0 [] with run := true, active := .s1, held := ⟨true, false⟩, wp := 4#15 })
      (fun t => (readReg .status t, readReg .wp t, readReg .dropCount t, readReg .frameCount t)) =
      some (0x14E#32, 0#32, 1#32, 0#32) ∧
    after (exec .frc { configured 2 0 [] with run := true, wp := 3#15 }) (fun t => (readReg .err t, readReg .wp t)) =
      some (0x00010011#32, 3#32) := by decide

/-! ### The bus -/

/-- R78, R208: a window write while PROCESS executes comes to hold; once nothing executes it takes effect before the command
of master 1, which the schedule names. -/
theorem test_held_transfer_completes :
    after (step { processing with schedule := [.host 0] }) (fun t => (t.stalled, t.busy, t.masters.map List.length)) =
      some ([0], true, [1]) ∧
    after (step { idleHeld with
        masters := [[.write 0x60000#20 0x11223344#32], [.write 0x014#20 0#32]], schedule := [.host 1] })
      (fun t => (t.stalled, t.mem.word? 0x60000, t.schedule.length)) = some ([], some 0x11223344#32, 1) := by
  decide +kernel

/-- R104, R208: with no schedule, master 0, whose turn it was, polls in vain and leaves master 1 its turn. -/
theorem test_masters_take_turns :
    let s : State := { State.reset with masters := [[.poll 0x018#20 1#32 1#32], [.write 0x00C#20 8#32]] }
    after (step s) (fun t => (t.turn, t.masters.map List.length)) = some (1, [1, 1]) ∧
    after (step { s with turn := 1 }) (readReg .frameN) = some 8#32 := by decide

/-- R102, R104: a poll of a register and one of a RAM window element, SPEC[3] and TWID[1].im. -/
theorem test_poll_names :
    hostOps (.poll (.reg .status) 0x1#32 0x0#32) = hostOps .waitidle ∧
    hostOps (.poll (.elem .spec 3 .re) 0xFFFF#32 0x0FFF#32) = [.poll 0xB000C#20 0xFFFF#32 0x0FFF#32] ∧
    hostOps (.rd (.elem .twid 1 .im)) = [.read 0x4000C#20] ∧
    Stmt.wellFormed Build.default (.poll (.elem .spec 511 .re) 1#32 1#32) = true := by decide

/-- R66, R76: of a core at 0x40000000, the address of FRAME_N, and the addresses on both sides of the aperture. -/
theorem test_core_base :
    let b : Build := ⟨10, 0x35800000#32, 0x40000000, .binary32⟩
    SystemTransfer.toCore b (.write 0x4000000C 8#32) = some (.write 0x0000C#20 8#32) ∧
    SystemTransfer.toCore b (.read 0x400FFFFC) = some (.read 0xFFFFC#20) ∧
    SystemTransfer.toCore b (.read 0x3FFFFFFC) = none ∧ SystemTransfer.toCore b (.read 0x40100000) = none := by decide

/-- R71, R77: a word written to WORKB[1].im, read back, its bytes, and a read of an unaligned offset. -/
theorem test_work_window :
    after (hostWrite 0x8000E#20 0x11223344#32 (configured 1 0 []))
      (fun t => (busRead 0x8000C#20 t, t.mem.byte? 0x8000C, t.mem.byte? 0x8000F)) =
    some ((0x11223344#32, 0), some 0x44#8, some 0x11#8) := by decide

/-- 95_test_vectors.md 3.9: an ILLEGAL_CMD, then with IRQ_ENABLE = 0x8 the interrupt output. -/
theorem test_error_interrupt :
    after (hostWrite 0x014#20 0x000000FF#32 { State.reset with irqEnable := 0x8#4 })
      (fun t => (readReg .err t, t.irq, readReg .status t)) = some (0x0000FF04#32, true, 0xC00#32) := by decide

/-! ### A running state meets the invariants -/

theorem holding_control : ControlInv processing where
  handoff :=
    { active_not_ready := by decide
      active_not_held := by decide
      one_ready := by decide
      ready_is_other := by intro sl; cases sl <;> decide
      one_held := by decide
      held_is_other := by intro sl; cases sl <;> decide
      ready_or_held := by intro sl; cases sl <;> decide
      stopped := by decide
      running := by decide }
  config := { build_ok := by decide, active_ok := fun _ => by unfold State.activeOk; decide }
  pending := fun _ => ⟨.process, by decide, by show processing.held.any = true; decide⟩

theorem holding_tables : TablesInv processing := by
  intro _
  refine ⟨fun k hk => ?_, fun n hn => ?_⟩
  · have hk : k = 0 := by
      have : k < 1 := hk
      omega
    subst hk
    exact ⟨by decide +kernel, by decide +kernel⟩
  · have hn : n < 2 := hn
    interval_cases n <;> decide +kernel

theorem holding_frames : FramesInv processing where
  filling := by
    intro _ i hi
    have hi : i < 1 := hi
    interval_cases i
    show (processing.mem.half? 0x30000).isSome = true
    decide
  complete := by
    intro sl h i hi
    have hi : i < 2 := hi
    cases sl
    · interval_cases i <;> (unfold Memory.codeWritten; decide)
    · exact absurd h (by decide)

theorem holding_canonical : processing.mem.wf := by decide

theorem idleHeld_stalled : StalledInv idleHeld :=
  ⟨by decide, fun k hk => ⟨.write 0x60000#20 0x3F800000#32, [], by rw [List.mem_singleton.mp hk]; rfl, by decide⟩, by decide⟩

theorem busyHeld_stalled : StalledInv busyHeld :=
  ⟨by decide, fun k hk => ⟨.write 0x60000#20 0x3F800000#32, [], by rw [List.mem_singleton.mp hk]; rfl, by decide⟩, by decide⟩

/-! ### Each statement with hypotheses has a state and operands that meet them -/

theorem witness_DecodeEncodeAgree :
    (Instr.smp 0xFFFF#16).wellFormed = true ∧ decodeWord .producer (encode (.smp 0xFFFF#16)) = .ok (.smp 0xFFFF#16) := by
  decide

theorem witness_IllegalCommandWords :
    State.reset.busy = false ∧ decodeC 0x00000015#32 = .error .illegalCommand ∧
    decodeC 0x80000014#32 = .error .illegalCommand ∧ decodeC 0x00000100#32 = .error .illegalCommand ∧
    decodeC 0x00000212#32 = .error .illegalCommand := by decide

theorem witness_ProducerWords :
    (0x3FFFFFFF#32).getLsbD 31 = false ∧ (0x3FFFFFFF#32).getLsbD 30 = false ∧ (0x7FFFFFFF#32).getLsbD 31 = false ∧
    (0x7FFFFFFF#32).getLsbD 30 = true ∧ (0x80000000#32).getLsbD 31 = true ∧ holding.run = true ∧
    State.reset.run = false := by decide

/-- One state for each clause: a command word, the completion, a producer word (while nothing holds, and while a command
executes and a transfer holds), and an empty schedule. -/
theorem witness_StepRunsTheDecodedInstruction :
    (let s := { State.reset with masters := [[.write 0x17#20 0x00000004#32]], schedule := [.host 0] }
     s.schedule = .host 0 :: [] ∧ s.resetHeld = false ∧ s.busy = false ∧ s.stalled = [] ∧
       s.masters.getD 0 [] = .write 0x17#20 0x00000004#32 :: [] ∧ wordOffset 0x17#20 = 0x14 ∧
       decodeC 0x00000004#32 = .ok .claim) ∧
    (processing.schedule = .engine :: [] ∧ processing.busy = true ∧ decodeC processing.pend.word = .ok .process) ∧
    (let s := { holding with port := [0x40000000#32], schedule := [.producer] }
     s.schedule = .producer :: [] ∧ s.resetHeld = false ∧ s.stalled = [] ∧ s.port = 0x40000000#32 :: [] ∧
       decodeP 0x40000000#32 = .ok .frc) ∧
    (let s := { processing with stalled := [0], schedule := [.producer] }
     s.schedule = .producer :: [] ∧ s.resetHeld = false ∧ s.busy = true ∧ s.port = 0x40000000#32 :: []) ∧
    (let s := executing .stop holding
     s.schedule = [] ∧ s.busy = true ∧ decodeC s.pend.word = .ok .stop) := by decide

theorem witness_PlacedWordRunsNext :
    decodeTableWord 32 (0x00000311#32).toNat = some (.fft .b .b) ∧ formatOf (.fft .b .b) = .command ∧
    State.reset.busy = false ∧
    decodeTableWord 32 (0x3FFF0FFF#32).toNat = some (.smp 0x0FFF#16) ∧ formatOf (.smp 0x0FFF#16) ≠ .command ∧
    processing.busy = true := by decide

theorem witness_IssueStep :
    processing.busy = true ∧ State.reset.busy = false ∧ decodeC 0xFFFFFFFF#32 = .error .illegalCommand ∧
    decodeC 0x00000002#32 = .ok .start ∧ checkOf .start State.reset = some .notConfigured ∧
    checkOf .start (configured 1 0 []) = none := by decide

theorem witness_CompletionStep :
    processing.busy = true ∧ decodeC processing.pend.word = .ok .process ∧ State.reset.busy = false := by decide

/-- A command refused by its own check, and one refused because another executes. -/
theorem witness_RejectedCommandIsPrecise :
    (∃ t, cmdWrite 0x00000002#32 State.reset = .next t ∧ t.busy = State.reset.busy) ∧
    (∃ t, cmdWrite 0x00000000#32 processing = .next t ∧ t.busy = processing.busy) :=
  ⟨⟨_, rfl, rfl⟩, ⟨_, rfl, rfl⟩⟩

theorem witness_ErrorRecording :
    State.reset.err.cause = 0#8 ∧ (raise true 0#8 .portShort State.reset).err.cause ≠ 0#8 := by decide

/-- The last check of CONFIGURE at both ends of MID, and acceptance between them. -/
theorem witness_ConfigureChecks :
    let s := { State.reset with frameN := 1024#32, config := ⟨4#3, 16#5, 16#5⟩, midCode := 65535#16 }
    s.busy = false ∧ checkConfigure s = none ∧ checkConfigure { s with midCode := 0#16 } = some .badParam ∧
    checkConfigure { s with config := ⟨4#3, 15#5, 16#5⟩, midCode := 32768#16 } = some .badParam := by decide

theorem witness_OtherIssueChecks : holding.busy = false ∧ State.reset.busy = false := by decide

theorem witness_NopStopReleaseComplete : processing.busy = true := by decide

theorem witness_StartCompletes :
    (executing .start (configured 1 0 [])).busy = true ∧ checkOf .start (configured 1 0 []) = none := by decide

/-- From reset; the same N and kind; a new kind. -/
theorem witness_ConfigureCompletes :
    (let s := executing .configure State.reset
     s.busy = true ∧ s.build.wellFormed = true ∧ s.cfgValid = false) ∧
    (let s := executing .configure { configured 1 1 tables2 with pend := ⟨0#32, ⟨2#32, ⟨1#3, 8#5, 8#5⟩, 1#16⟩⟩ }
     s.busy = true ∧ s.build.wellFormed = true ∧ s.cfgValid = true ∧ s.pend.snapshot.n = s.actN ∧
       s.pend.snapshot.config.winKind = s.actConfig.winKind) ∧
    (let s := executing .configure { configured 1 1 tables2 with pend := ⟨0#32, ⟨2#32, ⟨2#3, 8#5, 8#5⟩, 1#16⟩⟩ }
     s.busy = true ∧ s.build.wellFormed = true ∧ s.cfgValid = true ∧ s.pend.snapshot.n = s.actN ∧
       s.pend.snapshot.config.winKind ≠ s.actConfig.winKind) := by decide

/-- Slot 0 ready, slot 1 ready, and none. -/
theorem witness_ClaimCompletes :
    (executing .claim { configured 1 0 [] with run := true, active := .s1, ready := ⟨true, false⟩ }).busy = true ∧
    (executing .claim { configured 1 0 [] with run := true, ready := ⟨false, true⟩ }).ready = ⟨false, true⟩ ∧
    (executing .claim (configured 1 0 [])).ready = ⟨false, false⟩ := by decide

theorem witness_ConvertCompletes :
    processing.busy = true ∧ processing.build.wellFormed = true ∧ processing.activeN ≤ processing.build.nmax ∧
    0 < processing.activeN := by decide

/-- N = NMAX = 2, and the largest build. -/
theorem witness_FftCompletes :
    (processing.busy = true ∧ processing.build.wellFormed = true ∧ processing.activeN = 2 ^ 1 ∧
      processing.activeN ≤ processing.build.nmax) ∧
    (let s := executing (.fft .a .b) (configured 14 0 [])
     s.busy = true ∧ s.build.wellFormed = true ∧ s.activeN = 2 ^ 14 ∧ s.activeN ≤ s.build.nmax) := by decide

theorem witness_MagCompletes :
    let s := executing (.mag .b) (configured 14 0 [])
    s.busy = true ∧ s.build.wellFormed = true ∧ s.activeN ≤ s.build.nmax := by decide

theorem witness_NormCompletes :
    let s := executing .norm (configured 1 0 [])
    s.busy = true ∧ s.build.wellFormed = true ∧ s.activeN ≤ s.build.nmax := by decide

theorem witness_ProcessCompletes :
    processing.busy = true ∧ processing.build.wellFormed = true ∧ processing.activeN ≤ processing.build.nmax := by decide

/-- A full frame, and one sample short of it. -/
theorem witness_SampleIsStored :
    (let s := { holding with wp := 2#15 }
     s.run = true ∧ s.wp.toNat = s.activeN) ∧
    holding.run = true ∧ holding.wp.toNat ≠ holding.activeN ∧ holding.wp.toNat + 1 = holding.activeN := by decide

/-- One state for each case. -/
theorem witness_FrameCompletion :
    (holding.run = true ∧ holding.wp.toNat ≠ holding.activeN) ∧
    (let s := { holding with wp := 2#15 }
     s.run = true ∧ s.wp.toNat = s.activeN ∧ s.held.get s.active.other = true) ∧
    (let s := { holding with wp := 2#15, held := ⟨false, false⟩, ready := ⟨true, false⟩ }
     s.wp.toNat = s.activeN ∧ s.held.get s.active.other = false ∧ s.ready.get s.active.other = true) ∧
    (let s := { holding with wp := 2#15, held := ⟨false, false⟩ }
     s.wp.toNat = s.activeN ∧ s.held.get s.active.other = false ∧ s.ready.get s.active.other = false) := by decide

theorem witness_RegisterFields :
    (Reg.config = Reg.config ∧ holding.config = holding.config) ∧ (Reg.actConfig = Reg.actConfig ∧
      holding.actConfig = holding.actConfig) := by decide

theorem witness_RegisterWrites : Reg.actMid ∈ [Reg.id, .param, .status, .wp, .specSeq, .maxMag, .actN, .actConfig, .actMid] := by
  decide

/-- The first register and the last, CMD, and both ends of the reserved offsets. -/
theorem witness_RegisterMap :
    (wordOffset 0x000#20 = Reg.id.offset ∧ Reg.id ≠ .cmd) ∧ (wordOffset 0x047#20 = Reg.actMid.offset ∧ Reg.actMid ≠ .cmd) ∧
    wordOffset 0x014#20 = Reg.cmd.offset ∧ (0x048 ≤ wordOffset 0x048#20 ∧ wordOffset 0x048#20 < 0x20000) ∧
    (0x048 ≤ wordOffset 0x1FFFF#20 ∧ wordOffset 0x1FFFF#20 < 0x20000) := by decide

/-- A core at 0x40000000: the first and the last address of its aperture, and the addresses beside them. -/
theorem witness_LowAddressBitsAreIgnored :
    (let b : Build := ⟨10, 0x35800000#32, 0x40000000, .binary32⟩
     b.wellFormed = true ∧ systemAddress b 0x00000#20 = 0x40000000 ∧ systemAddress b 0xFFFFF#20 = 0x400FFFFF ∧
       0x3FFFFFFF < b.coreBase ∧ b.coreBase + 0x100000 ≤ 0x40100000) ∧
    (0x60003#20).extractLsb' 2 18 = (0x60000#20).extractLsb' 2 18 ∧ (0x60003#20) ≠ 0x60000#20 := by decide

/-- A written and an unwritten code, a written and an unwritten component, the first reserved element and the last word of a
region, and both ends of the reserved offsets. -/
theorem witness_WindowReads :
    processing.build.wellFormed = true ∧
    (1 < Window.raw0.count processing.build ∧ processing.mem.half? (Window.raw0.elem 1) = some 0#16 ∧
      processing.mem.half? (Window.raw1.elem 1) = none) ∧
    (0 < Window.twid.count processing.build ∧ processing.mem.word? (Window.twid.elem 0 + 4) = some 0#32 ∧
      processing.mem.word? (Window.workB.elem 1 + 4) = none) ∧
    (Window.spec.count processing.build ≤ 1 ∧ 0 < Window.spec.stride ∧
      Window.spec.elem 1 + 0 < Window.spec.base + Window.spec.size) ∧
    (Window.workB.count processing.build ≤ 16383 ∧ 7 < Window.workB.stride ∧
      Window.workB.elem 16383 + 7 < Window.workB.base + Window.workB.size) ∧
    0xC0000 ≤ (0xC0000#20).toNat ∧ 0xC0000 ≤ (0xFFFFF#20).toNat := by decide

theorem witness_WindowWrites :
    holding.build.wellFormed = true ∧ 1 < holding.build.nmax ∧ windowAt (wordOffset 0x20000#20) = some .raw0 ∧
    windowAt (wordOffset 0xBFFFF#20) = some .spec := by decide

/-- A held transfer once no command executes; a window transfer while one executes, of a master that already holds and of one
that does not; a register transfer then; and a window transfer when none executes. -/
theorem witness_RamTransfersHold :
    (idleHeld.busy = false ∧ idleHeld.stalled = 0 :: []) ∧ 0 ∈ busyHeld.stalled ∧ busyHeld.busy = true ∧
    busyHeld.masters.getD 0 [] = .write 0x60000#20 0x3F800000#32 :: [] ∧ 0 ∉ processing.stalled ∧
    (processing.masters.getD 0 [] = .write 0x60000#20 0x3F800000#32 :: [] ∧ processing.resetHeld = false ∧
      processing.busy = true ∧ 0x20000 ≤ wordOffset 0x60000#20 ∧ wordOffset 0x60000#20 < 0xC0000) ∧
    wordOffset (HostOp.read 0x1FFFF#20).target < 0x20000 ∧ wordOffset (HostOp.poll 0x018#20 1#32 0#32).target < 0x20000 ∧
    0xC0000 ≤ wordOffset (HostOp.read 0xC0000#20).target ∧
    holding.busy = false := by decide

theorem witness_ReadsHaveNoSideEffect :
    ∃ t, ({ holding with masters := [[.read 0x20000#20]] } : State).masters.getD 0 [] = .read 0x20000#20 :: [] ∧
      hostStep 0 { holding with masters := [[.read 0x20000#20]] } = .next t := ⟨_, rfl, rfl⟩

theorem witness_ByteViewIsLittleEndian :
    tables2.word? 0x40000 = some 0x3F800000#32 ∧ tables2.byte? 0x40003 = some 0x3F#8 := by decide

/-- Reset asserted while a command executes; a write, a read and a producer word in reset. -/
theorem witness_ResetInput :
    let s := { processing with resetHeld := true, masters := [[.write 0x8#20 1#32], [.read 0x18#20]] }
    s.resetHeld = true ∧ s.masters.getD 0 [] = .write 0x8#20 1#32 :: [] ∧ s.masters.getD 1 [] = .read 0x18#20 :: [] ∧
    s.port = 0x40000000#32 :: [] := by decide

theorem convert_processing : ∃ t, exec .convert processing = .next t := ⟨_, rfl⟩

theorem step_processing : ∃ t, step processing = .next t := ⟨_, rfl⟩

theorem witness_StepKeepsControlInvariant : ControlInv processing ∧ StalledInv busyHeld ∧ StalledInv idleHeld ∧
    (∃ t, step processing = .next t) ∧ (∃ t, step busyHeld = .next t) ∧ ∃ t, step idleHeld = .next t :=
  ⟨holding_control, busyHeld_stalled, idleHeld_stalled, step_processing, ⟨_, rfl⟩, ⟨_, rfl⟩⟩

theorem witness_StepKeepsTables : ControlInv processing ∧ TablesInv processing ∧ ∃ t, step processing = .next t :=
  ⟨holding_control, holding_tables, step_processing⟩

theorem witness_StepKeepsFramesWritten : ControlInv processing ∧ FramesInv processing ∧ ∃ t, step processing = .next t :=
  ⟨holding_control, holding_frames, step_processing⟩

theorem witness_StepKeepsMemoryCanonical : processing.mem.wf ∧ ∃ t, step processing = .next t :=
  ⟨holding_canonical, step_processing⟩

theorem witness_HeldFrameIsNeverWritten :
    ControlInv processing ∧ processing.held.get .s0 = true ∧ (nextAgent processing).1 ≠ .assertReset ∧
    (∃ t, step processing = .next t) ∧ 1 < processing.build.nmax :=
  ⟨holding_control, by decide, by decide, step_processing, by decide⟩

theorem witness_ConvertTakesNoDraw :
    ControlInv processing ∧ TablesInv processing ∧ FramesInv processing ∧ processing.busy = true ∧
    processing.held.any = true ∧ ∃ t, exec .convert processing = .next t :=
  ⟨holding_control, holding_tables, holding_frames, by decide, by decide, convert_processing⟩

theorem witness_EveryStepIsSafe : ControlInv processing := holding_control

/-- The ENGINE is next; and a transfer is due after the completion. -/
theorem witness_AcceptedCommandCompletes :
    (ControlInv processing ∧ processing.busy = true ∧ processing.schedule = .engine :: []) ∧
    StalledInv idleHeld ∧ idleHeld.busy = false ∧ idleHeld.stalled.length = 1 :=
  ⟨⟨holding_control, by decide, by decide⟩, idleHeld_stalled, by decide, by decide⟩

theorem witness_OnlyTheListedWriters :
    ControlInv processing ∧ (∃ t, step processing = .next t) ∧ (nextAgent processing).1 ≠ .assertReset :=
  ⟨holding_control, step_processing, by decide⟩

/-- A host write of 1 to bit 3 clears it. -/
theorem witness_EventBitsAreSticky :
    let s := { State.reset with irqStatus := 0xF#4, masters := [[.write 0x34#20 0x8#32]], schedule := [.host 0] }
    s.irqStatus.getLsbD 3 = true ∧ after (step s) (fun t => (t.irqStatus.getLsbD 3, t.irqStatus.getLsbD 0)) =
      some (false, true) := by decide

theorem witness_InPlacePermutationAgrees :
    [czero, czero].length = 2 ^ 1 ∧ rev 3 1 = 4 ∧ rev 3 6 = 3 := by decide

theorem witness_ButterfliesCommute : (0 : Nat) ≠ 1 ∧ (0 : Nat) ≠ 1 + 2 ∧ (1 : Nat) ≠ 0 + 2 := by decide

/-- The largest `p` that rounds to a finite value for `q = 2`, and the smallest that rounds to infinity for `q = 1`. -/
theorem witness_RoundingIsToNearestEven :
    (0 < 2 ∧ 2 * (NUM.units 0x7F7FFFFF#32 + NUM.units 0x7F800000#32 - 1) <
      (NUM.units 0x7F7FFFFF#32 + NUM.units 0x7F800000#32) * 2) ∧
    (NUM.units 0x7F7FFFFF#32 + NUM.units 0x7F800000#32) * 1 ≤
      2 * ((NUM.units 0x7F7FFFFF#32 + NUM.units 0x7F800000#32) / 2) ∧
    NUM.roundMag (NUM.units 0x7F7FFFFF#32 + NUM.units 0x7F800000#32 - 1) 2 = 0x7F7FFFFF ∧
    NUM.roundMag ((NUM.units 0x7F7FFFFF#32 + NUM.units 0x7F800000#32) / 2) 1 = 0x7F800000 := by decide +kernel

/-- Both ends: zero, the smallest subnormal and the largest finite value. -/
theorem witness_SquareRootIsNearest :
    (NUM.isFinite 0x00000000#32 = true ∧ NUM.sign 0x00000000#32 = false) ∧
    (NUM.isFinite 0x00000001#32 = true ∧ NUM.sign 0x00000001#32 = false) ∧
    NUM.isFinite 0x7F7FFFFF#32 = true ∧ NUM.sign 0x7F7FFFFF#32 = false := by decide

theorem witness_NanRules :
    NUM.isNaN (NUM.fadd 0x7F800000#32 0xFF800000#32) = true ∧ NUM.isNaN (NUM.fsub 0x7F800000#32 0x7F800000#32) = true ∧
    NUM.isNaN (NUM.fmul 0x00000000#32 0x7F800000#32) = true ∧ NUM.isNaN (NUM.fdiv 0x00000000#32 0x80000000#32) = true ∧
    NUM.isNaN (NUM.fsqrt 0xBF800000#32) = true ∧ NUM.isNaN 0x7F800001#32 = true ∧
    NUM.fsqrt 0xFFC12345#32 = 0x7FC00000#32 := by decide

theorem witness_IntegerConversionIsExact : (-16777215 : Int).natAbs < 2 ^ 24 ∧ (16777215 : Int).natAbs < 2 ^ 24 := by decide

theorem witness_ConversionOfTheEnds : (1#16 : Half) ≠ 0#16 ∧ (0xFFFF#16 : Half) ≠ 0#16 := by decide

/-- Both ends of OUT_BITS, and 1.0 as the normalized value. -/
theorem witness_QuantizedCodeBound :
    1 ≤ 1 ∧ 16 ≤ 16 ∧ NUM.fdiv 0x35800000#32 0x35800000#32 = 0x3F800000#32 := by decide +kernel

/-- The maximum exactly MAG_EPS (95_test_vectors.md 3.6, case D). -/
theorem witness_MaximumBinGetsMaxout :
    0 < (0x35800000#32 : Word).toNat ∧ (0x35800000#32 : Word).toNat < 0x7F800000 ∧
    (∀ x ∈ [0x35800000#32, 0x00000000#32], NUM.isFinite x = true ∧ NUM.sign x = false) ∧
    maxMagnitude [0x35800000#32, 0x00000000#32] = 0x35800000#32 ∧
    NUM.flt (maxMagnitude [0x35800000#32, 0x00000000#32]) 0x35800000#32 = false := by
  refine ⟨by decide, by decide, ?_, by decide +kernel, by decide +kernel⟩
  rintro x (_ | ⟨_, _ | ⟨_, h⟩⟩)
  · decide
  · decide
  · cases h

/-- N = 2 (no quarter entry), N = 4; of N = 8 entries of each component that their enclosures settle, among them the exact
zero of each; and window entries likewise. -/
theorem witness_TableEntries :
    2 ≤ 2 ∧ 4 % 4 = 0 ∧ 3 < 8 / 2 ∧
    ((NUM.settle (NUM.cosTurn 3 8) 1).isSome = true ∧ (NUM.settle (NUM.cosTurn 2 8) 1).isSome = true) ∧
    ((NUM.settle (NUM.minusSinTurn 3 8) 1).isSome = true ∧ (NUM.settle (NUM.minusSinTurn 0 8) 1).isSome = true) ∧
    (NUM.settle (NUM.windowFix 4 8 7) 100000).isSome = true ∧ (NUM.settle (NUM.windowFix 3 8 1) 100000).isSome = true ∧
    (NUM.settle (NUM.windowFix 1 8 7) 100000).isSome = true := by decide +kernel

/-- The default record; finite operands of both signs with a non-zero divisor, the largest finite value, -0.0 for the root,
and infinities. -/
theorem witness_PrimitivesRoundTheExactResult :
    State.reset.build.num = .binary32 ∧
    (NUM.isFinite 0x7F7FFFFF#32 = true ∧ NUM.isFinite 0x80000001#32 = true ∧ NUM.isZero 0x80000001#32 = false) ∧
    (NUM.isFinite 0x80000000#32 = true ∧ 0 ≤ NUM.signedUnits 0x80000000#32 ∧ 0 ≤ NUM.signedUnits 0x7F7FFFFF#32) ∧
    (NUM.isNaN 0x7F800000#32 = false ∧ NUM.isNaN 0xFF800000#32 = false ∧ NUM.isInf 0x7F800000#32 = true ∧
      NUM.isInf 0xFF800000#32 = true) := by decide

theorem witness_CosineIsEnclosed : (0 : Nat) < 1 ∧ (0 : Nat) ≤ 1 ∧ (1 : Nat) ≤ 1 := by decide

end Sys2Proof.Tests
end

section
/-! PROOFS. Rounding to nearest even, said once for every real number: between which midpoints a real number lies that is
rounded to an encoding, that `roundMag` rounds so, and what follows for encodings with a sign. -/

namespace Sys2Proof.NUM

/-! ### The value of absolute-value bits -/

/-- The value of the absolute-value bits `y`, in units of 2^-149. The bits of infinity count as 2^128. -/
noncomputable def bitsValue (y : Nat) : ℝ := units (BitVec.ofNat 32 y)

theorem bitsValue_lt {a b : Nat} (h : a < b) (hb : b ≤ infBits) : bitsValue a < bitsValue b :=
  Nat.cast_lt.mpr (units_lt a b h (lt_of_le_of_lt hb infBits_lt))

theorem bitsValue_le {a b : Nat} (h : a ≤ b) (hb : b ≤ infBits) : bitsValue a ≤ bitsValue b :=
  Nat.cast_le.mpr (units_le a b h (lt_of_le_of_lt hb infBits_lt))

theorem bitsValue_nonneg (y : Nat) : 0 ≤ bitsValue y := Nat.cast_nonneg _

@[simp] theorem bitsValue_zero : bitsValue 0 = 0 := by
  rw [bitsValue, units_ofNat 0 0 0 rfl (by omega) (.inl rfl) (by omega), Nat.zero_mul, Nat.cast_zero]

theorem bitsValue_magBits (x : Word) : bitsValue (magBits x) = units x := by
  rw [bitsValue, ← units_magBits]

theorem units_infBits : units (BitVec.ofNat 32 infBits) = 2 ^ 277 := by
  rw [units_ofNat infBits 254 (2 ^ 23) (by decide) (by omega) (.inr le_rfl) infBits_lt, ← pow_add]

/-- The overflow threshold: the midpoint between the largest finite value and 2^128, twice. -/
theorem threshold_eq :
    ((units 0x7F7FFFFF#32 + units 0x7F800000#32 : Nat) : ℝ) = bitsValue (infBits - 1) + bitsValue infBits :=
  Nat.cast_add _ _

/-! ### The midpoints of a rounding -/

/-- The absolute-value bits `m` are those of `t` rounded to nearest even: `t` is on `m`'s side of the midpoint between
`m` and every other encoding, and is that midpoint only where `m` is even. Infinity takes part as the value 2^128, which puts the
overflow threshold of R14 where IEEE 754 has it (log entry 12). -/
structure RoundsTo (m : Nat) (t : ℝ) : Prop where
  le_inf : m ≤ infBits
  below : ∀ y < m, bitsValue y + bitsValue m ≤ 2 * t ∧ (bitsValue y + bitsValue m = 2 * t → m % 2 = 0)
  above : ∀ y, m < y → y ≤ infBits →
    2 * t ≤ bitsValue m + bitsValue y ∧ (2 * t = bitsValue m + bitsValue y → m % 2 = 0)

/-- Zero is rounded to zero. -/
theorem roundsTo_zero : RoundsTo 0 0 where
  le_inf := Nat.zero_le _
  below y hy := absurd hy (Nat.not_lt_zero y)
  above y _ _ := ⟨by simpa using bitsValue_nonneg y, fun _ => rfl⟩

/-- Only zero is what zero is rounded to. -/
theorem RoundsTo.eq_zero {m : Nat} (h : RoundsTo m 0) : m = 0 := by
  by_contra hm
  have hpos := bitsValue_lt (Nat.pos_of_ne_zero hm) h.le_inf
  have hmid := (h.below 0 (Nat.pos_of_ne_zero hm)).1
  rw [bitsValue_zero] at hpos hmid
  linarith

/-- The encoding above `t`, where `t` is above the midpoint or the encoding below is odd. -/
theorem roundsTo_succ {d : Nat} {t : ℝ} (hd : d < infBits) (hlt : t < bitsValue (d + 1))
    (hmid : bitsValue d + bitsValue (d + 1) < 2 * t ∨ bitsValue d + bitsValue (d + 1) = 2 * t ∧ d % 2 = 1) :
    RoundsTo (d + 1) t where
  le_inf := hd
  below y hy := by
    have hyd := bitsValue_le (Nat.le_of_lt_succ hy) hd.le
    rcases hmid with hmid | ⟨hmid, hodd⟩
    · exact ⟨by linarith, fun h => by linarith⟩
    · exact ⟨by linarith, fun _ => by omega⟩
  above y hy hyi := by
    have hdy := bitsValue_lt hy hyi
    exact ⟨by linarith, fun h => by linarith⟩

/-- The encoding below `t`, where `t` is below the midpoint or the encoding is even. -/
theorem roundsTo_floor {d : Nat} {t : ℝ} (hd : d < infBits) (hle : bitsValue d ≤ t)
    (hmid : 2 * t < bitsValue d + bitsValue (d + 1) ∨ 2 * t = bitsValue d + bitsValue (d + 1) ∧ d % 2 = 0) :
    RoundsTo d t where
  le_inf := hd.le
  below y hy := by
    have hyd := bitsValue_lt hy hd.le
    exact ⟨by linarith, fun h => by linarith⟩
  above y hy hyi := by
    have hdy := bitsValue_le (Nat.succ_le_of_lt hy) hyi
    rcases hmid with hmid | ⟨hmid, heven⟩
    · exact ⟨by linarith, fun h => by linarith⟩
    · exact ⟨by linarith, fun _ => heven⟩

/-- Infinity, from 2^128 on. -/
theorem roundsTo_infBits {t : ℝ} (h : bitsValue infBits ≤ t) : RoundsTo infBits t where
  le_inf := le_rfl
  below y hy := ⟨by linarith [bitsValue_lt hy le_rfl], fun _ => rfl⟩
  above y hy hyi := absurd hy (Nat.not_lt.mpr hyi)

/-- A real number that compares with every half unit as `t` does is rounded as `t` is. -/
theorem RoundsTo.congr {m : Nat} {t u : ℝ} (h : RoundsTo m t)
    (hhalf : ∀ c : Nat, ((c : ℝ) ≤ 2 * t ↔ (c : ℝ) ≤ 2 * u) ∧ (2 * t ≤ c ↔ 2 * u ≤ c)) : RoundsTo m u where
  le_inf := h.le_inf
  below y hy := by
    obtain ⟨hle, heven⟩ := h.below y hy
    obtain ⟨hc, hc'⟩ := hhalf (units (BitVec.ofNat 32 y) + units (BitVec.ofNat 32 m))
    rw [Nat.cast_add, ← bitsValue, ← bitsValue] at hc hc'
    exact ⟨hc.mp hle, fun he => heven (le_antisymm hle (hc'.mpr he.ge))⟩
  above y hy hyi := by
    obtain ⟨hle, heven⟩ := h.above y hy hyi
    obtain ⟨hc, hc'⟩ := hhalf (units (BitVec.ofNat 32 m) + units (BitVec.ofNat 32 y))
    rw [Nat.cast_add, ← bitsValue, ← bitsValue] at hc hc'
    exact ⟨hc'.mp hle, fun he => heven (le_antisymm hle (hc.mpr he.ge))⟩

/-! ### What a rounding to nearest even is -/

/-- No encoding is nearer, and where another one is as near the result is even. -/
theorem RoundsTo.nearest {m : Nat} {t : ℝ} (h : RoundsTo m t) {y : Nat} (hy : y ≤ infBits) :
    |bitsValue m - t| ≤ |bitsValue y - t| ∧ (|bitsValue m - t| = |bitsValue y - t| → y ≠ m → m % 2 = 0) := by
  rcases lt_trichotomy y m with hlt | rfl | hgt
  · obtain ⟨hle, heven⟩ := h.below y hlt
    have hv := bitsValue_lt hlt h.le_inf
    rw [abs_of_nonpos (show bitsValue y - t ≤ 0 by linarith)]
    refine ⟨abs_le.mpr ⟨by linarith, by linarith⟩, fun he _ => heven ?_⟩
    rcases abs_choice (bitsValue m - t) with hc | hc <;> linarith
  · exact ⟨le_rfl, fun _ hne => absurd rfl hne⟩
  · obtain ⟨hle, heven⟩ := h.above y hgt hy
    have hv := bitsValue_lt hgt hy
    rw [abs_of_nonneg (show 0 ≤ bitsValue y - t by linarith)]
    refine ⟨abs_le.mpr ⟨by linarith, by linarith⟩, fun he _ => heven ?_⟩
    rcases abs_choice (bitsValue m - t) with hc | hc <;> linarith

/-- Below the overflow threshold the result is finite. -/
theorem RoundsTo.lt_infBits {m : Nat} {t : ℝ} (h : RoundsTo m t)
    (ht : 2 * t < bitsValue (infBits - 1) + bitsValue infBits) : m < infBits := by
  refine lt_of_le_of_ne h.le_inf fun hm => ?_
  subst hm
  exact absurd (h.below (infBits - 1) (by decide)).1 (not_le.mpr ht)

/-- From the overflow threshold on the result is infinity: at the threshold the largest finite encoding loses the tie, being
odd. -/
theorem RoundsTo.eq_infBits {m : Nat} {t : ℝ} (h : RoundsTo m t)
    (ht : bitsValue (infBits - 1) + bitsValue infBits ≤ 2 * t) : m = infBits := by
  by_contra hne
  have hm : m < infBits := lt_of_le_of_ne h.le_inf hne
  obtain ⟨hle, heven⟩ := h.above infBits hm le_rfl
  have hv := bitsValue_le (Nat.le_sub_one_of_lt hm) (Nat.sub_le _ _)
  have hmax : m = infBits - 1 := by
    refine le_antisymm (Nat.le_sub_one_of_lt hm) (not_lt.mp fun hlt => ?_)
    linarith [bitsValue_lt hlt (Nat.sub_le _ _)]
  have hodd := heven (by linarith)
  rw [hmax] at hodd
  exact absurd hodd (by decide)

/-! ### `roundMag` -/

/-- Where the encoding below `p / q` would be infinity or beyond it, `p / q` is at least 2^128. -/
theorem two_pow_le_of_infBits_le_roundDown {p q : Nat} (h : infBits ≤ roundDown p q) :
    2 ^ 277 ≤ roundSig p q * 2 ^ roundExp p q := by
  obtain ⟨hk, hE⟩ := roundSig_bounds p q
  unfold roundDown infBits at h
  have h1 : 254 ≤ roundExp p q := by omega
  have h2 : 2 ^ 23 ≤ roundSig p q := by omega
  calc 2 ^ 277 = 2 ^ 23 * 2 ^ 254 := (pow_add 2 23 254)
    _ ≤ roundSig p q * 2 ^ roundExp p q := Nat.mul_le_mul h2 (Nat.pow_le_pow_right (by omega) h1)

theorem roundDown_mod_two (p q : Nat) : roundDown p q % 2 = roundSig p q % 2 := by
  unfold roundDown
  omega

theorem lt_two_mul_div_iff {p q c : Nat} (hq : 0 < q) : (c : ℝ) < 2 * ((p : ℝ) / q) ↔ c * q < 2 * p := by
  rw [← mul_div_assoc, lt_div_iff₀ (Nat.cast_pos.mpr hq)]
  exact_mod_cast Iff.rfl

theorem two_mul_div_lt_iff {p q c : Nat} (hq : 0 < q) : 2 * ((p : ℝ) / q) < c ↔ 2 * p < c * q := by
  rw [← mul_div_assoc, div_lt_iff₀ (Nat.cast_pos.mpr hq)]
  exact_mod_cast Iff.rfl

theorem two_mul_div_eq_iff {p q c : Nat} (hq : 0 < q) : 2 * ((p : ℝ) / q) = c ↔ 2 * p = c * q := by
  rw [← mul_div_assoc, div_eq_iff (Nat.cast_pos.mpr hq).ne']
  exact_mod_cast Iff.rfl

/-- R14: `roundMag` rounds the exact value `p / q` to nearest even. -/
theorem roundMag_roundsTo (p q : Nat) (hq : 0 < q) : RoundsTo (roundMag p q) ((p : ℝ) / q) := by
  have hq' : (0 : ℝ) < q := Nat.cast_pos.mpr hq
  by_cases hd : infBits ≤ roundDown p q
  · rw [roundMag_inf p q hd]
    refine roundsTo_infBits ?_
    rw [bitsValue, units_infBits, le_div_iff₀ hq', ← Nat.cast_mul, Nat.cast_le]
    calc 2 ^ 277 * q
      _ ≤ roundSig p q * 2 ^ roundExp p q * q := Nat.mul_le_mul_right q (two_pow_le_of_infBits_le_roundDown hd)
      _ = roundSig p q * (q * 2 ^ roundExp p q) := by ring
      _ ≤ p := Nat.div_mul_le_self p _
  · have hd' : roundDown p q < infBits := not_le.mp hd
    obtain ⟨hlo, hhi, hp, hrem⟩ := round_floor p q hq (by unfold infBits at hd'; omega)
    have hpar := roundDown_mod_two p q
    have hmid : (units (BitVec.ofNat 32 (roundDown p q)) + units (BitVec.ofNat 32 (roundDown p q + 1))) * q =
        2 * (roundSig p q * 2 ^ roundExp p q * q) + q * 2 ^ roundExp p q := by rw [hlo, hhi]; ring
    have hcast : bitsValue (roundDown p q) + bitsValue (roundDown p q + 1) =
        (units (BitVec.ofNat 32 (roundDown p q)) + units (BitVec.ofNat 32 (roundDown p q + 1)) : Nat) :=
      (Nat.cast_add _ _).symm
    by_cases hu : roundsUp p q
    · rw [roundMag_up p q hd' hu]
      refine roundsTo_succ hd' ?_ ?_
      · rw [bitsValue, hhi, div_lt_iff₀ hq', ← Nat.cast_mul, Nat.cast_lt]
        calc p < roundSig p q * 2 ^ roundExp p q * q + q * 2 ^ roundExp p q := by omega
          _ = (roundSig p q + 1) * 2 ^ roundExp p q * q := by ring
      · rw [hcast, lt_two_mul_div_iff hq, eq_comm, two_mul_div_eq_iff hq, hmid]
        unfold roundsUp at hu
        omega
    · rw [roundMag_down p q hd' hu]
      refine roundsTo_floor hd' ?_ ?_
      · rw [bitsValue, hlo, le_div_iff₀ hq', ← Nat.cast_mul, Nat.cast_le]
        omega
      · rw [hcast, two_mul_div_lt_iff hq, two_mul_div_eq_iff hq, hmid]
        unfold roundsUp at hu
        omega

/-! ### With a sign -/

/-- The value of a word is its sign on the value of its absolute-value bits. -/
theorem signedUnits_eq (x : Word) :
    (signedUnits x : ℝ) = if sign x then -bitsValue (magBits x) else bitsValue (magBits x) := by
  unfold signedUnits
  rw [bitsValue_magBits]
  split <;> simp

theorem signedUnits_pack (s : Bool) {m : Nat} (h : m < 2 ^ 31) :
    (signedUnits (pack s m) : ℝ) = if s then -bitsValue m else bitsValue m := by
  rw [signedUnits_eq, sign_pack s m h, magBits_pack s m h]

theorem abs_signedUnits (x : Word) : |(signedUnits x : ℝ)| = bitsValue (magBits x) := by
  rw [signedUnits_eq]
  split <;> simp [abs_of_nonneg (bitsValue_nonneg _)]

theorem isFinite_iff (x : Word) : isFinite x = true ↔ magBits x < infBits := by simp [isFinite]

/-- An encoding is put together from its own sign and absolute-value bits. -/
theorem pack_sign_magBits (x : Word) : pack (sign x) (magBits x) = x :=
  ext_magBits (sign_pack _ _ (magBits_lt x)) (magBits_pack _ _ (magBits_lt x))

/-- Bit 0 of an encoding is that of its absolute-value bits. -/
theorem pack_getLsbD_zero (s : Bool) {m : Nat} (h : m % 2 = 0) : (pack s m).getLsbD 0 = false := by
  have hsum : ((if s then 2 ^ 31 else 0) + m) % 2 = 0 := by split <;> omega
  rw [pack, BitVec.getLsbD_ofNat, Nat.testBit_zero, hsum]
  rfl

/-- A real number with the absolute value `t` and the sign `s`. -/
theorem abs_signed {s : Bool} {t r : ℝ} (ht : 0 ≤ t) (hr : r = if s then -t else t) : |r| = t := by
  subst hr
  split <;> simp [abs_of_nonneg ht]

/-- The distance between values of one sign is that between their absolute values. -/
theorem abs_sub_signed (s : Bool) (a b : ℝ) : |(if s then -a else a) - (if s then -b else b)| = |a - b| := by
  cases s
  · rfl
  · simp only [if_true]
    rw [neg_sub_neg, abs_sub_comm]

/-- Values of opposite signs are as far apart as their absolute values together. -/
theorem abs_sub_opposite {s s' : Bool} (hs : s' ≠ s) {a b : ℝ} (ha : 0 ≤ a) (hb : 0 ≤ b) :
    |(if s' then -a else a) - (if s then -b else b)| = a + b := by
  obtain rfl : s' = !s := Bool.eq_not.mpr hs
  cases s
  · rw [← abs_neg]
    simpa [add_comm] using abs_of_nonneg (add_nonneg ha hb)
  · simpa using abs_of_nonneg (add_nonneg ha hb)

/-- The result is as far from `t` as its negation is only if it is zero. -/
theorem RoundsTo.eq_zero_of_opposite {m : Nat} {t : ℝ} (h : RoundsTo m t) (he : |bitsValue m - t| = bitsValue m + t) :
    m = 0 := by
  rcases abs_choice (bitsValue m - t) with hc | hc
  · obtain rfl : t = 0 := by linarith
    exact h.eq_zero
  · by_contra hm
    have hpos := bitsValue_lt (Nat.pos_of_ne_zero hm) h.le_inf
    rw [bitsValue_zero] at hpos
    linarith

/-- R14: the sign put on the rounding of the absolute value gives the rounding of a real number. -/
theorem RoundsTo.isRounding {m : Nat} {t r : ℝ} {s : Bool} (h : RoundsTo m t) (ht : 0 ≤ t)
    (hr : r = if s then -t else t) : Machine.IsRounding (pack s m) r := by
  have hm : m < 2 ^ 31 := lt_of_le_of_lt h.le_inf infBits_lt
  have habs := abs_signed ht hr
  unfold Machine.IsRounding
  rw [threshold_eq, habs, isFinite_iff, magBits_pack s m hm, signedUnits_pack s hm]
  refine ⟨fun hlt => ⟨h.lt_infBits hlt, fun y hy => ?_⟩, fun hge => ?_⟩
  · rw [isFinite_iff] at hy
    obtain ⟨hnear, heven⟩ := h.nearest hy.le
    have hdist : |(if s then -bitsValue m else bitsValue m) - r| = |bitsValue m - t| := hr ▸ abs_sub_signed s _ t
    have hrev : |bitsValue (magBits y) - t| ≤ |(signedUnits y : ℝ) - r| := by
      rw [← abs_signedUnits, ← habs]
      exact abs_abs_sub_abs_le _ _
    rw [hdist]
    refine ⟨hnear.trans hrev, fun he hne => pack_getLsbD_zero s ?_⟩
    by_cases hmag : magBits y = m
    · have hs : sign y ≠ s := by
        rintro rfl
        exact hne (by rw [← hmag, pack_sign_magBits])
      rw [signedUnits_eq y, hmag, hr, abs_sub_opposite hs (bitsValue_nonneg m) ht] at he
      rw [h.eq_zero_of_opposite he]
    · exact heven (le_antisymm hnear (hrev.trans he.ge)) hmag
  · have hpos : 0 < t := by
      have := bitsValue_lt (show infBits - 1 < infBits by decide) le_rfl
      linarith [bitsValue_nonneg (infBits - 1)]
    rw [h.eq_infBits hge, hr]
    cases s
    · rw [if_neg (by simpa using hpos.le)]
      rfl
    · rw [if_pos (by simpa using hpos)]
      rfl

end Sys2Proof.NUM
end

section
/-! PROOFS. The square root with its sticky bit is rounded as the exact root is. -/

namespace Sys2Proof.NUM

/-! ### The square root -/

/-- The trial bits close in on the root: the square of the result is at most `n`, and the next square is above it. -/
theorem isqrtFrom_spec (n k acc : Nat) (hlo : acc * acc ≤ n) (hhi : n < (acc + 2 ^ k) * (acc + 2 ^ k)) :
    isqrtFrom n k acc * isqrtFrom n k acc ≤ n ∧ n < (isqrtFrom n k acc + 1) * (isqrtFrom n k acc + 1) := by
  induction k generalizing acc with
  | zero => exact ⟨hlo, hhi⟩
  | succ k ih =>
    rw [pow_succ, Nat.mul_two, ← Nat.add_assoc] at hhi
    unfold isqrtFrom
    simp only
    split
    · exact ih _ ‹_› hhi
    · exact ih _ hlo (not_le.mp ‹_›)

/-- `isqrt` is the floor of the square root. -/
theorem isqrt_eq_sqrt (n : Nat) : isqrt n = Nat.sqrt n := by
  refine Nat.eq_sqrt.mpr (isqrtFrom_spec n _ 0 (Nat.zero_le n) ?_)
  rw [Nat.zero_add, ← pow_add]
  exact lt_of_lt_of_le Nat.lt_log2_self (Nat.pow_le_pow_right (by omega) (by omega))

/-- Twice the floor of the root of `n`, and a sticky bit that is 1 where `n` is no square; `fsqrt` rounds an eighth of it. -/
def stickyRoot (n : Nat) : Nat := 2 * isqrt n + (if isqrt n * isqrt n = n then 0 else 1)

theorem le_half_sqrt_iff (n c : Nat) : (c : ℝ) ≤ 2 * (√(n : ℝ) / 4) ↔ 2 * c ≤ isqrt n := by
  rw [isqrt_eq_sqrt, Nat.le_sqrt', ← Nat.cast_le (α := ℝ), Nat.cast_pow,
    ← Real.le_sqrt (Nat.cast_nonneg _) (Nat.cast_nonneg _)]
  constructor <;> intro h <;> push_cast at * <;> linarith

theorem half_sqrt_le_iff (n c : Nat) : 2 * (√(n : ℝ) / 4) ≤ c ↔ n ≤ (2 * c) ^ 2 := by
  rw [← Nat.cast_le (α := ℝ), Nat.cast_pow, ← Real.sqrt_le_left (Nat.cast_nonneg _)]
  constructor <;> intro h <;> push_cast at * <;> linarith

/-- The sticky bit decides between a half unit and the root as the exact root does. -/
theorem stickyRoot_le_iff (n c : Nat) : stickyRoot n ≤ 4 * c ↔ n ≤ (2 * c) ^ 2 := by
  unfold stickyRoot
  rw [isqrt_eq_sqrt]
  split
  · rename_i hsq
    calc 2 * Nat.sqrt n + 0 ≤ 4 * c ↔ Nat.sqrt n ≤ 2 * c := by omega
      _ ↔ Nat.sqrt n ^ 2 ≤ (2 * c) ^ 2 := (Nat.pow_le_pow_iff_left two_ne_zero).symm
      _ ↔ n ≤ (2 * c) ^ 2 := by rw [pow_two (Nat.sqrt n), hsq]
  · rename_i hsq
    have hne : n ≠ (2 * c) ^ 2 := fun h => hsq (by rw [h, Nat.sqrt_eq', pow_two])
    calc 2 * Nat.sqrt n + 1 ≤ 4 * c ↔ Nat.sqrt n < 2 * c := by omega
      _ ↔ n < (2 * c) ^ 2 := Nat.sqrt_lt'
      _ ↔ n ≤ (2 * c) ^ 2 := ⟨le_of_lt, fun h => lt_of_le_of_ne h hne⟩

theorem le_stickyRoot_iff (n c : Nat) : 4 * c ≤ stickyRoot n ↔ 2 * c ≤ isqrt n := by
  unfold stickyRoot
  split <;> omega

/-- R14: the root of `n` with its sticky bit is rounded as the exact root of `n` is. -/
theorem roundMag_stickyRoot (n : Nat) : RoundsTo (roundMag (stickyRoot n) 8) (√(n : ℝ) / 4) := by
  refine (roundMag_roundsTo (stickyRoot n) 8 (by omega)).congr fun c => ⟨?_, ?_⟩
  · rw [← not_lt, two_mul_div_lt_iff (by omega), le_half_sqrt_iff, ← le_stickyRoot_iff]
    omega
  · rw [← not_lt, lt_two_mul_div_iff (by omega), half_sqrt_le_iff, ← stickyRoot_le_iff]
    omega

end Sys2Proof.NUM
end

section
/-! PROOFS. Each primitive of finite operands rounds its exact result once, and the comparisons order the values
(00_scope.md R14). -/

namespace Sys2Proof.NUM

/-! ### The primitives on finite operands -/

theorem not_nan_inf_of_finite {x : Word} (h : isFinite x = true) : isNaN x = false ∧ isInf x = false := by
  rw [isFinite_iff] at h
  simp only [isNaN, isInf, decide_eq_false_iff_not]
  omega

/-- Only the zeros have the value 0. -/
theorem units_pos {x : Word} (h : isZero x = false) : 0 < units x := by
  have hm : magBits x ≠ 0 := by simpa [isZero] using h
  rw [units_magBits]
  exact Nat.zero_lt_of_lt (units_lt 0 _ (Nat.pos_of_ne_zero hm) (magBits_lt x))

theorem signedUnits_cast (x : Word) :
    (signedUnits x : ℝ) = if sign x then -(units x : ℝ) else units x := by
  rw [signedUnits_eq, bitsValue_magBits]

theorem intCast_eq_signed (v : Int) :
    (v : ℝ) = if decide (v < 0) = true then -(v.natAbs : ℝ) else (v.natAbs : ℝ) := by
  simp only [decide_eq_true_eq, Nat.cast_natAbs, Int.cast_abs]
  split
  · rw [abs_of_neg (by exact_mod_cast ‹v < 0›), neg_neg]
  · rw [abs_of_nonneg (by exact_mod_cast not_lt.mp ‹_›)]

/-- A product has the exclusive-or of the signs. -/
theorem signed_mul (s s' : Bool) (a b : ℝ) :
    (if s then -a else a) * (if s' then -b else b) = if (s != s') = true then -(a * b) else a * b := by
  cases s <;> cases s' <;> simp

/-- A quotient has the exclusive-or of the signs. -/
theorem signed_div (s s' : Bool) (a b : ℝ) :
    (if s then -a else a) / (if s' then -b else b) = if (s != s') = true then -(a / b) else a / b := by
  cases s <;> cases s' <;> simp [neg_div, div_neg]

theorem fadd_finite {x y : Word} (hx : isFinite x = true) (hy : isFinite y = true) :
    fadd x y = if signedUnits x + signedUnits y = 0 then pack (isZero x && isZero y && sign x && sign y) 0
      else pack (decide (signedUnits x + signedUnits y < 0)) (roundMag (signedUnits x + signedUnits y).natAbs 1) := by
  obtain ⟨hxn, hxi⟩ := not_nan_inf_of_finite hx
  obtain ⟨hyn, hyi⟩ := not_nan_inf_of_finite hy
  simp [fadd, hxn, hxi, hyn, hyi]

theorem fmul_finite {x y : Word} (hx : isFinite x = true) (hy : isFinite y = true) :
    fmul x y = pack (sign x != sign y) (roundMag (units x * units y) (2 ^ 149)) := by
  obtain ⟨hxn, hxi⟩ := not_nan_inf_of_finite hx
  obtain ⟨hyn, hyi⟩ := not_nan_inf_of_finite hy
  simp [fmul, hxn, hxi, hyn, hyi]

theorem fdiv_finite {x y : Word} (hx : isFinite x = true) (hy : isFinite y = true) (hz : isZero y = false) :
    fdiv x y = pack (sign x != sign y) (roundMag (units x * 2 ^ 149) (units y)) := by
  obtain ⟨hxn, hxi⟩ := not_nan_inf_of_finite hx
  obtain ⟨hyn, hyi⟩ := not_nan_inf_of_finite hy
  simp [fdiv, hxn, hxi, hyn, hyi, hz]

theorem fsqrt_zero {x : Word} (hx : isFinite x = true) (hz : isZero x = true) : fsqrt x = x := by
  simp [fsqrt, (not_nan_inf_of_finite hx).1, hz]

theorem fsqrt_positive {x : Word} (hx : isFinite x = true) (hz : isZero x = false) (hs : sign x = false) :
    fsqrt x = pack false (roundMag (stickyRoot (units x * 2 ^ 149 * 16)) 8) := by
  obtain ⟨hxn, hxi⟩ := not_nan_inf_of_finite hx
  simp [fsqrt, stickyRoot, hxn, hxi, hz, hs]

/-- R14: the sum of finite values is rounded once. -/
theorem fadd_isRounding {x y : Word} (hx : isFinite x = true) (hy : isFinite y = true) :
    Machine.IsRounding (fadd x y) ((signedUnits x : ℝ) + signedUnits y) := by
  rw [fadd_finite hx hy, ← Int.cast_add]
  split
  · rename_i hv
    rw [hv]
    exact roundsTo_zero.isRounding le_rfl (by simp)
  · refine (roundMag_roundsTo _ 1 one_pos).isRounding (by positivity) ?_
    rw [Nat.cast_one, div_one]
    exact intCast_eq_signed _

theorem sign_neg (x : Word) : sign (neg x) = !sign x := by
  rw [sign, neg, BitVec.msb_xor]
  exact Bool.xor_true _

theorem magBits_eq_setWidth (x : Word) : magBits x = (x.setWidth 31).toNat := (BitVec.toNat_setWidth 31 x).symm

theorem magBits_neg (x : Word) : magBits (neg x) = magBits x := by
  have hc : (0x80000000#32).setWidth 31 = 0#31 := by decide
  rw [magBits_eq_setWidth, neg, BitVec.setWidth_xor, hc, BitVec.xor_zero, magBits_eq_setWidth]

theorem signedUnits_neg (x : Word) : signedUnits (neg x) = -signedUnits x := by
  unfold signedUnits
  rw [sign_neg, units_magBits, magBits_neg, ← units_magBits]
  cases sign x <;> simp

/-- R14: the difference of finite values is rounded once. -/
theorem fsub_isRounding {x y : Word} (hx : isFinite x = true) (hy : isFinite y = true) :
    Machine.IsRounding (fsub x y) ((signedUnits x : ℝ) - signedUnits y) := by
  have hy' : isFinite (neg y) = true := by rw [isFinite_iff, magBits_neg, ← isFinite_iff, hy]
  have h := fadd_isRounding hx hy'
  rwa [signedUnits_neg, Int.cast_neg, ← sub_eq_add_neg] at h

/-- R14: the product of finite values is rounded once. -/
theorem fmul_isRounding {x y : Word} (hx : isFinite x = true) (hy : isFinite y = true) :
    Machine.IsRounding (fmul x y) ((signedUnits x : ℝ) * signedUnits y / 2 ^ 149) := by
  rw [fmul_finite hx hy]
  refine (roundMag_roundsTo _ (2 ^ 149) (by positivity)).isRounding (by positivity) ?_
  rw [signedUnits_cast, signedUnits_cast, signed_mul, Nat.cast_mul, Nat.cast_pow, Nat.cast_ofNat]
  split
  · rw [neg_div]
  · rfl

/-- R14: the quotient of finite values by a non-zero value is rounded once. -/
theorem fdiv_isRounding {x y : Word} (hx : isFinite x = true) (hy : isFinite y = true) (hz : isZero y = false) :
    Machine.IsRounding (fdiv x y) ((signedUnits x : ℝ) * 2 ^ 149 / signedUnits y) := by
  rw [fdiv_finite hx hy hz]
  refine (roundMag_roundsTo _ (units y) (units_pos hz)).isRounding (by positivity) ?_
  rw [signedUnits_cast, signedUnits_cast, mul_div_right_comm, signed_div, Nat.cast_mul, Nat.cast_pow, Nat.cast_ofNat,
    mul_div_right_comm]
  split
  · rw [neg_mul]
  · rfl

/-- The absolute-value bits of the root of a non-negative finite value. -/
theorem fsqrt_roundsTo {x : Word} (hx : isFinite x = true) (hs : sign x = false ∨ isZero x = true) :
    RoundsTo (magBits (fsqrt x)) √((units x : ℝ) * 2 ^ 149) ∧ sign (fsqrt x) = sign x := by
  cases hz : isZero x with
  | true =>
    have hm : magBits x = 0 := by simpa [isZero] using hz
    rw [fsqrt_zero hx hz, ← bitsValue_magBits, hm, bitsValue_zero, zero_mul, Real.sqrt_zero]
    exact ⟨roundsTo_zero, rfl⟩
  | false =>
    have hs' : sign x = false := by simpa [hz] using hs
    rw [fsqrt_positive hx hz hs', magBits_pack _ _ (roundMag_lt _ _), sign_pack _ _ (roundMag_lt _ _)]
    have hroot : √((units x * 2 ^ 149 * 16 : Nat) : ℝ) / 4 = √((units x : ℝ) * 2 ^ 149) := by
      rw [Nat.cast_mul _ 16, Real.sqrt_mul (Nat.cast_nonneg _), show ((16 : Nat) : ℝ) = 4 ^ 2 by norm_num,
        Real.sqrt_sq (by norm_num), mul_div_cancel_right₀ _ (by norm_num)]
      norm_num
    exact ⟨hroot ▸ roundMag_stickyRoot _, hs'.symm⟩

/-- R14: the root of a non-negative finite value is rounded once. -/
theorem fsqrt_isRounding {x : Word} (hx : isFinite x = true) (hs : 0 ≤ signedUnits x) :
    Machine.IsRounding (fsqrt x) √((signedUnits x : ℝ) * 2 ^ 149) := by
  have hz : sign x = false ∨ units x = 0 := by
    unfold signedUnits at hs
    split at hs
    · exact .inr (by omega)
    · exact .inl (by simpa using ‹¬ sign x = true›)
  obtain ⟨hround, hsign⟩ := fsqrt_roundsTo hx (hz.imp_right fun h => by
    by_contra hne
    exact (units_pos (by simpa using hne)).ne' h)
  rw [← pack_sign_magBits (fsqrt x), hsign]
  refine hround.isRounding (Real.sqrt_nonneg _) ?_
  rcases hz with hz | hz
  · rw [signedUnits_cast, hz]
    rfl
  · simp [signedUnits_cast, hz]

/-! ### Comparisons -/

/-- The absolute-value bits with the sign: their order is that of the values, the infinities included. -/
def signedBits (x : Word) : Int := if sign x then -(magBits x : Int) else magBits x

/-- R14: `fgt` of two values that are no NaN is the order of their signed bits. -/
theorem fgt_iff_signedBits {x y : Word} (hx : isNaN x = false) (hy : isNaN y = false) :
    fgt x y = true ↔ signedBits y < signedBits x := by
  unfold fgt signedBits
  rw [hx, hy]
  cases sign x <;> cases sign y <;>
    simp only [Bool.or_self, Bool.false_eq_true, reduceIte, decide_eq_true_eq, false_iff] <;> omega

theorem units_lt_iff (x y : Word) : units x < units y ↔ magBits x < magBits y := by
  rw [units_magBits x, units_magBits y]
  exact ⟨fun h => not_le.mp fun hle => absurd (units_le _ _ hle (magBits_lt x)) (not_le.mpr h),
    fun h => units_lt _ _ h (magBits_lt y)⟩

theorem units_eq_zero_iff (x : Word) : units x = 0 ↔ magBits x = 0 := by
  have h := units_lt_iff 0#32 x
  have h0 : units 0#32 = 0 ∧ magBits 0#32 = 0 := by decide
  omega

/-- Signed bits are ordered as the values are. -/
theorem signedBits_lt_iff (x y : Word) : signedBits x < signedBits y ↔ signedUnits x < signedUnits y := by
  have hlt := units_lt_iff x y
  have hgt := units_lt_iff y x
  have hx := units_eq_zero_iff x
  have hy := units_eq_zero_iff y
  unfold signedBits signedUnits
  split <;> split <;> omega

/-- Signed bits other than 0 determine an encoding. -/
theorem signedBits_inj {x y : Word} (h : signedBits x = signedBits y) (h0 : signedBits x ≠ 0) : x = y := by
  unfold signedBits at h h0
  by_cases hs : sign x = sign y
  · refine ext_magBits hs ?_
    rw [hs] at h
    split at h <;> omega
  · exfalso
    rw [Bool.eq_not.mpr hs] at h h0
    cases hy : sign y <;> simp only [hy, Bool.not_false, Bool.not_true, Bool.false_eq_true, reduceIte] at h h0 <;> omega

theorem eq_posInf_iff (x : Word) : x = 0x7F800000#32 ↔ signedBits x = infBits :=
  ⟨fun h => h ▸ rfl, fun h => signedBits_inj h (by rw [h]; decide)⟩

theorem eq_negInf_iff (x : Word) : x = 0xFF800000#32 ↔ signedBits x = -infBits :=
  ⟨fun h => h ▸ rfl, fun h => signedBits_inj h (by rw [h]; decide)⟩

theorem natAbs_signedBits (x : Word) : (signedBits x).natAbs = magBits x := by
  unfold signedBits
  split <;> simp

/-- An infinity is the largest or the smallest of all values (log entry 12). -/
theorem fgt_infinity_iff {x y : Word} (hx : isNaN x = false) (hy : isNaN y = false)
    (hi : isInf x = true ∨ isInf y = true) :
    fgt x y = true ↔ x ≠ y ∧ (x = 0x7F800000#32 ∨ y = 0xFF800000#32) := by
  have hpos : 0 < infBits := by decide
  have hmx : magBits x ≤ infBits := by simpa [isNaN] using hx
  have hmy : magBits y ≤ infBits := by simpa [isNaN] using hy
  have hmi : magBits x = infBits ∨ magBits y = infBits := by simpa [isInf] using hi
  rw [← natAbs_signedBits] at hmx hmy
  rw [← natAbs_signedBits, ← natAbs_signedBits] at hmi
  rw [fgt_iff_signedBits hx hy, eq_posInf_iff, eq_negInf_iff]
  by_cases hxy : x = y
  · simp [hxy]
  · have hne : signedBits x ≠ signedBits y := fun h => hxy (signedBits_inj h (by omega))
    simp only [ne_eq, hxy, not_false_eq_true, true_and]
    omega

end Sys2Proof.NUM
end

section
/-! PROOFS. What a NaN operand gives, and the conversion of integers (00_scope.md R14, R16). -/

namespace Sys2Proof.NUM

/-! ### NaN -/

/-- A NaN operand gives the canonical NaN. -/
theorem nan_operand {x y : Word} (h : isNaN x = true ∨ isNaN y = true) :
    fadd x y = nan ∧ fmul x y = nan ∧ fdiv x y = nan ∧ fgt x y = false := by
  have hor : (isNaN x || isNaN y) = true := by simpa using h
  exact ⟨if_pos hor, if_pos hor, if_pos hor, if_pos hor⟩

theorem fsqrt_nan {x : Word} (h : isNaN x = true) : fsqrt x = nan := if_pos h

theorem isNaN_neg (x : Word) : isNaN (neg x) = isNaN x := by unfold isNaN; rw [magBits_neg]

theorem fadd_nan_or_not (x y : Word) : fadd x y = nan ∨ isNaN (fadd x y) = false := by
  by_cases hnan : isNaN x = true ∨ isNaN y = true
  · exact .inl (nan_operand hnan).1
  · simp only [not_or, Bool.not_eq_true] at hnan
    obtain ⟨hx, hy⟩ := hnan
    simp only [fadd, hx, hy, Bool.or_self, Bool.false_eq_true, if_false]
    split
    · split
      · exact .inl rfl
      · exact .inr hx
    · split
      · exact .inr hy
      · split
        · exact .inr (isNaN_pack _ _ (Nat.zero_le _))
        · exact .inr (isNaN_pack _ _ (roundMag_le _ _))

theorem fmul_nan_or_not (x y : Word) : fmul x y = nan ∨ isNaN (fmul x y) = false := by
  unfold fmul
  simp only
  split
  · exact .inl rfl
  · split
    · split
      · exact .inl rfl
      · exact .inr (isNaN_pack _ _ le_rfl)
    · exact .inr (isNaN_pack _ _ (roundMag_le _ _))

theorem fdiv_nan_or_not (x y : Word) : fdiv x y = nan ∨ isNaN (fdiv x y) = false := by
  unfold fdiv
  simp only
  split
  · exact .inl rfl
  · split
    · split
      · exact .inl rfl
      · exact .inr (isNaN_pack _ _ le_rfl)
    · split
      · exact .inr (isNaN_pack _ _ (Nat.zero_le _))
      · split
        · split
          · exact .inl rfl
          · exact .inr (isNaN_pack _ _ le_rfl)
        · exact .inr (isNaN_pack _ _ (roundMag_le _ _))

theorem fsqrt_nan_or_not (x : Word) : fsqrt x = nan ∨ isNaN (fsqrt x) = false := by
  by_cases hx : isNaN x = true
  · exact .inl (fsqrt_nan hx)
  · simp only [Bool.not_eq_true] at hx
    simp only [fsqrt, hx, Bool.false_eq_true, if_false]
    split
    · exact .inr hx
    · split
      · exact .inl rfl
      · split
        · exact .inr hx
        · exact .inr (isNaN_pack _ _ (roundMag_le _ _))

/-- A value that is the canonical NaN or no NaN is the canonical one where it is a NaN. -/
theorem eq_nan_of_isNaN {v : Word} (h : v = nan ∨ isNaN v = false) (hv : isNaN v = true) : v = nan :=
  h.resolve_right (by simp [hv])

/-! ### Integers -/

/-- An integer below 2^24 has an encoding: its 24 leading bits are all of it. -/
theorem exists_bits_of_nat (n : Nat) (hn : n < 2 ^ 24) :
    ∃ y, y < infBits ∧ units (BitVec.ofNat 32 y) = n * 2 ^ 149 := by
  by_cases h0 : n = 0
  · exact ⟨0, by decide, by rw [h0, Nat.zero_mul]; decide⟩
  · have hlo := Nat.log2_self_le h0
    have hhi := @Nat.lt_log2_self n
    have hl : Nat.log2 n < 24 := (Nat.log2_lt h0).mpr hn
    generalize Nat.log2 n = l at hlo hhi hl
    have hk : n * 2 ^ (23 - l) < 2 ^ 24 := by
      calc n * 2 ^ (23 - l) < 2 ^ (l + 1) * 2 ^ (23 - l) := Nat.mul_lt_mul_of_pos_right hhi (by positivity)
        _ = 2 ^ 24 := by rw [← pow_add]; congr 1; omega
    have hk' : 2 ^ 23 ≤ n * 2 ^ (23 - l) := by
      calc 2 ^ 23 = 2 ^ l * 2 ^ (23 - l) := by rw [← pow_add]; congr 1; omega
        _ ≤ n * 2 ^ (23 - l) := Nat.mul_le_mul_right _ hlo
    have hy : (126 + l) * 2 ^ 23 + n * 2 ^ (23 - l) < infBits := by unfold infBits; omega
    refine ⟨_, hy, ?_⟩
    rw [units_ofNat _ _ _ rfl hk.le (.inr hk') (hy.trans infBits_lt), mul_assoc, ← pow_add]
    congr 2
    omega

/-- R14: an integer below 2^24 is converted without rounding. -/
theorem f32_exact {i : Int} (hi : i.natAbs < 2 ^ 24) :
    isFinite (f32 i) = true ∧ signedUnits (f32 i) = i * 2 ^ 149 := by
  obtain ⟨y, hy, hunits⟩ := exists_bits_of_nat i.natAbs hi
  have hround : roundMag (i.natAbs * 2 ^ 149) 1 = y := by
    rw [← hunits, ← Nat.mul_one (units _)]
    exact roundMag_units y 1 one_pos hy
  have hlt := hy.trans infBits_lt
  rw [f32, hround]
  refine ⟨by rw [isFinite_iff, magBits_pack _ _ hlt]; exact hy, ?_⟩
  unfold signedUnits
  rw [sign_pack _ _ hlt, units_pack _ _ hlt, hunits]
  by_cases hneg : i < 0
  · simp [hneg, abs_of_neg hneg]
  · simp [hneg, abs_of_nonneg (not_lt.mp hneg)]

end Sys2Proof.NUM
end

section
/-! PROOFS. The statements about numbers, settled from the lemmas above. -/

namespace Sys2Proof.NUM

/-- The distance of an encoding's value from `p / q`, over the denominator `q`. -/
theorem abs_bitsValue_sub_div (p q y : Nat) (hq : 0 < q) :
    |bitsValue y - (p : ℝ) / q| = (((units (BitVec.ofNat 32 y) : Int) * q - p).natAbs : ℝ) / q := by
  have hq' : (0 : ℝ) < q := Nat.cast_pos.mpr hq
  rw [bitsValue, sub_div' hq'.ne', abs_div, abs_of_pos hq', Nat.cast_natAbs, Int.cast_abs]
  push_cast
  rfl

/-- Settles O50: the midpoints of `RoundsTo` for the real number `p / q`, brought over the denominator `q`. -/
theorem roundingIsToNearestEven : Obligations.RoundingIsToNearestEven := by
  unfold Obligations.RoundingIsToNearestEven
  intro p q hq
  have hq' : (0 : ℝ) < q := Nat.cast_pos.mpr hq
  have h := roundMag_roundsTo p q hq
  rw [← two_mul_div_lt_iff hq, ← not_lt, ← two_mul_div_lt_iff hq, threshold_eq, not_lt]
  refine ⟨fun hlt => ⟨h.lt_infBits hlt, fun y hy => ?_⟩, h.eq_infBits⟩
  have hnear := h.nearest (le_of_lt hy)
  rw [abs_bitsValue_sub_div p q _ hq, abs_bitsValue_sub_div p q y hq, div_le_div_iff_of_pos_right hq',
    div_left_inj' hq'.ne', Nat.cast_le, Nat.cast_inj] at hnear
  exact hnear

/-- The root of a finite value is far below the overflow threshold. -/
theorem sqrt_lt_threshold {x : Word} (hx : isFinite x = true) :
    2 * √((units x : ℝ) * 2 ^ 149) < bitsValue (infBits - 1) + bitsValue infBits := by
  have hinf : bitsValue infBits = 2 ^ 277 := by rw [bitsValue, units_infBits, Nat.cast_pow, Nat.cast_ofNat]
  have hux : (units x : ℝ) < 2 ^ 277 := by
    rw [← hinf, ← bitsValue_magBits]
    exact bitsValue_lt ((isFinite_iff x).mp hx) le_rfl
  have hroot : √((units x : ℝ) * 2 ^ 149) < 2 ^ 213 := by
    rw [Real.sqrt_lt' (by positivity), ← pow_mul, show 213 * 2 = 277 + 149 by rfl, pow_add]
    exact mul_lt_mul_of_pos_right hux (by positivity)
  calc 2 * √((units x : ℝ) * 2 ^ 149) < 2 * 2 ^ 213 := mul_lt_mul_of_pos_left hroot two_pos
    _ = 2 ^ 214 := (pow_succ' 2 213).symm
    _ ≤ 2 ^ 277 := pow_le_pow_right₀ one_le_two (by omega)
    _ = bitsValue infBits := hinf.symm
    _ ≤ bitsValue (infBits - 1) + bitsValue infBits := le_add_of_nonneg_left (bitsValue_nonneg _)

/-- Settles O51: the root's absolute-value bits are those its exact value rounds to, and it does not overflow. -/
theorem squareRootIsNearest : Obligations.SquareRootIsNearest := by
  unfold Obligations.SquareRootIsNearest
  intro x y hx hy hsx _
  obtain ⟨h, hsign⟩ := fsqrt_roundsTo hx (.inl hsx)
  rw [isFinite_iff] at hy
  have hnear := (h.nearest hy.le).1
  rw [bitsValue_magBits, bitsValue_magBits] at hnear
  exact ⟨(isFinite_iff _).mpr (h.lt_infBits (sqrt_lt_threshold hx)), hsign.trans hsx, hnear⟩

/-- Settles O52: every primitive answers the canonical NaN or no NaN, and checks its operands for a NaN first. -/
theorem nanRules : Obligations.NanRules := by
  unfold Obligations.NanRules
  intro x y
  refine ⟨eq_nan_of_isNaN (fadd_nan_or_not x y), eq_nan_of_isNaN (fadd_nan_or_not x (neg y)),
    eq_nan_of_isNaN (fmul_nan_or_not x y), eq_nan_of_isNaN (fdiv_nan_or_not x y), eq_nan_of_isNaN (fsqrt_nan_or_not x),
    fsqrt_nan, fun h => ?_⟩
  obtain ⟨hadd, hmul, hdiv, hgt⟩ := nan_operand h
  exact ⟨hgt, (nan_operand h.symm).2.2.2, hadd, (nan_operand (by rwa [isNaN_neg])).1, hmul, hdiv⟩

/-- Settles O53: an integer of at most 24 bits has an encoding, which is what its conversion rounds to. -/
theorem integerConversionIsExact : Obligations.IntegerConversionIsExact := fun _ hi => f32_exact hi

/-- Settles O60: each primitive rounds its exact result once, with the sign put on it, and signed bits are ordered as the
values are. -/
theorem primitivesRoundTheExactResult : Obligations.PrimitivesRoundTheExactResult := by
  unfold Obligations.PrimitivesRoundTheExactResult
  refine ⟨fun s hs => ?_, rfl, fun x y hx hy => ?_, fun x y => fgt_infinity_iff, fun _ _ => rfl⟩
  · have hnum : s.num = binary32 := by unfold Machine.State.num Build.numerics; rw [hs]
    rw [hnum]
    exact ⟨rfl, rfl, rfl, rfl, rfl, rfl, rfl⟩
  · refine ⟨fadd_isRounding hx hy, fsub_isRounding hx hy, fmul_isRounding hx hy, fdiv_isRounding hx hy,
      fsqrt_isRounding hx, ?_⟩
    rw [fgt_iff_signedBits (not_nan_inf_of_finite hx).1 (not_nan_inf_of_finite hy).1, signedBits_lt_iff]

end Sys2Proof.NUM
end

section
/-! PROOFS. What the next agent's step is, where it takes a transfer, a word or a pending command that decodes. -/

namespace Sys2Proof.Machine

/-! ### Who moves -/

/-- With no held transfer due, the schedule's head moves next. -/
theorem nextAgent_of_schedule {s : State} {a : Agent} {ags : List Agent} (hdue : s.busy = true ∨ s.stalled = [])
    (hs : s.schedule = a :: ags) : nextAgent s = (a, { s with schedule := ags }) := by
  have hnone : dueMasters s = [] := by
    unfold dueMasters
    rcases hdue with h | h <;> simp [h]
  unfold nextAgent
  rw [hnone, hs]

/-- With an empty schedule a busy core makes the ENGINE's step (log entry 4). -/
theorem nextAgent_of_busy {s : State} (hs : s.schedule = []) (hb : s.busy = true) : nextAgent s = (.engine, s) := by
  unfold nextAgent dueMasters defaultTurn
  rw [hs, if_pos hb, if_pos hb]

/-- A step is the step of the agent that moves next. -/
theorem step_of_nextAgent {s t : State} {a : Agent} (h : nextAgent s = (a, t)) : step s = agentStep a t := by
  unfold step
  rw [h]

/-! ### What an agent's step runs -/

/-- A command word written to CMD of a core that executes no command is issued (R98). -/
theorem cmdWrite_decoded {w : Word} {i : Instr} {s : State} (hb : s.busy = false) (hd : decodeC w = .ok i) :
    cmdWrite w s = exec i s := by
  unfold cmdWrite
  rw [hb, hd]
  rfl

/-- A master's write transfer to a core that is neither busy nor in reset is taken from its queue and takes effect (R69). -/
theorem hostStep_write {s : State} {k : Nat} {a : Offset} {v : Word} {rest : List HostOp} (hr : s.resetHeld = false)
    (hb : s.busy = false) (hq : s.masters.getD k [] = .write a v :: rest) :
    hostStep k s = hostWrite a v (setQueue k rest s) := by
  unfold hostStep
  rw [hq, hr, hb]
  rfl

/-- A transfer to CMD is the issue step (R69, R98). -/
theorem hostWrite_cmd {a : Offset} (v : Word) (s : State) (ha : wordOffset a = 0x14) : hostWrite a v s = cmdWrite v s :=
  if_pos ha

/-- The ENGINE completes the pending command (R99). -/
theorem engineStep_decoded {i : Instr} {s : State} (hb : s.busy = true) (hd : decodeC s.pend.word = .ok i) :
    engineStep s = exec i s := by
  unfold engineStep
  rw [hb, hd]
  rfl

/-- A producer word that decodes runs its instruction. -/
theorem portWord_decoded {w : Word} {i : Instr} (s : State) (hd : decodeP w = .ok i) : portWord w s = exec i s := by
  unfold portWord
  rw [hd]

/-- The producer delivers its oldest word to a core that is not in reset, whatever the core is doing (R141). -/
theorem producerStep_word {s : State} {w : Word} {rest : List Word} (hr : s.resetHeld = false)
    (hp : s.port = w :: rest) : producerStep s = portWord w { s with port := rest } := by
  unfold producerStep
  rw [hp, hr]
  rfl

/-- Settles O6: the next agent's step, by agent. -/
theorem stepRunsTheDecodedInstruction : Obligations.StepRunsTheDecodedInstruction := by
  unfold Obligations.StepRunsTheDecodedInstruction
  intro s i ags
  refine ⟨fun k a w rest hs hr hb hst hq ha hd => ?_, fun hs hb hd => ?_, fun w rest hs hr hdue hp hd => ?_,
    fun hs hb hd => ?_⟩
  · rw [step_of_nextAgent (nextAgent_of_schedule (.inr hst) hs)]
    calc hostStep k { s with schedule := ags }
      _ = hostWrite a w (setQueue k rest { s with schedule := ags }) := hostStep_write hr hb hq
      _ = cmdWrite w (setQueue k rest { s with schedule := ags }) := hostWrite_cmd w _ ha
      _ = exec i { s with schedule := ags, masters := s.masters.set k rest } := cmdWrite_decoded hb hd
  · rw [step_of_nextAgent (nextAgent_of_schedule (.inl hb) hs)]
    exact engineStep_decoded hb hd
  · rw [step_of_nextAgent (nextAgent_of_schedule hdue hs)]
    calc producerStep { s with schedule := ags }
      _ = portWord w { s with schedule := ags, port := rest } := producerStep_word hr hp
      _ = exec i { s with schedule := ags, port := rest } := portWord_decoded _ hd
  · rw [step_of_nextAgent (nextAgent_of_busy hs hb)]
    exact engineStep_decoded hb hd

end Sys2Proof.Machine
end

section
/-! PROOFS. The handoff flags, and the six invariants of R54 in terms of the active slot and the other one. -/

namespace Sys2Proof.Machine

/-! ### Slots and their flags -/

@[simp] theorem Slot.other_other (sl : Slot) : sl.other.other = sl := by cases sl <;> rfl

theorem Slot.eq_or_eq_other (sl sl' : Slot) : sl' = sl ∨ sl' = sl.other := by cases sl <;> cases sl' <;> decide

@[simp] theorem SlotFlags.get_none (sl : Slot) : SlotFlags.none.get sl = false := by cases sl <;> rfl

@[simp] theorem SlotFlags.get_set_same (f : SlotFlags) (sl : Slot) (v : Bool) : (f.set sl v).get sl = v := by
  cases sl <;> rfl

@[simp] theorem SlotFlags.get_set_other (f : SlotFlags) (sl : Slot) (v : Bool) :
    (f.set sl v).get sl.other = f.get sl.other := by cases sl <;> rfl

@[simp] theorem SlotFlags.get_other_set (f : SlotFlags) (sl : Slot) (v : Bool) :
    (f.set sl.other v).get sl = f.get sl := by cases sl <;> rfl

/-- The slot that alone is ready is ready. -/
theorem ready_get_of_readySlot {s : State} {sl : Slot} (h : s.readySlot? = some sl) : s.ready.get sl = true := by
  unfold State.readySlot? at h
  split at h <;> simp only [Option.some.injEq, reduceCtorEq] at h <;> subst h <;> assumption

/-- The claimed slot is held, when a slot is. -/
theorem held_get_claimSlot {s : State} (h : s.held.any = true) : s.held.get s.claimSlot = true := by
  unfold State.claimSlot
  split
  · assumption
  · simpa [SlotFlags.any, SlotFlags.get, *] using h

/-! ### The six invariants of R54 -/

/-- The six invariants, said of the active slot and the other one. -/
theorem handoffInv_iff (s : State) : HandoffInv s ↔
    (s.ready.get s.active = false ∧ s.held.get s.active = false ∧
      ¬ (s.ready.get s.active.other = true ∧ s.held.get s.active.other = true)) ∧
    (s.run = false → s.ready = SlotFlags.none ∧ s.held = SlotFlags.none ∧ s.wp = 0#15) ∧
    (s.run = true → s.cfgValid = true ∧ s.wp.toNat ≤ s.activeN) := by
  constructor
  · intro h
    exact ⟨⟨h.active_not_ready, h.active_not_held, h.ready_or_held _⟩, h.stopped, h.running⟩
  · rintro ⟨⟨hr, hh, ho⟩, hs, hrun⟩
    have only_other : ∀ f : SlotFlags, f.get s.active = false → ∀ sl, f.get sl = true → sl = s.active.other := by
      intro f hf sl hsl
      rcases Slot.eq_or_eq_other s.active sl with rfl | h
      · simp [hf] at hsl
      · exact h
    have not_both : ∀ f : SlotFlags, f.get s.active = false → ¬ (f.f0 = true ∧ f.f1 = true) := by
      intro f hf hb
      cases ha : s.active <;> simp [ha, SlotFlags.get, hb] at hf
    refine ⟨hr, hh, not_both _ hr, only_other _ hr, not_both _ hh, only_other _ hh, fun sl hsl => ?_, hs, hrun⟩
    obtain rfl := only_other _ hr sl hsl.1
    exact ho hsl

end Sys2Proof.Machine
end

section
/-! PROOFS. Every step keeps the control invariant (R45, R54, R101): the invariant move by move of the core. -/

namespace Sys2Proof.Machine

/-! ### What the three parts of the control invariant speak of -/

/-- What the six handoff invariants speak of. -/
def State.handoffPart (s : State) : Bool × Slot × SlotFlags × SlotFlags × BitVec 15 × Bool × Word :=
  (s.run, s.active, s.ready, s.held, s.wp, s.cfgValid, s.actN)

/-- What the legality of the active configuration speaks of. -/
def State.configPart (s : State) : Build × Bool × Word × ConfigReg × Half :=
  (s.build, s.cfgValid, s.actN, s.actConfig, s.actMid)

/-- What the invariant of the pending command speaks of. -/
def State.pendingPart (s : State) : Bool × Pending × Bool × Bool × SlotFlags × Build :=
  (s.busy, s.pend, s.run, s.cfgValid, s.held, s.build)

theorem HandoffInv.congr {s t : State} (hs : HandoffInv s) (h : t.handoffPart = s.handoffPart) : HandoffInv t := by
  simp only [State.handoffPart, Prod.mk.injEq] at h
  rw [handoffInv_iff] at hs ⊢
  simpa [State.activeN, h] using hs

theorem ConfigInv.congr {s t : State} (hs : ConfigInv s) (h : t.configPart = s.configPart) : ConfigInv t := by
  simp only [State.configPart, Prod.mk.injEq] at h
  obtain ⟨hb, hv, hn, hc, hm⟩ := h
  have hok : t.activeOk = s.activeOk := by
    simp [State.activeOk, State.activeN, State.winKind, State.sampleBits, State.outBits, State.mid, hb, hn, hc, hm]
  exact ⟨hb ▸ hs.build_ok, fun h => hok ▸ hs.active_ok (hv ▸ h)⟩

theorem PendingInv.congr {s t : State} (hs : PendingInv s) (h : t.pendingPart = s.pendingPart) : PendingInv t := by
  simp only [State.pendingPart, Prod.mk.injEq] at h
  have hallowed : ∀ i, stillAllowed i t = stillAllowed i s := fun i => by cases i <;> simp [stillAllowed, h]
  unfold PendingInv at hs ⊢
  simpa only [hallowed, h] using hs

theorem pendingInv_of_idle {s : State} (h : s.busy = false) : PendingInv s := fun hb => by simp [h] at hb

theorem ControlInv.congr {s t : State} (hs : ControlInv s) (h1 : t.handoffPart = s.handoffPart)
    (h2 : t.configPart = s.configPart) (h3 : t.pendingPart = s.pendingPart) : ControlInv t :=
  ⟨hs.handoff.congr h1, hs.config.congr h2, hs.pending.congr h3⟩

/-- States with the same core agree in every part `f` of it. -/
theorem part_of_core {α : Type} (f : State → α) {s t : State} (h : t.core = s.core) : f t.core = f s.core := congrArg f h

/-- The control invariant speaks of the core only. -/
theorem ControlInv.of_core {s t : State} (h : t.core = s.core) (hs : ControlInv s) : ControlInv t :=
  hs.congr (part_of_core State.handoffPart h) (part_of_core State.configPart h) (part_of_core State.pendingPart h)

/-! ### The legal sizes -/

theorem Build.nmax_le {b : Build} (h : b.wellFormed = true) : b.nmax ≤ 2 ^ 14 := by
  simp only [Build.wellFormed, Bool.and_eq_true, decide_eq_true_eq] at h
  exact Nat.pow_le_pow_right (by omega) (by omega)

theorem ConfigInv.nmax_le {s : State} (h : ConfigInv s) : s.build.nmax ≤ 2 ^ 14 := Build.nmax_le h.build_ok

theorem ConfigInv.activeN_le_nmax {s : State} (h : ConfigInv s) (hv : s.cfgValid = true) : s.activeN ≤ s.build.nmax := by
  have := h.active_ok hv
  simp only [State.activeOk, configurationOk, frameLengthOk, Bool.and_eq_true, decide_eq_true_eq] at this
  omega

/-- A running core has a legal configuration. -/
theorem ControlInv.activeN_le {s : State} (h : ControlInv s) (hr : s.run = true) : s.activeN ≤ 2 ^ 14 :=
  (h.config.activeN_le_nmax (h.handoff.running hr).1).trans h.config.nmax_le

/-- A held slot is one of a running core. -/
theorem HandoffInv.run_of_held {s : State} (h : HandoffInv s) (hh : s.held.any = true) : s.run = true := by
  cases hr : s.run with
  | true => rfl
  | false => simp [(h.stopped hr).2.1, SlotFlags.none, SlotFlags.any] at hh

/-! ### The pending command -/

theorem decodeC_encode {i : Instr} (h : formatOf i = .command) : decodeC (encode i) = .ok i := by
  cases i with
  | fft src dst => cases src <;> cases dst <;> decide
  | mag src => cases src <;> decide
  | smp c => simp [formatOf] at h
  | frc => simp [formatOf] at h
  | _ => decide

/-- What the checks of an accepted command saw holds at its acceptance (R98, R101). -/
theorem stillAllowed_of_check {i : Instr} {s : State} (h : formatOf i = .command) (hc : checkOf i s = none) :
    stillAllowed i (accept (encode i) (prepOf i s)) := by
  cases i with
  | configure => simpa [checkOf, checkConfigure, prepOf, stillAllowed, ite_eq_iff] using hc
  | start => simpa [checkOf, checkStart, prepOf, stillAllowed, ite_eq_iff] using hc
  | claim => simpa [checkOf, checkClaim, prepOf, stillAllowed] using hc
  | convert | process => simpa [checkOf, checkHeld, prepOf, stillAllowed] using hc
  | fft _ _ | mag _ | norm => simpa [checkOf, checkConfigured, prepOf, stillAllowed] using hc
  | nop | stop | release => trivial
  | smp c | frc => simp [formatOf] at h

/-- What a completing command's checks saw holds still (R101). -/
theorem PendingInv.allowed {s : State} (h : PendingInv s) (hb : s.busy = true) {i : Instr}
    (hd : decodeC s.pend.word = .ok i) : stillAllowed i s := by
  obtain ⟨j, hj, ha⟩ := h hb
  rw [hd] at hj
  obtain rfl := Except.ok.inj hj
  exact ha

/-! ### The effects of the commands -/

/-- RELEASE keeps the six invariants (R155). -/
theorem HandoffInv.releaseEffect {s : State} (h : HandoffInv s) : HandoffInv (releaseEffect s) := by
  rw [handoffInv_iff] at h ⊢
  obtain ⟨⟨hr, -, -⟩, hs, hrun⟩ := h
  refine ⟨⟨hr, by simp, by simp⟩, fun hx => ?_, hrun⟩
  obtain ⟨h1, -, h3⟩ := hs hx
  exact ⟨h1, rfl, h3⟩

/-- With at most one slot held, ending the claimed slot's hold leaves none held. -/
theorem HandoffInv.unclaimed {s : State} (h : HandoffInv s) : s.held.set s.claimSlot false = SlotFlags.none := by
  have h1 := h.one_held
  unfold State.claimSlot SlotFlags.none
  split <;> simp_all [SlotFlags.set]

/-- Ending the hold with CONVERT keeps them: it is RELEASE's effect on the flags (R137). -/
theorem HandoffInv.convertEffect {s : State} (h : HandoffInv s) : HandoffInv (convertEffect s) :=
  h.releaseEffect.congr (by simp [State.handoffPart, h.unclaimed])

theorem HandoffInv.processEffect {s : State} (h : HandoffInv s) : HandoffInv (processEffect s) :=
  h.convertEffect.congr (by simp [State.handoffPart])

/-- CLAIM of an idle handoff keeps them: the ready slot is the other one, which becomes held (R152). -/
theorem HandoffInv.claimEffect {s : State} (h : HandoffInv s) : HandoffInv (claimEffect s) := by
  unfold Machine.claimEffect
  split
  · rename_i sl hsl
    have hready := ready_get_of_readySlot hsl
    obtain rfl := h.ready_is_other sl hready
    have hrun : s.run = true := by
      by_contra hx
      simp [(h.stopped (by simpa using hx)).1] at hready
    rw [handoffInv_iff] at h ⊢
    obtain ⟨⟨hr, hh, -⟩, -, hN⟩ := h
    exact ⟨⟨by simpa using hr, by simpa using hh, by simp⟩, by simp [hrun], hN⟩
  · exact h

/-- START and STOP clear the handoff state; START needs a configuration (R112 to R114). -/
theorem HandoffInv.clearHandoff {s : State} (r : Bool) (hv : r = true → s.cfgValid = true) :
    HandoffInv (clearHandoff r s) := by
  rw [handoffInv_iff]
  exact ⟨⟨by simp, by simp, by simp⟩, by simp, fun hr => ⟨by simpa using hv (by simpa using hr), by simp⟩⟩

/-- CONFIGURE of a stopped core keeps them (R107). -/
theorem HandoffInv.configureEffect {s : State} (h : HandoffInv s) (hr : s.run = false) : HandoffInv (configureEffect s) := by
  rw [handoffInv_iff] at h ⊢
  obtain ⟨hflags, hstopped, -⟩ := h
  exact ⟨hflags, hstopped, by simp [hr]⟩

/-- The issue checks on a snapshot are those of a legal configuration (R8, R107). -/
theorem configurationOk_of_checkSnapshot {nmax : Nat} {x : Snapshot} (h : checkSnapshot nmax x = none) :
    configurationOk nmax x.n.toNat x.config.winKind.toNat x.config.sampleBits.toNat x.config.outBits.toNat x.mid.toNat
      = true := by
  simp only [checkSnapshot, ite_eq_iff, reduceCtorEq, and_false, false_or, and_true, not_or] at h
  simp only [configurationOk, frameLengthOk, Bool.and_eq_true, decide_eq_true_eq]
  omega

/-- The effect of a command whose checks still hold keeps the six invariants. -/
theorem HandoffInv.effectOf {i : Instr} {s : State} (h : HandoffInv s) (ha : stillAllowed i s) :
    HandoffInv (effectOf i s) := by
  cases i with
  | nop => exact h
  | configure => exact h.configureEffect ha.1
  | start => exact HandoffInv.clearHandoff true fun _ => ha.2
  | stop => exact HandoffInv.clearHandoff false (by simp)
  | claim => exact h.claimEffect
  | release => exact h.releaseEffect
  | convert => exact h.convertEffect
  | fft src dst | mag src | norm => exact h.congr rfl
  | process => exact h.processEffect
  | smp c | frc => exact ha.elim

/-- Only CONFIGURE changes the active configuration. -/
theorem effectOf_configPart {i : Instr} (h : i ≠ .configure) (s : State) : (effectOf i s).configPart = s.configPart := by
  cases i <;> simp [State.configPart, effectOf] at h ⊢

/-- The effect of a command whose checks still hold keeps the active configuration legal. -/
theorem ConfigInv.effectOf {i : Instr} {s : State} (h : ConfigInv s) (ha : stillAllowed i s) :
    ConfigInv (effectOf i s) := by
  by_cases hi : i = .configure
  · subst hi
    exact ⟨h.build_ok, fun _ => configurationOk_of_checkSnapshot ha.2⟩
  · exact h.congr (effectOf_configPart hi s)

/-- A completion keeps the control invariant. -/
theorem ControlInv.completed {i : Instr} {s : State} (h : ControlInv s) (hb : s.busy = true)
    (hd : decodeC s.pend.word = .ok i) : ControlInv (complete (effectOf i s)) :=
  have ha := h.pending.allowed hb hd
  ⟨(h.handoff.effectOf ha).congr rfl, (h.config.effectOf ha).congr rfl, pendingInv_of_idle rfl⟩

/-- An acceptance keeps the control invariant. -/
theorem ControlInv.accepted {i : Instr} {s : State} (h : ControlInv s) (hf : formatOf i = .command)
    (hc : checkOf i s = none) : ControlInv (accept (encode i) (prepOf i s)) :=
  ⟨h.handoff.congr (by cases i <;> rfl), h.config.congr (by cases i <;> rfl),
    fun _ => ⟨i, decodeC_encode hf, stillAllowed_of_check hf hc⟩⟩

/-! ### The producer words -/

/-- A sample keeps the control invariant: the write pointer rises to at most N (R144). -/
theorem ControlInv.sample {s : State} (h : ControlInv s) (c : Half) (hr : s.run = true) (hn : s.wp.toNat ≠ s.activeN) :
    ControlInv (storeSample c s) := by
  refine ⟨?_, h.config.congr rfl, h.pending.congr rfl⟩
  have hN := h.activeN_le hr
  obtain ⟨hv, hle⟩ := h.handoff.running hr
  have hwp : (s.wp + 1#15).toNat ≤ s.activeN := by
    simp only [BitVec.toNat_add, BitVec.toNat_ofNat]
    omega
  obtain ⟨hflags, -, -⟩ := (handoffInv_iff s).mp h.handoff
  exact (handoffInv_iff _).mpr ⟨hflags, by simp [hr], fun _ => ⟨hv, hwp⟩⟩

/-- What FRC does to the handoff flags: the held case leaves them, the flip makes the full slot ready and activates the other
one, whose ready flag it clears (R149, R150). -/
theorem frameComplete_flags (s : State) :
    (s.held.get s.active.other = true ∧ (frameComplete s).active = s.active ∧ (frameComplete s).ready = s.ready) ∨
    (s.held.get s.active.other = false ∧ (frameComplete s).active = s.active.other ∧
      (frameComplete s).ready.get s.active.other = false) := by
  unfold frameComplete dropUnclaimed
  cases hh : s.held.get s.active.other
  · refine .inr ⟨rfl, ?_, ?_⟩ <;> cases hr : s.ready.get s.active.other <;> simp [hr]
  · exact .inl ⟨rfl, rfl, rfl⟩

/-- A frame completion keeps the six invariants (R147 to R151). -/
theorem HandoffInv.frameComplete {s : State} (h : HandoffInv s) (hrun : s.run = true) : HandoffInv (frameComplete s) := by
  rw [handoffInv_iff] at h ⊢
  obtain ⟨⟨hr, hh, ho⟩, -, hN⟩ := h
  refine ⟨?_, by simp [hrun], fun _ => ⟨by simpa using (hN hrun).1, by simp⟩⟩
  rcases frameComplete_flags s with ⟨-, ha, hready⟩ | ⟨hheld, ha, hready⟩
  · simpa only [ha, hready, frameComplete_held] using ⟨hr, hh, ho⟩
  · simp [ha, hready, hheld, hh]

theorem ControlInv.frame {s : State} (h : ControlInv s) (hr : s.run = true) : ControlInv (frameComplete s) :=
  ⟨h.handoff.frameComplete hr, h.config.congr (by simp [State.configPart]),
    h.pending.congr (by simp [State.pendingPart])⟩

/-! ### Reset, and every move -/

/-- The reset state of a legal build meets the control invariant (R54, R64). -/
theorem ControlInv.applyReset {s : State} (h : s.build.wellFormed = true) : ControlInv (applyReset s) where
  handoff := (handoffInv_iff _).mpr ⟨⟨rfl, rfl, nofun⟩, fun _ => ⟨rfl, rfl, rfl⟩, nofun⟩
  config := ⟨h, nofun⟩
  pending := pendingInv_of_idle rfl

/-- Every move of the core keeps the control invariant. -/
theorem ControlInv.move {a : Agent} {u v : State} (hm : CoreMove a u v) (h : ControlInv u) : ControlInv v := by
  cases hm with
  | register k r w =>
    exact h.congr (by simp [State.handoffPart]) (by simp [State.configPart]) (by simp [State.pendingPart])
  | work | rejected | portError | released => exact h.congr rfl rfl rfl
  | accepted k i _ hf _ hc => exact h.accepted hf hc
  | completed i _ hb hd => exact h.completed hb hd
  | sample c _ hr hn => exact h.sample c hr hn
  | frame _ hr _ => exact h.frame hr
  | asserted => exact ControlInv.applyReset h.config.build_ok

/-- Every step keeps the control invariant. -/
theorem ControlInv.step {s t : State} (h : ControlInv s) (he : step s = .next t) : ControlInv t :=
  step_keeps (fun _ _ => ControlInv.of_core) (fun _ _ _ => ControlInv.move) he h

end Sys2Proof.Machine
end

section
/-! PROOFS. Every step keeps the held transfers held, each once and at the head of its master's queue (R78), and no command
executes in reset (R190). -/

namespace Sys2Proof.Machine

/-! ### No command executes in reset -/

/-- Only the reset input moves its own level. -/
theorem CoreMove.resetHeld {a : Agent} {u v : State} (hm : CoreMove a u v) (h1 : a ≠ .assertReset)
    (h2 : a ≠ .releaseReset) : v.resetHeld = u.resetHeld := by
  cases hm with
  | register k r w => exact writeReg_resetHeld u r w
  | completed i => cases i <;> simp [effectOf]
  | accepted k i => cases i <;> rfl
  | frame => exact frameComplete_resetHeld u
  | work | rejected | sample | portError => rfl
  | asserted => exact absurd rfl h1
  | released => exact absurd rfl h2

theorem agentStep_resetHeld {a : Agent} {s t : State} (he : agentStep a s = .next t) (h1 : a ≠ .assertReset)
    (h2 : a ≠ .releaseReset) : t.resetHeld = s.resetHeld := by
  rcases agentStep_moves he with h | ⟨u, v, hu, hv, hm⟩
  · exact part_of_core State.resetHeld h
  · calc t.resetHeld
      _ = v.resetHeld := (part_of_core State.resetHeld hv).symm
      _ = u.resetHeld := hm.resetHeld h1 h2
      _ = s.resetHeld := part_of_core State.resetHeld hu

/-- A bus master and the producer leave a core in reset alone. -/
theorem core_eq_of_resetHeld {a : Agent} {s t : State} (he : agentStep a s = .next t) (hr : s.resetHeld = true)
    (ha : a = .producer ∨ ∃ k, a = .host k) : t.core = s.core := by
  rcases ha with rfl | ⟨k, rfl⟩
  · rcases producerStep_cases he with h | ⟨_, _, -, h, -⟩
    · exact h
    · simp [hr] at h
  · rcases hostStep_cases he with h | ⟨_, _, _, -, h, -⟩
    · exact h
    · simp [hr] at h

theorem agentStep_idle_in_reset {a : Agent} {s t : State} (he : agentStep a s = .next t)
    (hs : s.resetHeld = true → s.busy = false) (ht : t.resetHeld = true) : t.busy = false := by
  cases a with
  | host k =>
    have hr : s.resetHeld = true := agentStep_resetHeld he (by simp) (by simp) ▸ ht
    exact (part_of_core State.busy (core_eq_of_resetHeld he hr (.inr ⟨k, rfl⟩))).trans (hs hr)
  | producer =>
    have hr : s.resetHeld = true := agentStep_resetHeld he (by simp) (by simp) ▸ ht
    exact (part_of_core State.busy (core_eq_of_resetHeld he hr (.inl rfl))).trans (hs hr)
  | engine =>
    have hr : s.resetHeld = true := agentStep_resetHeld he (by simp) (by simp) ▸ ht
    simp only [agentStep, engineStep, hs hr, Bool.false_eq_true, if_false] at he
    exact Host.Outcome.next.inj he ▸ hs hr
  | assertReset => exact Host.Outcome.next.inj he ▸ rfl
  | releaseReset => exact absurd ht (by rw [← Host.Outcome.next.inj he]; simp)

/-! ### The queues of the masters that hold -/

/-- A master with a RAM window transfer while a command executes comes to hold. -/
theorem hostStep_holds {k : Nat} {s : State} {op : HostOp} {rest : List HostOp} (hq : s.masters.getD k [] = op :: rest)
    (hr : s.resetHeld = false) (hb : s.busy = true) (hw : inRamWindow op.target = true) :
    hostStep k s = .next (stall k s) := by
  unfold hostStep
  rw [hq]
  simp [hr, hb, hw]

/-- Taking one master's next transfer leaves every other master's queue. -/
theorem getD_set_of_ne {α : Type} {l : List α} {k j : Nat} {q d : α} (h : j ≠ k) :
    (l.set k q).getD j d = l.getD j d := by
  simp [List.getD_eq_getElem?_getD, List.getElem?_set_ne (Ne.symm h)]

/-- What waits for the masters that hold, in terms of the queues. -/
theorem StalledInv.congr {s t : State} (h : StalledInv s) (hm : t.masters = s.masters) (hs : t.stalled = s.stalled)
    (hi : t.resetHeld = true → t.busy = false) : StalledInv t :=
  ⟨hs ▸ h.distinct, by simpa [hm, hs] using h.window, hi⟩

/-- A master that begins to hold does so once, with its RAM window transfer next. -/
theorem StalledInv.stall {s : State} (h : StalledInv s) {k : Nat} {op : HostOp} {rest : List HostOp}
    (hq : s.masters.getD k [] = op :: rest) (hw : inRamWindow op.target = true) : StalledInv (stall k s) := by
  by_cases hk : k ∈ s.stalled
  · exact h.congr rfl (by simp [hk]) h.idle_in_reset
  · have happ : (Machine.stall k s).stalled = s.stalled ++ [k] := by simp [hk]
    refine ⟨?_, fun j hj => ?_, h.idle_in_reset⟩
    · rw [happ, List.nodup_append]
      exact ⟨h.distinct, List.nodup_singleton k, fun a ha b hb => by rintro rfl; simp_all⟩
    · rw [happ, List.mem_append, List.mem_singleton] at hj
      rcases hj with hj | rfl
      · exact h.window j hj
      · exact ⟨op, rest, hq, hw⟩

/-- A bus master's step keeps the invariant: a master that holds already keeps holding while a command executes, and any
other takes its own next transfer only. -/
theorem StalledInv.hostStep {k : Nat} {s t : State} (h : StalledInv s) (hk : k ∈ s.stalled → s.busy = true)
    (he : hostStep k s = .next t) : StalledInv t := by
  have hidle : t.resetHeld = true → t.busy = false := agentStep_idle_in_reset (a := .host k) he h.idle_in_reset
  by_cases hmem : k ∈ s.stalled
  · obtain ⟨op, rest, hq, hw⟩ := h.window k hmem
    have hr : s.resetHeld = false := by
      by_contra hx
      simpa [hk hmem] using h.idle_in_reset (by simpa using hx)
    rw [hostStep_holds hq hr (hk hmem) hw] at he
    exact Host.Outcome.next.inj he ▸ h.stall hq hw
  · rcases hostStep_waiting he with ⟨rfl, -, -, op, rest, hq, hw⟩ | hsame | ⟨op, rest, q, -, -, htaken⟩
    · exact h.stall hq hw
    · simp only [State.waiting, Prod.mk.injEq] at hsame
      exact h.congr hsame.1 hsame.2.2.1 hidle
    · simp only [State.waiting, Prod.mk.injEq] at htaken
      obtain ⟨hm, -, hst, -, -⟩ := htaken
      refine ⟨hst ▸ h.distinct, fun j hj => ?_, hidle⟩
      rw [hst] at hj
      rw [hm, getD_set_of_ne (by rintro rfl; exact hmem hj)]
      exact h.window j hj

/-! ### The step -/

/-- Choosing the next agent keeps the invariant, and a master chosen while it holds is chosen while a command executes. -/
theorem StalledInv.nextAgent {s : State} (h : StalledInv s) : StalledInv (nextAgent s).2 ∧
    ∀ k, (nextAgent s).1 = .host k → k ∈ (nextAgent s).2.stalled → (nextAgent s).2.busy = true := by
  have hkeeps : ∀ sched n, StalledInv { s with schedule := sched, turn := n } := fun _ _ =>
    h.congr rfl rfl h.idle_in_reset
  rcases nextAgent_cases s with ⟨k, ks, hb, hst, hn⟩ | ⟨hdue, ⟨a, rest, -, hn⟩ | ⟨-, hn⟩⟩
  · rw [hn]
    have hd := h.distinct
    rw [hst, List.nodup_cons] at hd
    refine ⟨⟨hd.2, fun j hj => h.window j (by simp [hst, hj]), h.idle_in_reset⟩, fun j hj hmem => ?_⟩
    obtain rfl := Agent.host.inj hj
    exact absurd hmem hd.1
  · rw [hn]
    refine ⟨hkeeps _ _, fun k _ hmem => hdue.resolve_right fun hnone => ?_⟩
    have hmem : k ∈ s.stalled := hmem
    simp [hnone] at hmem
  · rw [hn]
    unfold defaultTurn
    split
    · exact ⟨h, nofun⟩
    · rename_i hb
      have hnone := hdue.resolve_left hb
      split
      · exact ⟨hkeeps _ _, fun k _ hmem => by
          have hmem : k ∈ s.stalled := hmem
          simp [hnone] at hmem⟩
      · exact ⟨h, nofun⟩

/-- A step keeps what waits of the masters, unless it is a bus master's. -/
theorem agentStep_masters {a : Agent} {s t : State} (he : agentStep a s = .next t) (ha : ∀ k, a ≠ .host k) :
    t.masters = s.masters ∧ t.stalled = s.stalled := by
  have of_exec : ∀ {i : Instr} {u : State}, exec i u = .next t → t.masters = u.masters ∧ t.stalled = u.stalled := by
    intro i u h
    have hw := exec_waiting h
    simp only [State.waiting, Prod.mk.injEq] at hw
    exact ⟨hw.1, hw.2.2.1⟩
  cases a with
  | host k => exact absurd rfl (ha k)
  | producer =>
    simp only [agentStep, producerStep] at he
    split at he
    · exact Host.Outcome.next.inj he ▸ ⟨rfl, rfl⟩
    · split at he
      · exact Host.Outcome.next.inj he ▸ ⟨rfl, rfl⟩
      · have hw := portWord_waiting he
        simp only [State.waiting, Prod.mk.injEq] at hw
        exact ⟨hw.1, hw.2.2.1⟩
  | engine =>
    simp only [agentStep, engineStep] at he
    split at he
    · split at he
      · exact of_exec he
      · simp at he
    · exact Host.Outcome.next.inj he ▸ ⟨rfl, rfl⟩
  | assertReset => exact Host.Outcome.next.inj he ▸ ⟨rfl, rfl⟩
  | releaseReset => exact Host.Outcome.next.inj he ▸ ⟨rfl, rfl⟩

/-- Every step keeps the held transfers held. -/
theorem StalledInv.step {s t : State} (h : StalledInv s) (he : step s = .next t) : StalledInv t := by
  obtain ⟨hn, hbusy⟩ := h.nextAgent
  unfold Machine.step at he
  by_cases ha : ∃ k, (Machine.nextAgent s).1 = .host k
  · obtain ⟨k, hk⟩ := ha
    rw [hk] at he
    exact hn.hostStep (hbusy k hk) he
  · obtain ⟨hm, hst⟩ := agentStep_masters he fun k hk => ha ⟨k, hk⟩
    exact hn.congr hm hst (agentStep_idle_in_reset he hn.idle_in_reset)

/-- Settles O38: the control invariant move by move of the core, the held transfers agent by agent. -/
theorem stepKeepsControlInvariant : Obligations.StepKeepsControlInvariant := by
  unfold Obligations.StepKeepsControlInvariant
  exact fun s t he => ⟨fun h => h.step he, fun h => h.step he⟩

end Sys2Proof.Machine
end

section
/-! PROOFS. Which windows of the RAM a command's effect writes, and that every step keeps TWID and WIN the tables of the
active configuration (R46, R109). -/

namespace Sys2Proof.Machine

/-! ### The regions of the windows (R74) -/

/-- The byte offset `a` lies in the region of a window. -/
def Window.hasByte (w : Window) (a : Nat) : Prop := w.base ≤ a ∧ a < w.base + w.size

/-- A byte outside a region lies below or above it. -/
theorem Window.outside {w : Window} {a : Nat} (h : ¬ w.hasByte a) : a < w.base ∨ w.base + w.size ≤ a := by
  unfold Window.hasByte at h
  omega

/-- The regions of the windows are those `windowAt` decodes (R74). -/
theorem windowAt_eq_some_iff {o : Nat} {w : Window} : windowAt o = some w ↔ w.hasByte o := by
  unfold windowAt Window.hasByte
  repeat' split
  all_goals cases w <;> simp [Window.base, Window.size] <;> omega

/-- No two windows share a byte. -/
theorem Window.hasByte.unique {w w' : Window} {a : Nat} (h : w.hasByte a) (h' : w'.hasByte a) : w = w' :=
  Option.some.inj ((windowAt_eq_some_iff.mpr h).symm.trans (windowAt_eq_some_iff.mpr h'))

theorem rawWindow_size (sl : Slot) : (rawWindow sl).size = 0x10000 := by cases sl <;> rfl

theorem workWindow_size (bank : Bank) : (workWindow bank).size = 0x20000 := by cases bank <;> rfl

/-- The region of a work bank. -/
theorem windowAt_work {o : Nat} {w : Window} (hw : w = .workA ∨ w = .workB) (ho : windowAt o = some w) :
    0x60000 ≤ o ∧ o < 0xA0000 := by
  obtain ⟨h1, h2⟩ := windowAt_eq_some_iff.mp ho
  rcases hw with rfl | rfl <;> simp only [Window.base, Window.size] at h1 h2 <;> omega

/-! ### The windows a command writes (R110, R124, R139, R161, R163, R170) -/

/-- The windows that the completion of a command writes. -/
def writtenWindows : Instr → List Window
  | .configure => [.twid, .win]
  | .convert => [.workA]
  | .fft _ dst => [workWindow dst]
  | .mag _ => [.mag]
  | .norm => [.spec]
  | .process => [.workA, .mag, .spec]
  | .nop | .start | .stop | .claim | .release | .smp _ | .frc => []

/-- The commands that write a window: the rows of R63 for the RAM. -/
def Window.writers : Window → List Instr
  | .raw0 | .raw1 => []
  | .twid | .win => [.configure]
  | .workA | .workB => [.convert, .fft .a .a, .fft .a .b, .fft .b .a, .fft .b .b, .process]
  | .mag => [.mag .a, .mag .b, .process]
  | .spec => [.norm, .process]

theorem mem_writers {i : Instr} {w : Window} (h : w ∈ writtenWindows i) : i ∈ w.writers := by
  cases i with
  | fft src dst => cases src <;> cases dst <;> cases w <;> simp [writtenWindows, workWindow, Window.writers] at h ⊢
  | mag src => cases src <;> cases w <;> simp [writtenWindows, Window.writers] at h ⊢
  | _ => cases w <;> simp [writtenWindows, Window.writers] at h ⊢

/-- A command that needs a configuration or a claimed frame completes with a legal N (R8, R101). -/
theorem ControlInv.activeN_le_of_valid {s : State} (h : ControlInv s) (hv : s.cfgValid = true ∨ s.held.any = true) :
    s.activeN ≤ 2 ^ 14 := by
  rcases hv with hv | hh
  · exact (h.config.activeN_le_nmax hv).trans h.config.nmax_le
  · exact h.activeN_le (h.handoff.run_of_held hh)

/-- The effect of a command whose checks still hold leaves every byte outside the windows it writes alone. -/
theorem effectOf_byte? {i : Instr} {s : State} (h : ControlInv s) (ha : stillAllowed i s) {a : Nat}
    (hw : ∀ w ∈ writtenWindows i, ¬ w.hasByte a) : (effectOf i s).mem.byte? a = s.mem.byte? a := by
  have hnmax := h.config.nmax_le
  have hvalid := h.activeN_le_of_valid
  cases i with
  | nop | start | stop | release => rfl
  | claim => simp [effectOf]
  | configure =>
    have h1 : a < 0x40000 ∨ 0x50000 ≤ a := Window.outside (hw .twid (by simp [writtenWindows]))
    have h2 : a < 0x50000 ∨ 0x60000 ≤ a := Window.outside (hw .win (by simp [writtenWindows]))
    exact configureMem_byte? s a (by omega)
  | convert =>
    have h1 : a < 0x60000 ∨ 0x80000 ≤ a := Window.outside (hw .workA (by simp [writtenWindows]))
    have := hvalid (.inr ha)
    exact convertEffect_byte? s a (by omega)
  | fft src dst =>
    have h1 := Window.outside (hw (workWindow dst) (by simp [writtenWindows]))
    rw [workWindow_size] at h1
    have := hvalid (.inl ha)
    exact fftEffect_byte? src dst s a (by omega)
  | mag src =>
    have h1 : a < 0xA0000 ∨ 0xB0000 ≤ a := Window.outside (hw .mag (by simp [writtenWindows]))
    have := hvalid (.inl ha)
    exact magEffect_byte? src s a (by omega)
  | norm =>
    have h1 : a < 0xB0000 ∨ 0xC0000 ≤ a := Window.outside (hw .spec (by simp [writtenWindows]))
    have := hvalid (.inl ha)
    exact normEffect_byte? s a (by omega)
  | process =>
    have h1 : a < 0x60000 ∨ 0x80000 ≤ a := Window.outside (hw .workA (by simp [writtenWindows]))
    have h2 : a < 0xA0000 ∨ 0xB0000 ≤ a := Window.outside (hw .mag (by simp [writtenWindows]))
    have h3 : a < 0xB0000 ∨ 0xC0000 ≤ a := Window.outside (hw .spec (by simp [writtenWindows]))
    have := hvalid (.inr ha)
    exact processEffect_byte? s a (by omega) (by omega) (by omega)
  | smp c | frc => exact ha.elim

/-- A byte that an effect changes lies in a window the command writes. -/
theorem writtenWindow_of_changed {i : Instr} {s : State} (h : ControlInv s) (ha : stillAllowed i s) {a : Nat}
    (hne : (effectOf i s).mem.byte? a ≠ s.mem.byte? a) : ∃ w ∈ writtenWindows i, w.hasByte a := by
  by_contra hno
  exact hne (effectOf_byte? h ha fun w hw hb => hno ⟨w, hw, hb⟩)

/-- A byte of a window that an effect changes is changed by one of the window's commands. -/
theorem writer_of_changed {i : Instr} {s : State} (h : ControlInv s) (ha : stillAllowed i s) {a : Nat} {w : Window}
    (hw : w.hasByte a) (hne : (effectOf i s).mem.byte? a ≠ s.mem.byte? a) : i ∈ w.writers := by
  obtain ⟨w', hmem, hw'⟩ := writtenWindow_of_changed h ha hne
  exact mem_writers (hw.unique hw' ▸ hmem)

/-! ### The element a sample writes (R144) -/

/-- A sample writes in the region of the active frame buffer. -/
theorem storeSample_byte?_of_not_active {s : State} (h : ControlInv s) (hr : s.run = true)
    (hn : s.wp.toNat ≠ s.activeN) (c : Half) {a : Nat} (ha : ¬ (rawWindow s.active).hasByte a) :
    (storeSample c s).mem.byte? a = s.mem.byte? a := by
  have hout := Window.outside ha
  rw [rawWindow_size] at hout
  have hoff : sampleOffset s = (rawWindow s.active).base + 4 * s.wp.toNat := by
    unfold sampleOffset
    cases s.active <;> rfl
  have hN := h.activeN_le hr
  have hwp := (h.handoff.running hr).2
  exact storeSample_byte? c s a (by omega)

theorem rawWindow_inj {sl sl' : Slot} (h : rawWindow sl = rawWindow sl') : sl = sl' := by
  cases sl <;> cases sl' <;> simp [rawWindow] at h ⊢

theorem rawWindow_bounds {sl : Slot} {a : Nat} (h : (rawWindow sl).hasByte a) : 0x20000 ≤ a ∧ a < 0x40000 := by
  cases sl <;> simp only [rawWindow, Window.hasByte, Window.base, Window.size] at h <;> omega

/-! ### The tables of a memory -/

/-- TWID holds the twiddle factors of frame length n, and zeros up to NMAX/2 (R116). -/
def Memory.holdsTwiddles (m : Memory) (num : Numerics) (nmax n : Nat) : Prop :=
  ∀ k, k < nmax / 2 → m.hasComplex .twid k (if k < n / 2 then num.twiddle n k else ⟨NUM.zero, NUM.zero⟩)

/-- WIN holds the coefficients of a window kind and frame length n, and zeros up to NMAX (R129). -/
def Memory.holdsWindow (m : Memory) (num : Numerics) (nmax kind n : Nat) : Prop :=
  ∀ i, i < nmax → m.word? (Window.win.elem i) = some (if i < n then num.window kind n i else NUM.zero)

theorem tablesInv_iff (s : State) : TablesInv s ↔ (s.cfgValid = true →
    s.mem.holdsTwiddles s.num s.build.nmax s.activeN ∧ s.mem.holdsWindow s.num s.build.nmax s.winKind s.activeN) := Iff.rfl

/-- Two memories list the same bytes in the regions of TWID and WIN. -/
def Memory.sameTables (m m' : Memory) : Prop := ∀ a, 0x40000 ≤ a → a < 0x60000 → m.byte? a = m'.byte? a

theorem Memory.holdsTwiddles.congr {m m' : Memory} {num : Numerics} {nmax n : Nat} (hm : nmax ≤ 2 ^ 14)
    (h : m'.holdsTwiddles num nmax n) (hs : ∀ a, 0x40000 ≤ a → a < 0x50000 → m.byte? a = m'.byte? a) :
    m.holdsTwiddles num nmax n := by
  intro k hk
  have hw : ∀ d, d = 0 ∨ d = 4 → m.word? (Window.twid.elem k + d) = m'.word? (Window.twid.elem k + d) := fun d hd =>
    Memory.word?_congr fun x hl hr => by
      simp only [Window.elem, Window.base, Window.stride] at hl hr
      exact hs x (by omega) (by omega)
  exact ⟨(hw 0 (.inl rfl)).trans (h k hk).1, (hw 4 (.inr rfl)).trans (h k hk).2⟩

theorem Memory.holdsWindow.congr {m m' : Memory} {num : Numerics} {nmax kind n : Nat} (hm : nmax ≤ 2 ^ 14)
    (h : m'.holdsWindow num nmax kind n) (hs : ∀ a, 0x50000 ≤ a → a < 0x60000 → m.byte? a = m'.byte? a) :
    m.holdsWindow num nmax kind n := by
  intro i hi
  have hw : m.word? (Window.win.elem i) = m'.word? (Window.win.elem i) := Memory.word?_congr fun x hl hr => by
    simp only [Window.elem, Window.base, Window.stride] at hl hr
    exact hs x (by omega) (by omega)
  exact hw.trans (h i hi)

theorem Memory.holdsTwiddles_write (m : Memory) (num : Numerics) (nmax n : Nat) :
    (m.writeComplexes .twid (twiddleTable num nmax n)).holdsTwiddles num nmax n := by
  intro k hk
  have h := Memory.word?_writeComplexes m .twid (twiddleTable num nmax n) k (by simpa using hk)
  simpa [twiddleTable, Memory.hasComplex, Window.elem, Window.stride] using h

theorem Memory.holdsWindow_write (m : Memory) (num : Numerics) (nmax kind n : Nat) :
    (m.writeWords Window.win.base (windowTable num nmax kind n)).holdsWindow num nmax kind n := by
  intro i hi
  show (Memory.writeWords _ _ _).word? (Window.win.base + 4 * i) = _
  rw [Memory.word?_writeWords m _ _ i (by simpa using hi)]
  simp [windowTable]

/-! ### CONFIGURE builds the tables (R108) -/

/-- TWID is kept when there is a configuration with the same N (R108). -/
theorem regenTwiddle_eq_false_iff (s : State) :
    regenTwiddle s = false ↔ s.cfgValid = true ∧ s.pend.snapshot.n = s.actN := by simp [regenTwiddle]

/-- WIN is kept when, besides, the window kind is the same (R108). -/
theorem regenWindow_eq_false_iff (s : State) : regenWindow s = false ↔
    regenTwiddle s = false ∧ s.pend.snapshot.config.winKind = s.actConfig.winKind := by simp [regenWindow]

/-- After CONFIGURE, TWID is the table of the snapshot: rebuilt, or kept because N is the same. -/
theorem configureMem_holdsTwiddles {s : State} (hm : s.build.nmax ≤ 2 ^ 14) (h : TablesInv s) :
    (configureMem s).holdsTwiddles s.num s.build.nmax s.pend.snapshot.n.toNat := by
  have hinner : (if regenTwiddle s then s.mem.writeComplexes .twid (twiddleTable s.num s.build.nmax s.pend.snapshot.n.toNat)
      else s.mem).holdsTwiddles s.num s.build.nmax s.pend.snapshot.n.toNat := by
    split
    · exact Memory.holdsTwiddles_write _ _ _ _
    · rename_i hr
      obtain ⟨hv, hn⟩ := (regenTwiddle_eq_false_iff s).mp (by simpa using hr)
      rw [hn]
      exact (h hv).1
  unfold configureMem
  simp only
  split
  · exact hinner.congr hm fun a _ ha =>
      Memory.byte?_writeWords_of_outside _ _ _ a (.inl (by simpa [Window.base] using ha))
  · exact hinner

/-- After CONFIGURE, WIN is the table of the snapshot: rebuilt, or kept because N and the kind are the same. -/
theorem configureMem_holdsWindow {s : State} (h : TablesInv s) : (configureMem s).holdsWindow s.num s.build.nmax
    s.pend.snapshot.config.winKind.toNat s.pend.snapshot.n.toNat := by
  unfold configureMem
  simp only
  split
  · exact Memory.holdsWindow_write _ _ _ _ _
  · rename_i hr
    obtain ⟨htw, hk⟩ := (regenWindow_eq_false_iff s).mp (by simpa using hr)
    obtain ⟨hv, hn⟩ := (regenTwiddle_eq_false_iff s).mp htw
    rw [if_neg (by simp [htw]), hn, hk]
    exact (h hv).2

/-! ### Every step -/

/-- The tables invariant speaks of the build, the active configuration and the bytes of TWID and WIN. -/
theorem TablesInv.congr {s t : State} (h : TablesInv s) (hm : s.build.nmax ≤ 2 ^ 14) (hc : t.configPart = s.configPart)
    (hs : t.mem.sameTables s.mem) : TablesInv t := by
  simp only [State.configPart, Prod.mk.injEq] at hc
  obtain ⟨hb, hv, hn, hk, -⟩ := hc
  have hN : t.activeN = s.activeN := congrArg BitVec.toNat hn
  have hK : t.winKind = s.winKind := congrArg (fun c => c.winKind.toNat) hk
  rw [tablesInv_iff, num_of_build hb, hb, hN, hK]
  intro htv
  obtain ⟨htw, hwin⟩ := (tablesInv_iff s).mp h (hv ▸ htv)
  exact ⟨htw.congr hm fun a h1 h2 => hs a h1 (by omega), hwin.congr hm fun a h1 h2 => hs a (by omega) h2⟩

/-- A completion keeps the tables: CONFIGURE builds those of its snapshot, no other command writes TWID or WIN. -/
theorem TablesInv.completed {i : Instr} {s : State} (h : TablesInv s) (hc : ControlInv s) (ha : stillAllowed i s) :
    TablesInv (complete (effectOf i s)) := by
  have hm := hc.config.nmax_le
  by_cases hi : i = .configure
  · subst hi
    exact fun _ => ⟨configureMem_holdsTwiddles hm h, configureMem_holdsWindow h⟩
  · refine h.congr hm (effectOf_configPart hi s) fun a h1 h2 => by_contra fun hne => hi ?_
    by_cases hx : a < 0x50000
    · simpa [Window.writers] using writer_of_changed hc ha (w := .twid) ⟨h1, hx⟩ hne
    · simpa [Window.writers] using writer_of_changed hc ha (w := .win) ⟨not_lt.mp hx, h2⟩ hne

/-- Every move of the core keeps the tables. -/
theorem TablesInv.move {a : Agent} {u v : State} (hm : CoreMove a u v) (hc : ControlInv u) (h : TablesInv u) :
    TablesInv v := by
  have hn := hc.config.nmax_le
  cases hm with
  | register k r w => exact h.congr hn (by simp [State.configPart]) fun a _ _ => by simp
  | rejected | portError | released => exact h.congr hn rfl fun a _ _ => rfl
  | accepted k i => exact h.congr hn (by cases i <;> rfl) fun a _ _ => by cases i <;> rfl
  | work k w o x _ hw ho =>
    have := windowAt_work hw ho
    exact h.congr hn rfl fun a _ h2 => Memory.byte?_writeWords_of_outside _ _ _ a (by omega)
  | completed i _ hb hd => exact h.completed hc (hc.pending.allowed hb hd)
  | sample c _ hr hne =>
    exact h.congr hn rfl fun a h1 _ => storeSample_byte?_of_not_active hc hr hne c fun hraw =>
      absurd (rawWindow_bounds hraw).2 (not_lt.mpr h1)
  | frame => exact h.congr hn (by simp [State.configPart]) fun a _ _ => by simp
  | asserted => exact nofun

/-- Settles O39: only CONFIGURE writes the tables, and it leaves those of its snapshot. -/
theorem stepKeepsTables : Obligations.StepKeepsTables := by
  unfold Obligations.StepKeepsTables
  intro s t hc ht he
  have hcore : ∀ s t : State, t.core = s.core → ControlInv s ∧ TablesInv s → ControlInv t ∧ TablesInv t :=
    fun s t h hs => ⟨hs.1.of_core h, hs.2.congr hs.1.config.nmax_le (part_of_core State.configPart h) fun a _ _ =>
      part_of_core (·.mem.byte? a) h⟩
  exact (step_keeps hcore (fun _ _ _ hm hs => ⟨hs.1.move hm, hs.2.move hm hs.1⟩) he ⟨hc, ht⟩).2

end Sys2Proof.Machine
end

section
/-! PROOFS. The accesses of the bus, said once: the register and the window an offset reaches, and what a host write and a
producer word leave alone. -/

namespace Sys2Proof.Machine

/-! ### Registers by offset (R27) -/

@[simp] theorem regAt_offset (r : Reg) : regAt r.offset = some r := by cases r <;> rfl

theorem offset_of_regAt {o : Nat} {r : Reg} (h : regAt o = some r) : o = r.offset := by
  unfold regAt at h
  split at h <;> simp only [Option.some.injEq, reduceCtorEq] at h <;> subst h <;> rfl

theorem Reg.offset_lt (r : Reg) : r.offset < 0x48 := by cases r <;> decide

theorem regAt_of_reserved {o : Nat} (h : 0x48 ≤ o) : regAt o = none := by
  cases hr : regAt o with
  | none => rfl
  | some r =>
    have := offset_of_regAt hr
    have := r.offset_lt
    omega

/-! ### A write to one register leaves the others alone (R26) -/

section
variable {r : Reg} (v : Word) (s : State)

theorem writeReg_config (h : r ≠ .config) : (writeReg r v s).config = s.config := by
  cases r <;> simp [writeReg] at h ⊢
theorem writeReg_frameN (h : r ≠ .frameN) : (writeReg r v s).frameN = s.frameN := by
  cases r <;> simp [writeReg] at h ⊢
theorem writeReg_midCode (h : r ≠ .midCode) : (writeReg r v s).midCode = s.midCode := by
  cases r <;> simp [writeReg] at h ⊢
theorem writeReg_err (h : r ≠ .err) : (writeReg r v s).err = s.err := by
  cases r <;> simp [writeReg] at h ⊢
theorem writeReg_dropCount (h : r ≠ .dropCount) : (writeReg r v s).dropCount = s.dropCount := by
  cases r <;> simp [writeReg] at h ⊢
theorem writeReg_frameCount (h : r ≠ .frameCount) : (writeReg r v s).frameCount = s.frameCount := by
  cases r <;> simp [writeReg] at h ⊢
theorem writeReg_irqStatus (h : r ≠ .irqStatus) : (writeReg r v s).irqStatus = s.irqStatus := by
  cases r <;> simp [writeReg] at h ⊢
theorem writeReg_irqEnable (h : r ≠ .irqEnable) : (writeReg r v s).irqEnable = s.irqEnable := by
  cases r <;> simp [writeReg] at h ⊢

end

/-! ### A host write -/

/-- What `MemWrite` does: nothing, a register's write at its offset, or a component of a work bank (R69, R77). -/
theorem busWrite_cases (a : Offset) (v : Word) (s : State) :
    busWrite a v s = s ∨ (∃ r, wordOffset a = r.offset ∧ busWrite a v s = writeReg r v s) ∨
    (0x60000 ≤ wordOffset a ∧ wordOffset a < 0xA0000 ∧
      busWrite a v s = { s with mem := s.mem.writeWords (wordOffset a) [v] }) := by
  unfold busWrite
  simp only
  split
  · split
    · exact .inr (.inl ⟨_, offset_of_regAt ‹_›, rfl⟩)
    · exact .inl rfl
  · split
    · split
      · obtain ⟨h1, h2⟩ := windowAt_work (.inl rfl) ‹_›
        exact .inr (.inr ⟨h1, h2, rfl⟩)
      · exact .inl rfl
    · split
      · obtain ⟨h1, h2⟩ := windowAt_work (.inr rfl) ‹_›
        exact .inr (.inr ⟨h1, h2, rfl⟩)
      · exact .inl rfl
    all_goals exact .inl rfl

/-- What a write to CMD does: an error, or the acceptance of a command whose checks pass (R98). -/
theorem cmdWrite_cases {w : Word} {s t : State} (he : cmdWrite w s = .next t) :
    (∃ o e, t = raise false o e s) ∨
    (∃ i, decodeC w = .ok i ∧ s.busy = false ∧ checkOf i s = none ∧ t = accept (encode i) (prepOf i s)) := by
  unfold cmdWrite at he
  split at he
  · exact .inl ⟨_, _, (Host.Outcome.next.inj he).symm⟩
  · rename_i hb
    split at he
    · rename_i i hi
      rw [exec_command i (decodeC_format hi), if_neg hb] at he
      obtain rfl := Host.Outcome.next.inj he
      unfold issue
      split
      · exact .inl ⟨_, _, rfl⟩
      · exact .inr ⟨i, hi, by simpa using hb, ‹_›, rfl⟩
    · exact .inl ⟨_, _, (Host.Outcome.next.inj he).symm⟩

/-- A write to CMD changes ERR, IRQ_STATUS, `busy` and `pend` only (R98, R174). -/
theorem cmdWrite_frame {w : Word} {s t : State} (he : cmdWrite w s = .next t) :
    { t with err := s.err, irqStatus := s.irqStatus, busy := s.busy, pend := s.pend } = s := by
  rcases cmdWrite_cases he with ⟨o, e, rfl⟩ | ⟨i, -, -, -, rfl⟩
  · rfl
  · cases i <;> rfl

/-! ### A producer word -/

/-- What a producer word does: nothing, a port error, a stored sample or a completed frame (R142 to R151). -/
theorem portWord_cases {w : Word} {s t : State} (he : portWord w s = .next t) :
    t = s ∨ (∃ e, t = raise true 0#8 e s) ∨
    (∃ c, decodeP w = .ok (.smp c) ∧ s.run = true ∧ s.wp.toNat ≠ s.activeN ∧ t = storeSample c s) ∨
    (decodeP w = .ok .frc ∧ t = frameComplete s) := by
  unfold portWord at he
  split at he
  · rename_i i hi
    rcases decodeP_cases hi with rfl | rfl
    · obtain rfl := Host.Outcome.next.inj he
      split
      · split
        · exact .inr (.inl ⟨_, rfl⟩)
        · exact .inr (.inr (.inl ⟨_, hi, ‹_›, ‹_›, rfl⟩))
      · exact .inl rfl
    · obtain rfl := Host.Outcome.next.inj he
      split
      · split
        · exact .inr (.inr (.inr ⟨hi, rfl⟩))
        · exact .inr (.inl ⟨_, rfl⟩)
      · exact .inl rfl
  · obtain rfl := Host.Outcome.next.inj he
    unfold reservedWord
    split
    · exact .inr (.inl ⟨_, rfl⟩)
    · exact .inl rfl

/-! ### A completion -/

/-- What the ENGINE's step does: nothing, or the completion of the pending command (R99). -/
theorem engineStep_cases {s t : State} (he : engineStep s = .next t) :
    t = s ∨ (s.busy = true ∧ ∃ i, decodeC s.pend.word = .ok i ∧ t = complete (effectOf i s)) := by
  unfold engineStep at he
  split at he
  · rename_i hb
    split at he
    · rename_i i hi
      rw [exec_completes i (decodeC_format hi) s hb] at he
      exact .inr ⟨hb, i, hi, (Host.Outcome.next.inj he).symm⟩
    · simp at he
  · exact .inl (Host.Outcome.next.inj he).symm

/-- No effect changes the build, a staging register, ERR, a counter of frames, an event, IRQ_ENABLE or `pend`. -/
theorem effectOf_frame (i : Instr) (s : State) :
    (effectOf i s).build = s.build ∧ (effectOf i s).config = s.config ∧ (effectOf i s).frameN = s.frameN ∧
    (effectOf i s).midCode = s.midCode ∧ (effectOf i s).err = s.err ∧ (effectOf i s).dropCount = s.dropCount ∧
    (effectOf i s).frameCount = s.frameCount ∧ (effectOf i s).irqStatus = s.irqStatus ∧
    (effectOf i s).irqEnable = s.irqEnable ∧ (effectOf i s).pend = s.pend := by
  cases i <;> simp [effectOf]

/-- Only NORM and PROCESS write SPEC_SEQ and MAXMAG. -/
theorem effectOf_spectrum {i : Instr} (h : i ∉ [Instr.norm, .process]) (s : State) :
    (effectOf i s).specSeq = s.specSeq ∧ (effectOf i s).maxMag = s.maxMag := by
  cases i <;> simp [effectOf] at h ⊢

/-- Only START and STOP write `run`, `active` and `wp`. -/
theorem effectOf_running {i : Instr} (h : i ∉ [Instr.start, .stop]) (s : State) :
    (effectOf i s).run = s.run ∧ (effectOf i s).active = s.active ∧ (effectOf i s).wp = s.wp := by
  cases i <;> simp [effectOf] at h ⊢

/-- Only CLAIM, START and STOP write `ready`. -/
theorem effectOf_ready {i : Instr} (h : i ∉ [Instr.claim, .start, .stop]) (s : State) :
    (effectOf i s).ready = s.ready := by
  cases i <;> simp [effectOf] at h ⊢

/-- Only the commands that end or make a hold write `held`. -/
theorem effectOf_held {i : Instr} (h : i ∉ [Instr.claim, .release, .convert, .process, .start, .stop]) (s : State) :
    (effectOf i s).held = s.held := by
  cases i <;> simp [effectOf] at h ⊢

end Sys2Proof.Machine
end

section
/-! PROOFS. The table of R63: whatever a step changes, one of its listed writers has changed. One lemma for each kind of
writer, over a state `u` with the core of `s`. -/

namespace Sys2Proof.Machine

/-! ### Who moves, as the table names it -/

section
variable {s u t : State}

@[simp] theorem nextAgent_masters : (nextAgent s).2.masters = s.masters := by
  unfold nextAgent defaultTurn
  repeat' split
  all_goals rfl

@[simp] theorem nextAgent_port : (nextAgent s).2.port = s.port := by
  unfold nextAgent defaultTurn
  repeat' split
  all_goals rfl

/-- A step that leaves the core alone changes nothing of the table. -/
theorem OnlyWriters.of_core (h : t.core = s.core) : OnlyWriters s t := by
  simp only [State.core, State.mk.injEq] at h
  constructor <;> simp [byteChanged, h]

/-- The release of reset changes nothing of the table. -/
theorem OnlyWriters.of_released (hu : u.core = s.core) : OnlyWriters s { u with resetHeld := false } := by
  simp only [State.core, State.mk.injEq] at hu
  constructor <;> simp [byteChanged, hu]

/-! ### The host -/

/-- A write to CMD: ERR, IRQ_STATUS, `busy` and `pend`. -/
theorem OnlyWriters.of_cmd (hu : u.core = s.core) {w : Word} (he : cmdWrite w u = .next t) (hw : s.hostWrites 0x14) :
    OnlyWriters s t := by
  have h := (congrArg State.core (cmdWrite_frame he)).trans hu
  simp only [State.core, State.mk.injEq] at h
  constructor <;> simp [byteChanged, h, hw]

/-- A write to a register other than CMD: the register. -/
theorem OnlyWriters.of_register (hu : u.core = s.core) (r : Reg) (v : Word) (hw : s.hostWrites r.offset) :
    OnlyWriters s (writeReg r v u) := by
  simp only [State.core, State.mk.injEq] at hu
  have written : ∀ r' : Reg, ¬ r ≠ r' → s.hostWrites r'.offset := fun _ h => (not_not.mp h) ▸ hw
  constructor
  case config => exact fun hne => written .config fun hr => hne (by simp [writeReg_config v u hr, hu])
  case frameN => exact fun hne => written .frameN fun hr => hne (by simp [writeReg_frameN v u hr, hu])
  case midCode => exact fun hne => written .midCode fun hr => hne (by simp [writeReg_midCode v u hr, hu])
  case irqEnable => exact fun hne => written .irqEnable fun hr => hne (by simp [writeReg_irqEnable v u hr, hu])
  case err => exact fun hne => .inr (.inl (written .err fun hr => hne (by simp [writeReg_err v u hr, hu])))
  case dropCount => exact fun hne => .inl (written .dropCount fun hr => hne (by simp [writeReg_dropCount v u hr, hu]))
  case frameCount => exact fun hne => .inl (written .frameCount fun hr => hne (by simp [writeReg_frameCount v u hr, hu]))
  case irqStatus => exact fun hne => .inr (.inl (written .irqStatus fun hr => hne (by simp [writeReg_irqStatus v u hr, hu])))
  all_goals simp [byteChanged, hu]

/-- A write to a component of a work bank: its four bytes. -/
theorem OnlyWriters.of_work (hu : u.core = s.core) {o : Nat} (v : Word) (h4 : o % 4 = 0) (h1 : 0x60000 ≤ o)
    (h2 : o < 0xA0000) (hw : s.hostWrites o) : OnlyWriters s { u with mem := u.mem.writeWords o [v] } := by
  simp only [State.core, State.mk.injEq] at hu
  have bytes : ∀ {a : Nat}, byteChanged s { u with mem := u.mem.writeWords o [v] } a → o ≤ a ∧ a < o + 4 := by
    intro a hne
    by_contra hout
    refine hne ((Memory.byte?_writeWords_of_outside _ _ _ a ?_).trans (by simp [hu]))
    simp only [List.length_singleton]
    omega
  constructor
  case raw =>
    intro sl a hl hr hne
    have := bytes hne
    cases sl <;> simp only [rawWindow, Window.base] at hl hr <;> omega
  case tables | mag | spec =>
    intro a hl hr hne
    have := bytes hne
    omega
  case work =>
    intro a _ _ hne
    have := bytes hne
    exact .inl ((show o = a / 4 * 4 by omega) ▸ hw)
  case elsewhere =>
    intro a ha hne
    have := bytes hne
    omega
  all_goals simp [hu]

/-- A host write: the register or the component at its offset. -/
theorem OnlyWriters.of_hostWrite (hu : u.core = s.core) {a : Offset} {v : Word} (hw : s.hostWrites (wordOffset a))
    (he : hostWrite a v u = .next t) : OnlyWriters s t := by
  unfold hostWrite at he
  split at he
  · rename_i ha
    rw [ha] at hw
    exact OnlyWriters.of_cmd hu he hw
  · obtain rfl := Host.Outcome.next.inj he
    rcases busWrite_cases a v u with h | ⟨r, hr, h⟩ | ⟨h1, h2, h⟩
    · exact OnlyWriters.of_core (h.symm ▸ hu)
    · exact h ▸ OnlyWriters.of_register hu r v (hr ▸ hw)
    · exact h ▸ OnlyWriters.of_work hu v (wordOffset_mod a) h1 h2 hw

/-! ### The producer -/

/-- An error of the port: ERR and IRQ_STATUS. -/
theorem OnlyWriters.of_portError (hu : u.core = s.core) (hp : (nextAgent s).1 = .producer) (e : ErrCode) :
    OnlyWriters s (raise true 0#8 e u) := by
  simp only [State.core, State.mk.injEq] at hu
  constructor <;> simp [byteChanged, hu, hp]

/-- A stored sample: `wp` and two bytes of the active buffer. -/
theorem OnlyWriters.of_sample (hu : u.core = s.core) (hc : ControlInv u) (hd : s.deliversSample) (c : Half)
    (hr : u.run = true) (hn : u.wp.toNat ≠ u.activeN) : OnlyWriters s (storeSample c u) := by
  simp only [State.core, State.mk.injEq] at hu
  have bytes : ∀ {a : Nat}, byteChanged s (storeSample c u) a → (rawWindow s.active).hasByte a := by
    intro a hne
    by_contra hout
    refine hne ((storeSample_byte?_of_not_active hc hr hn c ?_).trans (by simp [hu]))
    simpa [hu] using hout
  constructor
  case raw =>
    intro sl a hl hr hne
    have ha := bytes hne
    have hsl : (rawWindow sl).hasByte a := ⟨hl, rawWindow_size sl ▸ hr⟩
    exact ⟨hd, rawWindow_inj (hsl.unique ha)⟩
  case tables | work | mag | spec =>
    intro a hl hr hne
    have := rawWindow_bounds (bytes hne)
    omega
  case elsewhere =>
    intro a ha hne
    have := rawWindow_bounds (bytes hne)
    omega
  all_goals simp [hu, hd]

/-- A completed frame: the counters, the events and the handoff flags. -/
theorem OnlyWriters.of_frame (hu : u.core = s.core) (hd : s.deliversFrame) : OnlyWriters s (frameComplete u) := by
  simp only [State.core, State.mk.injEq] at hu
  constructor <;> simp [byteChanged, hu, hd, hd.1]

/-! ### The ENGINE -/

/-- A completion: `busy`, CMD_DONE and what the command's effect writes. -/
theorem OnlyWriters.of_completion (hu : u.core = s.core) (hc : ControlInv u) (hg : (nextAgent s).1 = .engine)
    (hb : u.busy = true) {i : Instr} (hd : decodeC u.pend.word = .ok i) : OnlyWriters s (complete (effectOf i u)) := by
  have hallowed := hc.pending.allowed hb hd
  simp only [State.core, State.mk.injEq] at hu
  obtain ⟨f1, f2, f3, f4, f5, f6, f7, f8, f9, f10⟩ := effectOf_frame i u
  have hbs : s.busy = true := by simpa [hu] using hb
  have writer : ∀ {is : List Instr}, ¬ i ∉ is → s.completes is := fun h =>
    ⟨hg, hbs, i, not_not.mp h, by simpa [hu] using hd⟩
  have bytes : ∀ {a : Nat} {w : Window}, byteChanged s (complete (effectOf i u)) a → w.hasByte a →
      s.completes w.writers := fun hne hw =>
    writer (not_not.mpr (writer_of_changed hc hallowed hw (by simpa [byteChanged, hu] using hne)))
  constructor
  case spectrum =>
    exact fun hne => writer fun hi => by simp [effectOf_spectrum hi u, hu] at hne
  case active_config =>
    exact fun hne => writer fun hi => by
      have := effectOf_configPart (by simpa using hi) u
      simp only [State.configPart, Prod.mk.injEq] at this
      simp [this, hu] at hne
  case run => exact fun hne => writer fun hi => hne (by simp [effectOf_running hi u, hu])
  case active => exact fun hne => .inr (writer fun hi => hne (by simp [effectOf_running hi u, hu]))
  case wp => exact fun hne => .inr (.inr (writer fun hi => hne (by simp [effectOf_running hi u, hu])))
  case ready => exact fun hne => .inr (writer fun hi => hne (by simp [effectOf_ready hi u, hu]))
  case held => exact fun hne => writer fun hi => hne (by simp [effectOf_held hi u, hu])
  case raw =>
    intro sl a hl hr hne
    have hsl : (rawWindow sl).hasByte a := ⟨hl, rawWindow_size sl ▸ hr⟩
    obtain ⟨-, -, j, hj, -⟩ := bytes hne hsl
    cases sl <;> simp [rawWindow, Window.writers] at hj
  case tables =>
    intro a hl hr hne
    by_cases hx : a < 0x50000
    · exact bytes (w := .twid) hne ⟨hl, hx⟩
    · exact bytes (w := .win) hne ⟨not_lt.mp hx, hr⟩
  case work =>
    intro a hl hr hne
    by_cases hx : a < 0x80000
    · exact .inr (bytes (w := .workA) hne ⟨hl, hx⟩)
    · exact .inr (bytes (w := .workB) hne ⟨not_lt.mp hx, hr⟩)
  case mag => exact fun a hl hr hne => bytes (w := .mag) hne ⟨hl, hr⟩
  case spec => exact fun a hl hr hne => bytes (w := .spec) hne ⟨hl, hr⟩
  case elsewhere =>
    intro a ha hne
    obtain ⟨w, -, hw⟩ := writtenWindow_of_changed hc hallowed (by simpa [byteChanged, hu] using hne)
    have := windowAt_bounds (windowAt_eq_some_iff.mpr hw)
    omega
  all_goals simp [f1, f2, f3, f4, f5, f6, f7, f8, f9, f10, hu, hg, hbs]

end

/-- Settles O46: the mover of the step, and what it can change. -/
theorem onlyTheListedWriters : Obligations.OnlyTheListedWriters := by
  unfold Obligations.OnlyTheListedWriters
  intro s t hc he hreset
  have hcore := nextAgent_core s
  have hcu := hc.of_core hcore
  unfold step at he
  cases ha : (nextAgent s).1 with
  | host k =>
    rw [ha] at he
    rcases hostStep_cases he with h | ⟨a, v, rest, hq, -, -, hw⟩
    · exact OnlyWriters.of_core (h.trans hcore)
    · rw [nextAgent_masters] at hq
      exact OnlyWriters.of_hostWrite (u := setQueue k rest (nextAgent s).2) hcore ⟨k, a, v, rest, ha, hq, rfl⟩ hw
  | producer =>
    rw [ha] at he
    rcases producerStep_cases he with h | ⟨w, rest, hq, -, hw⟩
    · exact OnlyWriters.of_core (h.trans hcore)
    · rw [nextAgent_port] at hq
      rcases portWord_cases hw with rfl | ⟨e, rfl⟩ | ⟨c, hd, hr, hn, rfl⟩ | ⟨hd, rfl⟩
      · exact OnlyWriters.of_core hcore
      · exact OnlyWriters.of_portError (u := { (nextAgent s).2 with port := rest }) hcore ha e
      · exact OnlyWriters.of_sample (u := { (nextAgent s).2 with port := rest }) hcore (hc.of_core hcore)
          ⟨ha, w, rest, c, hq, hd⟩ c hr hn
      · exact OnlyWriters.of_frame (u := { (nextAgent s).2 with port := rest }) hcore ⟨ha, w, rest, hq, hd⟩
  | engine =>
    rw [ha] at he
    rcases engineStep_cases he with rfl | ⟨hb, i, hd, rfl⟩
    · exact OnlyWriters.of_core hcore
    · exact OnlyWriters.of_completion hcore hcu ha hb hd
  | assertReset => exact absurd ha hreset
  | releaseReset =>
    rw [ha] at he
    obtain rfl := Host.Outcome.next.inj he
    exact OnlyWriters.of_released hcore

end Sys2Proof.Machine
end

section
/-! PROOFS. Three more facts of every step or of one command: an event bit stays set (R43), the RAM stays in canonical
form, and CONVERT reads no unwritten element (R61, R157). -/

namespace Sys2Proof.Machine

/-! ### Event bits (R43) -/

/-- FRC sets event bits and clears none. -/
theorem frameComplete_irqStatus (s : State) : ∃ x, (frameComplete s).irqStatus = s.irqStatus ||| x := by
  unfold frameComplete dropUnclaimed
  split
  · exact ⟨evDrop, rfl⟩
  · split
    · exact ⟨evDrop ||| evFrameReady, BitVec.or_assoc _ _ _⟩
    · exact ⟨evFrameReady, rfl⟩

/-- What a host write does to the events: it sets some, or it is a write to IRQ_STATUS and clears those it names. -/
theorem hostWrite_irqStatus {a : Offset} {v : Word} {s t : State} (he : hostWrite a v s = .next t) :
    (∃ x, t.irqStatus = s.irqStatus ||| x) ∨
    (wordOffset a = 0x34 ∧ t.irqStatus = s.irqStatus &&& ~~~(v.extractLsb' 0 4)) := by
  have same : ∀ {u : State}, u.irqStatus = s.irqStatus → ∃ x, u.irqStatus = s.irqStatus ||| x :=
    fun h => ⟨0#4, by simpa using h⟩
  unfold hostWrite at he
  split at he
  · rcases cmdWrite_cases he with ⟨o, e, rfl⟩ | ⟨i, -, -, -, rfl⟩
    · exact .inl ⟨evError, rfl⟩
    · exact .inl (same (by cases i <;> rfl))
  · obtain rfl := Host.Outcome.next.inj he
    rcases busWrite_cases a v s with h | ⟨r, hr, h⟩ | ⟨-, -, h⟩ <;> rw [h]
    · exact .inl (same rfl)
    · by_cases hi : r = .irqStatus
      · subst hi
        exact .inr ⟨hr, rfl⟩
      · exact .inl (same (writeReg_irqStatus v s hi))
    · exact .inl (same rfl)

/-- What a step does to the events: it sets some, asserts reset, or is a write transfer to IRQ_STATUS. -/
theorem step_irqStatus {s t : State} (he : step s = .next t) :
    (∃ x, t.irqStatus = s.irqStatus ||| x) ∨ (nextAgent s).1 = .assertReset ∨
    ∃ k a v rest, (nextAgent s).1 = .host k ∧ s.masters.getD k [] = .write a v :: rest ∧ wordOffset a = 0x34 ∧
      t.irqStatus = s.irqStatus &&& ~~~(v.extractLsb' 0 4) := by
  have hs : (nextAgent s).2.irqStatus = s.irqStatus := part_of_core State.irqStatus (nextAgent_core s)
  have same : ∀ {u : State}, u.core = (nextAgent s).2.core → ∃ x, u.irqStatus = s.irqStatus ||| x :=
    fun h => ⟨0#4, by simpa using (part_of_core State.irqStatus h).trans hs⟩
  unfold step at he
  cases ha : (nextAgent s).1 with
  | host k =>
    rw [ha] at he
    rcases hostStep_cases he with h | ⟨a, v, rest, hq, -, -, hw⟩
    · exact .inl (same h)
    · rw [nextAgent_masters] at hq
      rcases hostWrite_irqStatus hw with ⟨x, hx⟩ | ⟨h34, hx⟩
      · exact .inl ⟨x, by simpa [hs] using hx⟩
      · exact .inr (.inr ⟨k, a, v, rest, rfl, hq, h34, by simpa [hs] using hx⟩)
  | producer =>
    rw [ha] at he
    rcases producerStep_cases he with h | ⟨w, rest, -, -, hw⟩
    · exact .inl (same h)
    · rcases portWord_cases hw with rfl | ⟨e, rfl⟩ | ⟨c, -, -, -, rfl⟩ | ⟨-, rfl⟩
      · exact .inl (same rfl)
      · exact .inl ⟨evError, by simp [hs]⟩
      · exact .inl ⟨0#4, by simp [hs]⟩
      · obtain ⟨x, hx⟩ := frameComplete_irqStatus { (nextAgent s).2 with port := rest }
        exact .inl ⟨x, by simpa [hs] using hx⟩
  | engine =>
    rw [ha] at he
    rcases engineStep_cases he with rfl | ⟨-, i, -, rfl⟩
    · exact .inl (same rfl)
    · obtain ⟨-, -, -, -, -, -, -, hirq, -, -⟩ := effectOf_frame i (nextAgent s).2
      exact .inl ⟨evCmdDone, by simp [hirq, hs]⟩
  | assertReset => exact .inr (.inl rfl)
  | releaseReset =>
    rw [ha] at he
    obtain rfl := Host.Outcome.next.inj he
    exact .inl ⟨0#4, by simp [hs]⟩

/-- Settles O47: a bit set in an or of IRQ_STATUS stays set, and only a write of 1 to IRQ_STATUS masks one out. -/
theorem eventBitsAreSticky : Obligations.EventBitsAreSticky := by
  unfold Obligations.EventBitsAreSticky
  intro s t b he hs ht
  rcases step_irqStatus he with ⟨x, hx⟩ | hreset | ⟨k, a, v, rest, hk, hq, ha, hx⟩
  · simp [hx, hs] at ht
  · exact .inl hreset
  · refine .inr ⟨k, a, v, rest, hk, hq, ha, ?_⟩
    have hb : b < 4 := by
      by_contra hb
      simp [BitVec.getLsbD_of_ge _ b (not_lt.mp hb)] at hs
    simpa [hx, hs, hb] using ht

/-! ### The canonical form of the RAM -/

/-- CONFIGURE writes at most two tables. -/
theorem configureMem_wf {s : State} (h : s.mem.wf) : (configureMem s).wf := by
  unfold configureMem
  simp only
  repeat' split
  · exact Memory.wf_writeWords (Memory.wf_writeComplexes h _ _) _ _
  · exact Memory.wf_writeWords h _ _
  · exact Memory.wf_writeComplexes h _ _
  · exact h

/-- Every effect keeps the canonical form. -/
theorem effectOf_mem_wf (i : Instr) {s : State} (h : s.mem.wf) : (effectOf i s).mem.wf := by
  have hconv : (convertEffect s).mem.wf := Memory.wf_writeComplexes h _ _
  have hfft : ∀ src dst {u : State}, u.mem.wf → (fftEffect src dst u).mem.wf :=
    fun _ _ _ h => Memory.wf_writeComplexes h _ _
  have hmag : ∀ src {u : State}, u.mem.wf → (magEffect src u).mem.wf := fun _ _ h => Memory.wf_writeWords h _ _
  have hnorm : ∀ {u : State}, u.mem.wf → (normEffect u).mem.wf := fun h => Memory.wf_writeHalves h _ _
  cases i with
  | configure => exact configureMem_wf h
  | convert => exact hconv
  | fft src dst => exact hfft src dst h
  | mag src => exact hmag src h
  | norm => exact hnorm h
  | process => exact hnorm (hmag .a (hfft .a .a hconv))
  | claim => simpa [effectOf] using h
  | nop | start | stop | release | smp c | frc => exact h

/-- Every move of the core keeps the canonical form. -/
theorem CoreMove.mem_wf {a : Agent} {u v : State} (hm : CoreMove a u v) (h : u.mem.wf) : v.mem.wf := by
  cases hm with
  | register k r w => simpa using h
  | work => exact Memory.wf_writeWords h _ _
  | accepted k i => cases i <;> exact h
  | completed i => exact effectOf_mem_wf i h
  | sample => exact Memory.wf_writeHalves h _ _
  | frame => simpa using h
  | rejected | portError | released => exact h
  | asserted => exact Memory.wf_nil

/-- Settles O41: every write is a splice of rising cells. -/
theorem stepKeepsMemoryCanonical : Obligations.StepKeepsMemoryCanonical := by
  unfold Obligations.StepKeepsMemoryCanonical
  intro s t h he
  exact step_keeps (P := fun s => s.mem.wf) (fun _ _ hcore hs => part_of_core State.mem hcore ▸ hs)
    (fun _ _ _ hm hs => hm.mem_wf hs) he h

/-! ### CONVERT of a claimed frame -/

/-- The codes of a held frame have all been written (R157). -/
theorem frameCodes_draws {s : State} (h : FramesInv s) (hh : s.held.any = true) : (frameCodes s).2 = s.draws := by
  refine Memory.readHalves_draws _ _ _ _ fun i hi => ?_
  have hw := h.complete s.claimSlot (.inr (held_get_claimSlot hh)) i hi
  cases hs : s.claimSlot <;> simpa [Memory.codeWritten, hs, rawWindow, Window.elem, Window.stride] using hw

/-- The coefficients of a configured core have all been written (R109). -/
theorem windowCoefficients_draws {s : State} (ht : TablesInv s) (hv : s.cfgValid = true) (hN : s.activeN ≤ s.build.nmax) :
    (windowCoefficients s).2 = (frameCodes s).2 := by
  refine Memory.readWords_draws _ _ _ _ fun i hi => ?_
  have hw := (ht hv).2 i (hi.trans_le hN)
  exact Option.isSome_iff_exists.mpr ⟨_, hw⟩

/-- Settles O43: both reads of CONVERT find their elements written. -/
theorem convertTakesNoDraw : Obligations.ConvertTakesNoDraw := by
  unfold Obligations.ConvertTakesNoDraw
  intro s t hc ht hf hb hh he
  have hv := (hc.handoff.running (hc.handoff.run_of_held hh)).1
  rw [exec_completes .convert rfl s hb] at he
  obtain rfl := Host.Outcome.next.inj he
  calc (windowCoefficients s).2
    _ = (frameCodes s).2 := windowCoefficients_draws ht hv (hc.config.activeN_le_nmax hv)
    _ = s.draws := frameCodes_draws hf hh

end Sys2Proof.Machine
end

section
/-! PROOFS. The registers as the host sees them (R27 to R45): their words, their offsets and what a write does. -/

namespace Sys2Proof.Machine

/-! ### Words -/

/-- An append's value: the upper part above the lower one. -/
theorem toNat_append_eq_add {n m : Nat} (x : BitVec n) (y : BitVec m) : (x ++ y).toNat = x.toNat * 2 ^ m + y.toNat := by
  rw [BitVec.toNat_append, ← Nat.shiftLeft_add_eq_or_of_lt y.isLt, Nat.shiftLeft_eq]

/-- An and is not zero exactly when some bit is 1 in both. -/
theorem and_ne_zero_iff {n : Nat} (x y : BitVec n) :
    x &&& y ≠ 0#n ↔ ∃ k, k < n ∧ x.getLsbD k = true ∧ y.getLsbD k = true := by
  constructor
  · intro h
    by_contra hno
    refine h (BitVec.eq_of_getLsbD_eq fun k hk => ?_)
    simpa using fun hx hy => hno ⟨k, hk, hx, hy⟩
  · rintro ⟨k, -, hx, hy⟩ h
    simpa [hx, hy] using congrArg (·.getLsbD k) h

/-- STATUS has nothing above bit 11 (R36). -/
theorem statusWord_high (s : State) {k : Nat} (hk : 12 ≤ k) : s.statusWord.getLsbD k = false := by
  simp only [State.statusWord, BitVec.getLsbD_append]
  simp (disch := omega) only [if_neg, BitVec.getLsbD_zero]

/-- Settles O25: bit k of STATUS is the k-th part from the right, and 0 above the parts. -/
theorem statusBits : Obligations.StatusBits := by
  unfold Obligations.StatusBits
  intro s
  have hactive : s.active.bit = decide (s.active = .s1) := by cases s.active <;> rfl
  have hirq : s.irq = true ↔ ∃ k, k < 4 ∧ s.irqStatus.getLsbD k = true ∧ s.irqEnable.getLsbD k = true := by
    rw [State.irq, decide_eq_true_iff, and_ne_zero_iff]
  refine ⟨?_, ?_, ?_, ?_, ?_, ?_, ?_, ?_, ?_, ?_, ?_, ?_, hirq, fun k hk => statusWord_high s hk⟩
  all_goals
    simp only [readReg, State.statusWord, BitVec.getLsbD_append]
    simp [hactive, SlotFlags.any]

/-- Settles O26: a register of fields has the value of its parts put side by side. -/
theorem registerFields : Obligations.RegisterFields := by
  unfold Obligations.RegisterFields
  intro s
  have hconfig : ∀ c : ConfigReg,
      c.word = BitVec.ofNat 32 (c.outBits.toNat * 2 ^ 16 + c.sampleBits.toNat * 2 ^ 8 + c.winKind.toNat) := by
    intro c
    apply BitVec.eq_of_toNat_eq
    simp only [ConfigReg.word, toNat_append_eq_add]
    simp
    omega
  have hzext : ∀ {n : Nat} (x : BitVec n), n ≤ 32 → (x.setWidth 32).toNat = x.toNat :=
    fun x h => BitVec.toNat_setWidth_of_le h
  refine ⟨rfl, rfl, rfl, rfl, rfl, rfl, rfl, ?_, ?_, ?_, rfl, hzext _ (by decide), hzext _ (by decide),
    hzext _ (by decide), hzext _ (by decide), hzext _ (by decide)⟩
  · apply BitVec.eq_of_toNat_eq
    simp only [readReg, paramWord, Config.version, toNat_append_eq_add]
    simp
    omega
  · rintro r c (⟨rfl, rfl⟩ | ⟨rfl, rfl⟩) <;> exact hconfig _
  · apply BitVec.eq_of_toNat_eq
    simp only [readReg, ErrReg.word, toNat_append_eq_add]
    have := s.err.multi.toNat_lt
    have := s.err.port.toNat_lt
    simp
    omega

/-- The low `n` bits of a word, zero-extended, are the word under a mask of `n` ones. -/
theorem setWidth_extractLsb_low (v : Word) (n : Nat) :
    (v.extractLsb' 0 n).setWidth 32 = v &&& BitVec.ofNat 32 (2 ^ n - 1) := by
  refine BitVec.eq_of_getLsbD_eq fun k hk => ?_
  simp only [BitVec.getLsbD_setWidth, BitVec.getLsbD_extractLsb', BitVec.getLsbD_and, BitVec.getLsbD_ofNat,
    Nat.testBit_two_pow_sub_one]
  by_cases hkn : k < n <;> simp [hkn, hk]

/-- Settles O27. The frames hold by computation; each RW word is the written one under its mask. -/
theorem registerWrites : Obligations.RegisterWrites := by
  unfold Obligations.RegisterWrites
  intro v s
  refine ⟨?_, rfl, rfl, rfl, ?_, rfl, ?_, rfl, ?_, rfl, ?_, rfl, rfl, rfl, rfl, rfl, ?_⟩
  · apply BitVec.eq_of_getLsbD_eq
    intro k hk
    simp only [readReg, writeReg, ConfigReg.word, ConfigReg.ofWord, BitVec.getLsbD_append]
    interval_cases k <;> simp
  · exact setWidth_extractLsb_low v 16
  · exact setWidth_extractLsb_low v 4
  · refine BitVec.eq_of_getLsbD_eq fun k hk => ?_
    simp only [readReg, writeReg, BitVec.getLsbD_setWidth, BitVec.getLsbD_and, BitVec.getLsbD_not,
      BitVec.getLsbD_extractLsb']
    by_cases hk4 : k < 4
    · simp [hk4, hk]
    · simp [BitVec.getLsbD_of_ge _ k (not_lt.mp hk4)]
  · show ErrReg.cleared.word = 0#32
    decide
  · simp [writeReg]

/-- Settles O28. -/
theorem registerMap : Obligations.RegisterMap := by
  unfold Obligations.RegisterMap
  refine ⟨rfl, fun a s v => ⟨fun r hr => ?_, fun h1 h2 => ?_⟩⟩
  · have hlt : r.offset < 0x20000 := r.offset_lt.trans (by decide)
    refine ⟨by simp [busRead, hr, hlt], fun hne => ?_, fun heq => ?_⟩
    · have hcmd : r.offset ≠ Reg.cmd.offset := fun h => hne (Option.some.inj (by rw [← regAt_offset, h, regAt_offset]))
      simp [hostWrite, busWrite, hr, hlt, hcmd]
    · exact hostWrite_cmd v s (hr.trans (congrArg Reg.offset heq))
  · have hcmd : wordOffset a ≠ Reg.cmd.offset := by
      have := Reg.cmd.offset_lt
      omega
    simp [busRead, hostWrite, busWrite, h2, regAt_of_reserved h1, hcmd]

/-- Settles O35: the values of R64, each read or checked on the reset state. -/
theorem stateAfterReset : Obligations.StateAfterReset := by
  unfold Obligations.StateAfterReset
  refine ⟨rfl, by decide, by decide, by decide, by decide, fun o => ⟨rfl, rfl⟩, rfl, by decide, rfl, rfl, by decide⟩

/-- Settles O37. -/
theorem resetMeetsTheInvariant : Obligations.ResetMeetsTheInvariant where
  control := (ControlInv.applyReset (s := State.reset) (by decide)).congr rfl rfl rfl
  tables := nofun
  frames := ⟨nofun, by rintro (_ | _) (h | h) <;> cases h⟩
  stalled := ⟨List.nodup_nil, nofun, nofun⟩
  mem_wf := reset_mem_wf

end Sys2Proof.Machine
end

section
/-! PROOFS. The RAM windows as the host sees them (R61, R72 to R75): the window and the element an offset reaches, and what a
transfer there does. -/

namespace Sys2Proof.Machine

/-! ### Offsets of elements -/

theorem wordOffset_ofNat {o : Nat} (h : o < 2 ^ 20) : wordOffset (BitVec.ofNat 20 o) = o / 4 * 4 := by
  unfold wordOffset
  rw [BitVec.toNat_ofNat, Nat.mod_eq_of_lt h]

theorem Window.hasByte.bounds {w : Window} {o : Nat} (h : w.hasByte o) : 0x20000 ≤ o ∧ o < 0xC0000 :=
  windowAt_bounds (windowAt_eq_some_iff.mpr h)

/-- The windows' regions are whole words. -/
theorem Window.hasByte.word {w : Window} {o : Nat} (h : w.hasByte o) : w.hasByte (o / 4 * 4) := by
  unfold Window.hasByte at *
  cases w <;> simp only [Window.base, Window.size] at * <;> omega

theorem Window.elem_mod (w : Window) (i : Nat) : w.elem i % 4 = 0 := by
  cases w <;> simp only [Window.elem, Window.base, Window.stride] <;> omega

/-- The elements of a legal build's windows lie in their regions (R74, R75). -/
theorem Window.hasByte_elem {b : Build} (hb : b.wellFormed = true) {w : Window} {i d : Nat} (hi : i < w.count b)
    (hd : d < w.stride) : w.hasByte (w.elem i + d) := by
  have := Build.nmax_le hb
  unfold Window.hasByte Window.elem
  cases w <;> simp only [Window.count, Window.stride, Window.base, Window.size] at * <;> omega

/-- The offsets of element i belong to the window exactly when it has an element i (R75). -/
theorem Window.holds_elem (b : Build) (w : Window) (i d : Nat) (hd : d < w.stride) :
    w.holds b (w.elem i + d) = decide (i < w.count b) := by
  have hdiv : (w.elem i + d - w.base) / w.stride = i := by
    rw [Window.elem, Nat.add_assoc, Nat.add_sub_cancel_left, Nat.mul_add_div (by omega), Nat.div_eq_of_lt hd, Nat.add_zero]
  rw [Window.holds, hdiv]

/-! ### Transfers at an offset of a window -/

/-- A read in a window's region reads the window. -/
theorem busRead_window {a : Offset} {w : Window} (h : w.hasByte (wordOffset a)) (s : State) :
    busRead a s = readWindow w (wordOffset a) s := by
  have := h.bounds
  unfold busRead
  simp only [windowAt_eq_some_iff.mpr h]
  rw [if_neg (by omega)]

/-- A host write in a window's region, at an offset of no element, changes nothing (R75). -/
theorem hostWrite_reserved_element {a : Offset} {w : Window} (h : w.hasByte (wordOffset a)) {s : State}
    (hh : w.holds s.build (wordOffset a) = false) (v : Word) : hostWrite a v s = .next s := by
  have := h.bounds
  unfold hostWrite busWrite
  simp only [windowAt_eq_some_iff.mpr h]
  rw [if_neg (by simp only [Reg.offset]; omega), if_neg (by omega)]
  cases w <;> simp [hh]

/-- Above the windows a read gives 0 and a host write changes nothing (R74). -/
theorem transfer_above_windows {a : Offset} (h : 0xC0000 ≤ a.toNat) (v : Word) (s : State) :
    busRead a s = (0#32, s.draws) ∧ hostWrite a v s = .next s := by
  have hle : 0xC0000 ≤ wordOffset a := by
    unfold wordOffset
    omega
  have hnone : windowAt (wordOffset a) = none := by
    cases hw : windowAt (wordOffset a) with
    | none => rfl
    | some w =>
      have := windowAt_bounds hw
      omega
  unfold busRead hostWrite busWrite
  simp only [hnone]
  rw [if_neg (by omega), if_neg (by simp only [Reg.offset]; omega), if_neg (by omega)]
  exact ⟨rfl, rfl⟩

/-- A read of a window's word at a component of one of its elements (R68). -/
theorem busRead_elem {s : State} (hb : s.build.wellFormed = true) {w : Window} {i d : Nat} (hi : i < w.count s.build)
    (hd : d < w.stride) (h4 : d % 4 = 0) : busRead (BitVec.ofNat 20 (w.elem i + d)) s =
      if w.isHalf then ((takeHalf (s.mem.half? (w.elem i + d)) s.draws).1.setWidth 32,
        (takeHalf (s.mem.half? (w.elem i + d)) s.draws).2)
      else takeWord (s.mem.word? (w.elem i + d)) s.draws := by
  have hreg := Window.hasByte_elem hb hi hd
  have hword : (w.elem i + d) / 4 * 4 = w.elem i + d := by
    have := Window.elem_mod w i
    omega
  have hoff : wordOffset (BitVec.ofNat 20 (w.elem i + d)) = w.elem i + d := by
    have := hreg.bounds
    rw [wordOffset_ofNat (by omega), hword]
  rw [busRead_window (hoff.symm ▸ hreg), hoff, readWindow, Window.holds_elem _ _ _ _ hd, decide_eq_true hi, if_pos rfl]

/-- The word of a 16-bit element is its code (R72). -/
theorem setWidth_half (h : Half) : h.setWidth 32 = BitVec.ofNat 32 h.toNat :=
  BitVec.eq_of_toNat_eq (by simp)

/-- Settles O30: the window and the element an offset reaches, then what is written there. -/
theorem windowReads : Obligations.WindowReads := by
  unfold Obligations.WindowReads
  intro s hb
  refine ⟨fun w i hw hi => ?_, fun w i d hwd hi => ?_, fun w i d v hi hd hreg => ?_,
    fun a v ha => transfer_above_windows ha v s⟩
  · have hread := busRead_elem (d := 0) hb hi (by cases w <;> decide) rfl
    rw [Nat.add_zero, if_pos (by rcases hw with rfl | rfl | rfl <;> rfl)] at hread
    refine ⟨fun h hh => ?_, fun hnone => ?_⟩
    · rw [hread, hh, setWidth_half]
      rfl
    · rw [hread, hnone, setWidth_half]
      simp [takeHalf]
  · have hd : d < w.stride ∧ d % 4 = 0 ∧ w.isHalf = false := by
      rcases hwd with ⟨rfl | rfl, rfl⟩ | ⟨rfl | rfl | rfl, rfl | rfl⟩ <;> decide
    obtain ⟨hd, h4, hhalf⟩ := hd
    have hread := busRead_elem hb hi hd h4
    rw [hhalf, if_neg (by decide)] at hread
    exact ⟨fun x hx => by rw [hread, hx]; rfl, fun hnone => by rw [hread, hnone]; rfl⟩
  · have hby : w.hasByte (w.elem i + d) := ⟨by unfold Window.elem; omega, hreg⟩
    have := hby.bounds
    have hoff : wordOffset (BitVec.ofNat 20 (w.elem i + d)) = (w.elem i + d) / 4 * 4 := wordOffset_ofNat (by omega)
    have hholds : w.holds s.build ((w.elem i + d) / 4 * 4) = false := by
      have hword : (w.elem i + d) / 4 * 4 = w.elem i + d / 4 * 4 := by
        have := Window.elem_mod w i
        omega
      rw [hword, Window.holds_elem _ _ _ _ (by omega), decide_eq_false (not_lt.mpr hi)]
    have hby' := hoff ▸ hby.word
    rw [← hoff] at hholds
    refine ⟨?_, hostWrite_reserved_element hby' hholds v⟩
    rw [busRead_window hby', readWindow, hholds, if_neg (by decide)]

end Sys2Proof.Machine
end

section
/-! PROOFS. A placed word goes to the port whose decoder reads it, and the next step takes it there (log entries 6, 7). -/

namespace Sys2Proof.Machine

/-- A word is its own 32 bits. -/
theorem ofNat_toNat_mod (w : Word) : BitVec.ofNat 32 (w.toNat % 2 ^ 32) = w := by
  rw [Nat.mod_eq_of_lt w.isLt, BitVec.ofNat_toNat, BitVec.setWidth_eq]

/-- The table's decoder reads a command word as the command and any other word as a producer word. -/
theorem decodeTableWord_cases {w : Word} {i : Instr} (h : decodeTableWord 32 w.toNat = some i) :
    decodeC w = .ok i ∨ (decodeP w = .ok i ∧ ∃ e, decodeC w = .error e) := by
  simp only [decodeTableWord, le_refl, if_true, ofNat_toNat_mod] at h
  split at h
  · rename_i hc
    exact .inl (by rw [hc, Option.some.inj h])
  · rename_i hc
    split at h
    · rename_i hp
      exact .inr ⟨by rw [hp, Option.some.inj h], _, hc⟩
    · simp at h

/-- A placed word goes to the port whose decoder reads it (log entry 6). -/
theorem withFetchWord_eq (s : State) (w : Word) :
    s.withFetchWord 32 w.toNat = if goesToPort w then placePortWord w s else placeCommand w s := by
  simp only [State.withFetchWord, ofNat_toNat_mod]

/-- The step after a placed command word is its issue (R98). -/
theorem step_placeCommand {s : State} {w : Word} {i : Instr} (hd : decodeC w = .ok i) (hb : s.busy = false) :
    step (placeCommand w s) = exec i { s with
      resetHeld := false, stalled := if s.busy then s.stalled else []
      masters := s.masters.getD 0 [] :: s.masters.drop 1 } := by
  have hdue : (placeCommand w s).busy = true ∨ (placeCommand w s).stalled = [] := .inr (by simp [placeCommand, hb])
  rw [step_of_nextAgent (nextAgent_of_schedule hdue rfl)]
  calc hostStep 0 { placeCommand w s with schedule := s.schedule }
    _ = hostWrite (BitVec.ofNat 20 Reg.cmd.offset) w
          (setQueue 0 (s.masters.getD 0 []) { placeCommand w s with schedule := s.schedule }) := hostStep_write rfl hb rfl
    _ = cmdWrite w (setQueue 0 (s.masters.getD 0 []) { placeCommand w s with schedule := s.schedule }) :=
        hostWrite_cmd w _ (by decide)
    _ = exec i { s with
          resetHeld := false, stalled := if s.busy then s.stalled else []
          masters := s.masters.getD 0 [] :: s.masters.drop 1 } := cmdWrite_decoded hb hd

/-- The step after a placed producer word is its delivery (R141). -/
theorem step_placePortWord {s : State} {w : Word} {i : Instr} (hd : decodeP w = .ok i) :
    step (placePortWord w s) =
      exec i { s with resetHeld := false, stalled := if s.busy then s.stalled else [] } := by
  have hdue : (placePortWord w s).busy = true ∨ (placePortWord w s).stalled = [] := by
    cases hb : s.busy
    · exact .inr (by simp [placePortWord, hb])
    · exact .inl hb
  rw [step_of_nextAgent (nextAgent_of_schedule hdue rfl)]
  calc producerStep { placePortWord w s with schedule := s.schedule }
    _ = portWord w { s with resetHeld := false, stalled := if s.busy then s.stalled else [] } := producerStep_word rfl rfl
    _ = exec i { s with resetHeld := false, stalled := if s.busy then s.stalled else [] } := portWord_decoded _ hd

/-- Settles O7: the word goes to the port whose decoder reads it, and is taken there. -/
theorem placedWordRunsNext : Obligations.PlacedWordRunsNext := by
  unfold Obligations.PlacedWordRunsNext
  intro s w i hd hidle
  rw [withFetchWord_eq]
  rcases decodeTableWord_cases hd with hc | ⟨hp, e, hc⟩
  · have hf := decodeC_format hc
    rw [if_neg (by simp [goesToPort, hc]), if_pos hf, step_placeCommand hc (hidle hf)]
  · have hf : formatOf i ≠ .command := by rcases decodeP_cases hp with rfl | rfl <;> simp [formatOf]
    rw [if_pos (by simp [goesToPort, hc, hp]), if_neg hf, step_placePortWord hp]

end Sys2Proof.Machine
end

section
/-! PROOFS. The word of an instruction, and its bytes, read back (R71, R90, R97, R103). -/

namespace Sys2Proof

/-! ### Producer words (R90) -/

/-- A code, zero-extended to its word, has KIND 00. -/
theorem kindOf_setWidth (code : Half) : kindOf (code.setWidth 32) = 0#2 := by
  have := code.isLt
  apply BitVec.eq_of_toNat_eq
  simp only [kindOf, BitVec.extractLsb'_toNat, BitVec.toNat_setWidth_of_le (show 16 ≤ 32 by decide),
    Nat.shiftRight_eq_div_pow, BitVec.toNat_ofNat]
  omega

/-- A code, zero-extended to its word, is that word's CODE. -/
theorem codeOf_setWidth (code : Half) : codeOf (code.setWidth 32) = code := by
  have := code.isLt
  apply BitVec.eq_of_toNat_eq
  simp only [codeOf, BitVec.extractLsb'_toNat, BitVec.toNat_setWidth_of_le (show 16 ≤ 32 by decide),
    Nat.shiftRight_zero]
  omega

/-- Format P decoding reads the word of a producer instruction back. -/
theorem decodeP_encode {i : Instr} (h : formatOf i = .producer) : decodeP (encode i) = .ok i := by
  cases i with
  | smp code =>
    simp only [decodeP, encode, kindOf_setWidth, codeOf_setWidth]
    rfl
  | frc => decide
  | _ => simp [formatOf] at h

/-! ### Either format -/

/-- Each format's decoder reads the words of its own instructions back (R97). -/
theorem decodeWord_encode (i : Instr) : decodeWord (formatOf i) (encode i) = .ok i := by
  cases h : formatOf i with
  | command => exact Machine.decodeC_encode h
  | producer => exact decodeP_encode h

/-- The four bytes of an instruction are decoded as its word is (R71). -/
theorem decode_encodeBytes (f : Format) (i : Instr) : decode f (encodeBytes i) = decodeWord f (encode i) :=
  congrArg (decodeWord f) (Machine.wordOfBytes_byteOf (encode i))

/-- Settles O1: the two formats, and the bytes put together again. -/
theorem decodeEncodeAgree : Obligations.DecodeEncodeAgree := by
  unfold Obligations.DecodeEncodeAgree
  intro i _
  exact ⟨decodeWord_encode i, (decode_encodeBytes _ i).trans (decodeWord_encode i)⟩

end Sys2Proof
end

section
/-! PROOFS. The place of the aperture, and what a host write does in a window (R66, R67, R71, R76, R77). -/

namespace Sys2Proof.Machine

/-! ### The aperture (R66, R76) -/

/-- The interconnect gives a system address of the aperture its offset back. -/
theorem apertureOffset?_systemAddress {b : Build} (hb : b.wellFormed = true) (a : Offset) :
    apertureOffset? b (systemAddress b a) = some a := by
  have hbase : b.coreBase % 2 ^ 20 = 0 := by
    simp only [Build.wellFormed, Bool.and_eq_true, decide_eq_true_eq] at hb
    exact hb.2
  have ha := a.isLt
  unfold apertureOffset? systemAddress
  rw [if_pos (by omega)]
  congr 1
  apply BitVec.eq_of_toNat_eq
  rw [BitVec.toNat_ofNat]
  omega

/-- An address outside the aperture has no offset. -/
theorem apertureOffset?_outside {b : Build} {addr : Nat} (h : addr < b.coreBase ∨ b.coreBase + 0x100000 ≤ addr) :
    apertureOffset? b addr = none := by
  unfold apertureOffset?
  rw [if_neg (by omega)]

/-! ### The low address bits (R67) -/

/-- Bits 19:2 of an offset are its word offset in words. -/
theorem wordOffset_eq_mul (a : Offset) : wordOffset a = (a.extractLsb' 2 18).toNat * 4 := by
  have := a.isLt
  simp only [wordOffset, BitVec.extractLsb'_toNat, Nat.shiftRight_eq_div_pow]
  omega

/-- What a transfer does depends on its word offset only. -/
theorem transfer_congr {a b : Offset} (h : wordOffset a = wordOffset b) (s : State) (v : Word) :
    busRead a s = busRead b s ∧ hostWrite a v s = hostWrite b v s ∧ inRamWindow a = inRamWindow b := by
  simp only [busRead, hostWrite, busWrite, inRamWindow, h, and_self]

/-- Settles O29: the offset of a system address, then the word offset of an offset. -/
theorem lowAddressBitsAreIgnored : Obligations.LowAddressBitsAreIgnored := by
  unfold Obligations.LowAddressBitsAreIgnored
  refine ⟨fun b hb => ⟨fun a => ⟨?_, fun v => ?_⟩, fun addr v hout => ⟨?_, ?_⟩⟩, fun a b s v h => transfer_congr ?_ s v⟩
  · rw [SystemTransfer.toCore, apertureOffset?_systemAddress hb, Option.map_some]
  · rw [SystemTransfer.toCore, apertureOffset?_systemAddress hb, Option.map_some]
  · rw [SystemTransfer.toCore, apertureOffset?_outside hout, Option.map_none]
  · rw [SystemTransfer.toCore, apertureOffset?_outside hout, Option.map_none]
  · rw [wordOffset_eq_mul, wordOffset_eq_mul, h]

/-! ### Writes in a window (R77) -/

/-- The windows the host writes: the work banks. -/
def Window.isWork : Window → Bool
  | .workA | .workB => true
  | .raw0 | .raw1 | .twid | .win | .mag | .spec => false

@[simp] theorem workWindow_isWork (bank : Bank) : (workWindow bank).isWork = true := by cases bank <;> rfl

/-- A host write in a window stores the word at an element of a work bank, and changes nothing anywhere else. -/
theorem hostWrite_window {a : Offset} {w : Window} (h : w.hasByte (wordOffset a)) (v : Word) (s : State) :
    hostWrite a v s = .next (if w.isWork && w.holds s.build (wordOffset a) then
      { s with mem := s.mem.writeWords (wordOffset a) [v] } else s) := by
  have := h.bounds
  unfold hostWrite busWrite
  simp only [windowAt_eq_some_iff.mpr h]
  rw [if_neg (by simp only [Reg.offset]; omega), if_neg (by omega)]
  cases w with
  | workA | workB => simp only [Window.isWork, Bool.true_and]
  | raw0 | raw1 | twid | win | mag | spec => rfl

/-- A component of an element stands at a word offset of its own. -/
theorem wordOffset_elem {b : Build} (hb : b.wellFormed = true) {w : Window} {i d : Nat} (hi : i < w.count b)
    (hd : d < w.stride) (h4 : d % 4 = 0) : wordOffset (BitVec.ofNat 20 (w.elem i + d)) = w.elem i + d := by
  have hbounds := (Window.hasByte_elem hb hi hd).bounds
  have := Window.elem_mod w i
  rw [wordOffset_ofNat (by omega)]
  omega

/-- Settles O31: a component of a work bank is stored at its place; the other windows are read-only. -/
theorem windowWrites : Obligations.WindowWrites := by
  unfold Obligations.WindowWrites
  intro s v hb
  refine ⟨fun bank i d hi hd => ?_, fun a w hwin hw => ?_⟩
  · have hcount : i < (workWindow bank).count s.build := by cases bank <;> exact hi
    have hstride : d < (workWindow bank).stride := by cases bank <;> simp only [workWindow, Window.stride] <;> omega
    have hoff := wordOffset_elem hb hcount hstride (by omega)
    have hwrite := hostWrite_window (hoff.symm ▸ Window.hasByte_elem hb hcount hstride) v s
    rw [hoff, Window.holds_elem _ _ _ _ hstride, workWindow_isWork, decide_eq_true hcount] at hwrite
    exact ⟨_, hwrite, rfl, Memory.word?_writeWords s.mem _ [v] 0 (by simp),
      fun x hx => Memory.byte?_writeWords_of_outside s.mem _ [v] x hx⟩
  · have hro : w.isWork = false := by rcases hw with rfl | rfl | rfl | rfl | rfl | rfl <;> rfl
    rw [hostWrite_window (windowAt_eq_some_iff.mp hwin), hro]
    rfl

/-! ### The byte view (R71) -/

/-- Byte k of the word that four bytes make is the k-th of them. -/
theorem byteOf_wordOfBytes (b0 b1 b2 b3 : Byte) :
    byteOf (wordOfBytes b0 b1 b2 b3) 0 = b0 ∧ byteOf (wordOfBytes b0 b1 b2 b3) 1 = b1 ∧
      byteOf (wordOfBytes b0 b1 b2 b3) 2 = b2 ∧ byteOf (wordOfBytes b0 b1 b2 b3) 3 = b3 := by
  have hword : (wordOfBytes b0 b1 b2 b3).toNat =
      ((b3.toNat * 2 ^ 8 + b2.toNat) * 2 ^ 8 + b1.toNat) * 2 ^ 8 + b0.toNat := by
    simp only [wordOfBytes, toNat_append_eq_add]
  have := b0.isLt
  have := b1.isLt
  have := b2.isLt
  have := b3.isLt
  refine ⟨?_, ?_, ?_, ?_⟩
  all_goals
    apply BitVec.eq_of_toNat_eq
    simp only [byteOf, BitVec.extractLsb'_toNat, hword, Nat.shiftRight_eq_div_pow]
    omega

/-- A component that has been written has its four bytes. -/
theorem Memory.byte?_of_word? {m : Memory} {o : Nat} {w : Word} (h : m.word? o = some w) {k : Nat} (hk : k < 4) :
    m.byte? (o + k) = some (byteOf w k) := by
  unfold Memory.word? at h
  split at h
  · rename_i b0 b1 b2 b3 h0 h1 h2 h3
    obtain rfl := Option.some.inj h
    obtain ⟨e0, e1, e2, e3⟩ := byteOf_wordOfBytes b0 b1 b2 b3
    have : k = 0 ∨ k = 1 ∨ k = 2 ∨ k = 3 := by omega
    rcases this with rfl | rfl | rfl | rfl
    · rw [e0]; exact h0
    · rw [e1]; exact h1
    · rw [e2]; exact h2
    · rw [e3]; exact h3
  · simp at h

/-- Settles O34: a written list has each of its components at its place, and a component its four bytes. -/
theorem byteViewIsLittleEndian : Obligations.ByteViewIsLittleEndian := by
  unfold Obligations.ByteViewIsLittleEndian
  intro m o
  refine ⟨fun w k hw hk => Memory.byte?_of_word? hw hk, fun ws i k hi hk => ?_⟩
  rw [List.getD_eq_getElem _ _ hi]
  exact Memory.byte?_of_word? (Memory.word?_writeWords m o ws i hi) hk

end Sys2Proof.Machine
end

section
/-! PROOFS. A bus master's step where its transfer holds and where it takes effect (R68, R69, R78, R104), and that a read
leaves the core alone (R79). -/

namespace Sys2Proof.Machine

/-! ### Held or not -/

theorem inRamWindow_iff (a : Offset) : inRamWindow a = true ↔ 0x20000 ≤ wordOffset a ∧ wordOffset a < 0xC0000 := by
  simp [inRamWindow]

/-- A transfer that does not hold is made (R68, R69). -/
theorem hostStep_takesEffect {k : Nat} {s : State} {op : HostOp} {rest : List HostOp}
    (hq : s.masters.getD k [] = op :: rest) (hr : s.resetHeld = false)
    (hh : s.busy = false ∨ inRamWindow op.target = false) : hostStep k s = hostOp k op rest s := by
  have hno : (s.busy && inRamWindow op.target) = false := (Bool.and_eq_false_iff ..).mpr hh
  unfold hostStep
  rw [hq]
  simp only [hr, hno, Bool.false_eq_true, if_false]

/-- The first held master moves once no command executes (R78, R208). -/
theorem nextAgent_of_due {s : State} {k : Nat} {ks : List Nat} (hb : s.busy = false) (hst : s.stalled = k :: ks) :
    nextAgent s = (.host k, { s with stalled := ks }) := by
  have hdue : dueMasters s = k :: ks := by simp [dueMasters, hb, hst]
  unfold nextAgent
  rw [hdue]

/-- Settles O32: the held transfer that is due, a transfer that holds, and the three transfers that take effect. -/
theorem ramTransfersHold : Obligations.RamTransfersHold := by
  unfold Obligations.RamTransfersHold
  refine ⟨fun s k ks hb hst => step_of_nextAgent (nextAgent_of_due hb hst), fun s k op rest hq hr =>
    ⟨fun hb h1 h2 => ?_, fun hfree => ?_⟩⟩
  · have hholds := hostStep_holds hq hr hb ((inRamWindow_iff _).mpr ⟨h1, h2⟩)
    refine ⟨fun hk => ?_, fun hk => ?_⟩
    · rw [hholds, stall, if_pos hk]
    · rw [hholds, stall, if_neg hk]
  · have heffect : hostStep k s = hostOp k op rest s := by
      refine hostStep_takesEffect hq hr (hfree.imp_right fun hout => ?_)
      rw [← Bool.not_eq_true, inRamWindow_iff]
      omega
    refine ⟨fun a hop => ?_, fun a v hop => ?_, fun a mask v hop => ?_⟩
    all_goals
      subst hop
      exact heffect

/-! ### A read leaves the core alone (R79) -/

/-- A state with the core of another differs from it in what stands outside the core. -/
theorem eq_of_core {s t : State} (h : t.core = s.core) : t = { s with
    masters := t.masters, port := t.port, stalled := t.stalled, turn := t.turn, schedule := t.schedule
    readLog := t.readLog, draws := t.draws } := by
  calc t
    _ = { t.core with
          masters := t.masters, port := t.port, stalled := t.stalled, turn := t.turn, schedule := t.schedule
          readLog := t.readLog, draws := t.draws } := rfl
    _ = _ := by rw [h]; rfl

/-- A bus master's step takes no producer word and no turn of another agent. -/
theorem hostStep_turns {k : Nat} {s t : State} (he : hostStep k s = .next t) :
    t.port = s.port ∧ t.turn = s.turn ∧ t.schedule = s.schedule := by
  rcases hostStep_waiting he with ⟨rfl, -⟩ | hw | ⟨op, rest, q, -, -, hw⟩
  · exact ⟨rfl, rfl, rfl⟩
  · simp only [State.waiting, Prod.mk.injEq] at hw
    exact ⟨hw.2.1, hw.2.2.2⟩
  · simp only [State.waiting, Prod.mk.injEq] at hw
    exact ⟨hw.2.1, hw.2.2.2⟩

/-- Settles O33: only a write transfer reaches the core, and a bus master leaves the other agents' turns alone. -/
theorem readsHaveNoSideEffect : Obligations.ReadsHaveNoSideEffect := by
  unfold Obligations.ReadsHaveNoSideEffect
  intro s t k op rest hq hread he
  obtain ⟨hport, hturn, hsched⟩ := hostStep_turns he
  rcases hostStep_cases he with hcore | ⟨a, v, rest', hq', -⟩
  · calc t
      _ = _ := eq_of_core hcore
      _ = _ := by rw [hport, hturn, hsched]
  · rw [hq] at hq'
    exact absurd (List.cons.inj hq').1 (hread a v)

end Sys2Proof.Machine
end

section
/-! PROOFS. An accepted command completes, and with it every held transfer (R78, R99, R208). -/

namespace Sys2Proof.Machine

/-! ### Steps that answer a next state -/

/-- Every meaning answers a next state. -/
theorem exec_next (i : Instr) (s : State) : ∃ t, exec i s = .next t := by
  cases i <;> exact ⟨_, rfl⟩

/-- Every host write answers a next state. -/
theorem hostWrite_next (a : Offset) (v : Word) (s : State) : ∃ t, hostWrite a v s = .next t := by
  unfold hostWrite cmdWrite
  split
  · split
    · exact ⟨_, rfl⟩
    · split
      · exact exec_next _ s
      · exact ⟨_, rfl⟩
  · exact ⟨_, rfl⟩

/-- Every step of a bus master answers a next state. -/
theorem hostStep_next (k : Nat) (s : State) : ∃ t, hostStep k s = .next t := by
  unfold hostStep
  split
  · exact ⟨_, rfl⟩
  · rename_i op rest _
    repeat' split
    · exact ⟨_, rfl⟩
    · exact ⟨_, rfl⟩
    · cases op with
      | write a v => exact hostWrite_next a v _
      | read a | poll a mask v => exact ⟨_, rfl⟩

/-- Every step of the producer answers a next state. -/
theorem producerStep_next (s : State) : ∃ t, producerStep s = .next t := by
  unfold producerStep portWord
  split
  · exact ⟨_, rfl⟩
  · split
    · exact ⟨_, rfl⟩
    · split
      · exact exec_next _ _
      · exact ⟨_, rfl⟩

/-! ### The command completes -/

/-- When the ENGINE is the next agent of a busy core, the step completes the command (R99). -/
theorem step_completes {s u : State} (hc : ControlInv s) (hb : s.busy = true) (hn : nextAgent s = (.engine, u)) :
    ∃ t, step s = .next t ∧ t.busy = false ∧ t.irqStatus.getLsbD 0 = true := by
  obtain ⟨i, hd, -⟩ := hc.pending hb
  have hcore : u.core = s.core := by simpa [hn] using nextAgent_core s
  have hub : u.busy = true := (part_of_core State.busy hcore).trans hb
  have hud : decodeC u.pend.word = .ok i := (part_of_core (fun x => decodeC x.pend.word) hcore).trans hd
  refine ⟨complete (effectOf i u), ?_, rfl, by simp [evCmdDone]⟩
  rw [step_of_nextAgent hn]
  exact (engineStep_decoded hub hud).trans (exec_completes i (decodeC_format hud) u hub)

/-- Only the ENGINE and the assertion of reset end a command. -/
theorem CoreMove.busy {a : Agent} {u v : State} (hm : CoreMove a u v) (h1 : a ≠ .engine) (h2 : a ≠ .assertReset)
    (hb : u.busy = true) : v.busy = true := by
  cases hm with
  | register k r w => exact (writeReg_busy u r w).trans hb
  | frame => exact (frameComplete_busy u).trans hb
  | accepted => rfl
  | work | rejected | sample | portError | released => exact hb
  | completed => exact absurd rfl h1
  | asserted => exact absurd rfl h2

/-- The producer's step uses up no turn. -/
theorem producerStep_schedule {s t : State} (he : producerStep s = .next t) : t.schedule = s.schedule := by
  unfold producerStep at he
  repeat' split at he
  · exact Host.Outcome.next.inj he ▸ rfl
  · exact Host.Outcome.next.inj he ▸ rfl
  · have hw := portWord_waiting he
    simp only [State.waiting, Prod.mk.injEq] at hw
    exact hw.2.2.2.2

/-- A step of any agent but the ENGINE and the assertion of reset leaves a busy core busy, and no other turn used up. -/
theorem agentStep_stays_busy {a : Agent} {s : State} (h1 : a ≠ .engine) (h2 : a ≠ .assertReset) (hb : s.busy = true) :
    ∃ t, agentStep a s = .next t ∧ t.busy = true ∧ t.schedule = s.schedule := by
  have hnext : ∃ t, agentStep a s = .next t ∧ t.schedule = s.schedule := by
    cases a with
    | host k =>
      obtain ⟨t, ht⟩ := hostStep_next k s
      exact ⟨t, ht, (hostStep_turns ht).2.2⟩
    | producer =>
      obtain ⟨t, ht⟩ := producerStep_next s
      exact ⟨t, ht, producerStep_schedule ht⟩
    | releaseReset => exact ⟨_, rfl, rfl⟩
    | engine => exact absurd rfl h1
    | assertReset => exact absurd rfl h2
  obtain ⟨t, ht, hs⟩ := hnext
  refine ⟨t, ht, ?_, hs⟩
  rcases agentStep_moves ht with hcore | ⟨u, v, hu, hv, hm⟩
  · exact (part_of_core State.busy hcore).trans hb
  · have hvb := hm.busy h1 h2 ((part_of_core State.busy hu).trans hb)
    exact (part_of_core State.busy hv).symm.trans hvb

/-- A first step, then `n` more. -/
theorem stepN_succ {s t : State} (h : step s = .next t) (n : Nat) : stepN (n + 1) s = stepN n t := by
  simp only [stepN, h]

/-- A busy core comes, before its schedule is used up, to a step of the ENGINE or an assertion of reset, which ends the
command. -/
theorem reaches_end_of_command (ags : List Agent) : ∀ s : State, ControlInv s → s.busy = true → s.schedule = ags →
    ∃ (n : Nat) (t u : State), n ≤ ags.length ∧ stepN n s = .next t ∧ t.busy = true ∧
      ((nextAgent t).1 = .engine ∨ (nextAgent t).1 = .assertReset) ∧ step t = .next u ∧ u.busy = false := by
  induction ags with
  | nil =>
    intro s hc hb hs
    have hn := nextAgent_of_busy hs hb
    obtain ⟨u, hu, hub, -⟩ := step_completes hc hb hn
    exact ⟨0, s, u, le_rfl, rfl, hb, .inl (congrArg Prod.fst hn), hu, hub⟩
  | cons a ags ih =>
    intro s hc hb hs
    have hn := nextAgent_of_schedule (.inl hb) hs
    by_cases h1 : a = .engine
    · subst h1
      obtain ⟨u, hu, hub, -⟩ := step_completes hc hb hn
      exact ⟨0, s, u, Nat.zero_le _, rfl, hb, .inl (congrArg Prod.fst hn), hu, hub⟩
    by_cases h2 : a = .assertReset
    · subst h2
      exact ⟨0, s, _, Nat.zero_le _, rfl, hb, .inr (congrArg Prod.fst hn), step_of_nextAgent hn, rfl⟩
    · obtain ⟨s', he, hb', hs'⟩ := agentStep_stays_busy (s := { s with schedule := ags }) h1 h2 hb
      have hstep : step s = .next s' := (step_of_nextAgent hn).trans he
      obtain ⟨n, t, u, hle, ht, hrest⟩ := ih s' (hc.step hstep) hb' hs'
      exact ⟨n + 1, t, u, Nat.succ_le_succ hle, (stepN_succ hstep n).trans ht, hrest⟩

/-! ### The held transfers complete -/

/-- `q'` is left of a master's queue `q` once its transfer has been made: a poll may stay as the next one (R104). -/
def servedQueue (q q' : List HostOp) : Prop :=
  q' = q.tail ∨ ∃ a mask v, q.head? = some (.poll a mask v) ∧ q' = q

/-- A poll leaves the queue or stays in it. -/
theorem servedQueue_poll (c : Prop) [Decidable c] (a : Offset) (mask v : Word) (rest : List HostOp) :
    servedQueue (.poll a mask v :: rest) (if c then rest else .poll a mask v :: rest) := by
  split
  · exact .inl rfl
  · exact .inr ⟨a, mask, v, rfl, rfl⟩

/-- The transfer of a master of an idle core is made, and nothing else of what waits is touched. -/
theorem hostStep_serves {k : Nat} {s t : State} {op : HostOp} {rest : List HostOp}
    (hq : s.masters.getD k [] = op :: rest) (hb : s.busy = false) (he : hostStep k s = .next t) :
    ∃ q, servedQueue (op :: rest) q ∧ t.waiting = (setQueue k q s).waiting := by
  cases hr : s.resetHeld with
  | true =>
    have hreset : hostStep k s = .next (hostOpInReset k op rest s) := by
      unfold hostStep
      rw [hq, hr]
      rfl
    obtain rfl := Host.Outcome.next.inj (hreset.symm.trans he)
    cases op with
    | read a | write a v => exact ⟨rest, .inl rfl, rfl⟩
    | poll a mask v => exact ⟨_, servedQueue_poll _ a mask v rest, rfl⟩
  | false =>
    rw [hostStep_takesEffect hq hr (.inl hb)] at he
    cases op with
    | read a =>
      obtain rfl := Host.Outcome.next.inj he
      exact ⟨rest, .inl rfl, rfl⟩
    | write a v => exact ⟨rest, .inl rfl, hostWrite_waiting he⟩
    | poll a mask v =>
      obtain rfl := Host.Outcome.next.inj he
      exact ⟨_, servedQueue_poll _ a mask v rest, rfl⟩

/-- A RAM window transfer issues no command. -/
theorem hostStep_window_idle {k : Nat} {s t : State} {op : HostOp} {rest : List HostOp}
    (hq : s.masters.getD k [] = op :: rest) (hw : inRamWindow op.target = true) (hb : s.busy = false)
    (he : hostStep k s = .next t) : t.busy = false := by
  rcases hostStep_cases he with hcore | ⟨a, v, rest', hq', -, -, hwrite⟩
  · exact (part_of_core State.busy hcore).trans hb
  · obtain ⟨rfl, rfl⟩ := List.cons.inj (hq.symm.trans hq')
    have hwin := (inRamWindow_iff a).mp hw
    rw [hostWrite, if_neg (by simp only [Reg.offset]; omega)] at hwrite
    obtain rfl := Host.Outcome.next.inj hwrite
    rcases busWrite_cases a v (setQueue k rest s) with h | ⟨r, -, h⟩ | ⟨-, -, h⟩
    · rw [h]; exact hb
    · rw [h, writeReg_busy]; exact hb
    · rw [h]; exact hb

/-- A queue that is set is what its master has. -/
theorem getD_set_self {α : Type} {l : List (List α)} {k : Nat} (q : List α) (h : l.getD k [] ≠ []) :
    (l.set k q).getD k [] = q := by
  have hk : k < l.length := by
    by_contra hk
    exact h (List.getD_eq_default l [] (not_lt.mp hk))
  simp [hk]

/-- The step of the first held master of an idle core makes its transfer and touches nothing else of what waits. -/
theorem step_serves_due {s : State} {k : Nat} {ks : List Nat} (h : StalledInv s) (hb : s.busy = false)
    (hst : s.stalled = k :: ks) : ∃ t, step s = .next t ∧ t.stalled = ks ∧ t.busy = false ∧ t.schedule = s.schedule ∧
      t.port = s.port ∧ servedQueue (s.masters.getD k []) (t.masters.getD k []) ∧
      ∀ j, j ≠ k → t.masters.getD j [] = s.masters.getD j [] := by
  obtain ⟨op, rest, hq, hw⟩ := h.window k (by simp [hst])
  obtain ⟨t, he⟩ := hostStep_next k { s with stalled := ks }
  obtain ⟨q, hserved, hwait⟩ := hostStep_serves (s := { s with stalled := ks }) hq hb he
  simp only [State.waiting, Prod.mk.injEq] at hwait
  obtain ⟨hm, hport, hstalled, -, hsched⟩ := hwait
  have hmasters : t.masters = s.masters.set k q := hm
  refine ⟨t, (step_of_nextAgent (nextAgent_of_due hb hst)).trans he, hstalled,
    hostStep_window_idle (s := { s with stalled := ks }) hq hw hb he, hsched, hport, ?_, fun j hj => ?_⟩
  · rw [hmasters, getD_set_self q (hq ▸ List.cons_ne_nil op rest), hq]
    exact hserved
  · rw [hmasters, getD_set_of_ne hj]

/-- As many steps as there are held transfers make each of them, and touch nothing else of what waits. -/
theorem stepN_serves_due (ks : List Nat) : ∀ s : State, StalledInv s → s.busy = false → s.stalled = ks →
    ∃ t, stepN ks.length s = .next t ∧ t.stalled = [] ∧ t.busy = false ∧ t.schedule = s.schedule ∧ t.port = s.port ∧
      (∀ k ∈ ks, servedQueue (s.masters.getD k []) (t.masters.getD k [])) ∧
      ∀ k, k ∉ ks → t.masters.getD k [] = s.masters.getD k [] := by
  induction ks with
  | nil => exact fun s _ hb hst => ⟨s, rfl, hst, hb, rfl, rfl, nofun, fun _ _ => rfl⟩
  | cons k ks ih =>
    intro s h hb hst
    have hk : k ∉ ks := (List.nodup_cons.mp (hst ▸ h.distinct)).1
    obtain ⟨s', hstep, hst', hb', hsched', hport', hserved, hother⟩ := step_serves_due h hb hst
    obtain ⟨t, ht, htst, htb, hsched, hport, hin, hout⟩ := ih s' (h.step hstep) hb' hst'
    refine ⟨t, (stepN_succ hstep _).trans ht, htst, htb, hsched.trans hsched', hport.trans hport', fun j hj => ?_,
      fun j hj => ?_⟩
    · rcases List.mem_cons.mp hj with rfl | hmem
      · exact (hout j hk).symm ▸ hserved
      · exact hother j (ne_of_mem_of_not_mem hmem hk) ▸ hin j hmem
    · rw [List.mem_cons, not_or] at hj
      exact (hout j hj.2).trans (hother j hj.1)

/-- Settles O45: the ENGINE's step, the schedule up to it, and the held transfers one by one. -/
theorem acceptedCommandCompletes : Obligations.AcceptedCommandCompletes := by
  unfold Obligations.AcceptedCommandCompletes
  refine ⟨fun s ags hc hb hs => ?_, fun s hc hb => reaches_end_of_command s.schedule s hc hb rfl, fun s h hb => ?_⟩
  · rcases hs with hs | hs
    · exact step_completes hc hb (nextAgent_of_schedule (.inl hb) hs)
    · exact step_completes hc hb (nextAgent_of_busy hs hb)
  · obtain ⟨t, ht, hst, htb, hsched, hport, hserved, -⟩ := stepN_serves_due s.stalled s h hb rfl
    exact ⟨t, ht, hst, htb, hsched, hport, hserved⟩

end Sys2Proof.Machine
end

section
/-! PROOFS. A word's fields by its bits, what an OPC names, and which words are commands and which are illegal (R89 to R97,
R103). -/

namespace Sys2Proof

/-! ### Fields (R89, R90) -/

@[simp] theorem Bank.bit_ofBit (b : Bool) : (Bank.ofBit b).bit = b := by cases b <;> rfl

/-- Bit `k` of a word as a digit. -/
theorem getLsbD_toNat (w : Word) (k : Nat) : (w.getLsbD k).toNat = w.toNat / 2 ^ k % 2 := Nat.toNat_testBit w.toNat k

theorem opcOf_toNat (w : Word) : (opcOf w).toNat = w.toNat % 256 := by
  simp [opcOf, BitVec.extractLsb'_toNat]

/-- SRC and DST are the two bits above OPC (R89, R92). -/
theorem bankBits_toNat (w : Word) : (srcOf w).bit.toNat + 2 * (dstOf w).bit.toNat = w.toNat / 256 % 4 := by
  rw [srcOf, dstOf, Bank.bit_ofBit, Bank.bit_ofBit, getLsbD_toNat, getLsbD_toNat]
  omega

/-- KIND is the two highest bits (R90). -/
theorem kindOf_toNat (w : Word) : (kindOf w).toNat = (w.getLsbD 30).toNat + 2 * (w.getLsbD 31).toNat := by
  rw [getLsbD_toNat, getLsbD_toNat, kindOf, BitVec.extractLsb'_toNat, Nat.shiftRight_eq_div_pow]
  omega

/-- Some bit of a word from bit `n` up is 1. -/
theorem high_ne_zero_iff (w : Word) (n : Nat) :
    w.toNat / 2 ^ n ≠ 0 ↔ ∃ k, n ≤ k ∧ k < 32 ∧ w.getLsbD k = true := by
  rw [ne_eq, Nat.div_eq_zero_iff_lt (Nat.two_pow_pos n)]
  constructor
  · intro h
    obtain ⟨k, hk, hbit⟩ := Nat.exists_ge_and_testBit_of_ge_two_pow (not_lt.mp h)
    exact ⟨k, hk, BitVec.lt_of_getLsbD hbit, hbit⟩
  · rintro ⟨k, hk, -, hbit⟩ h
    exact Bool.false_ne_true ((Nat.testBit_lt_two_pow (h.trans_le (Nat.pow_le_pow_right (by decide) hk))).symm.trans hbit)

/-! ### What an OPC names (R93) -/

/-- The assigned OPC values (R93). -/
def assignedOpcs : List Nat := [0x00, 0x01, 0x02, 0x03, 0x04, 0x05, 0x10, 0x11, 0x12, 0x13, 0x14]

theorem commandOf_eq_none_iff (opc : Nat) (src dst : Bank) : commandOf opc src dst = none ↔ opc ∉ assignedOpcs := by
  unfold commandOf
  split <;> simp_all [assignedOpcs]

/-- FFT has two operand bits, MAG one, every other command none (R89). -/
theorem operandBits_of_commandOf {opc : Nat} {src dst : Bank} {i : Instr} (h : commandOf opc src dst = some i) :
    operandBits i = if opc = 0x11 then 2 else if opc = 0x12 then 1 else 0 := by
  unfold commandOf at h
  split at h <;> cases h <;> rfl

/-- The word of the command an OPC names: the OPC, and above it as many of the bits SRC and DST as the command has operand
bits (R103). -/
theorem encode_of_commandOf {opc : Nat} {src dst : Bank} {i : Instr} (h : commandOf opc src dst = some i) :
    (encode i).toNat = opc + 256 * ((src.bit.toNat + 2 * dst.bit.toNat) % 2 ^ operandBits i) := by
  unfold commandOf at h
  split at h <;> cases h <;> cases src <;> cases dst <;> rfl

/-! ### Format C (R93, R95, R103) -/

/-- A word decodes to the command its OPC names when every bit above the operands is 0 (R97). -/
theorem decodeC_eq_ok_iff (w : Word) (i : Instr) : decodeC w = .ok i ↔
    commandOf (opcOf w).toNat (srcOf w) (dstOf w) = some i ∧ w.toNat / 2 ^ (8 + operandBits i) = 0 := by
  unfold decodeC
  cases commandOf (opcOf w).toNat (srcOf w) (dstOf w) with
  | none => simp
  | some j =>
    simp only [ite_eq_iff, Except.ok.injEq, Option.some.injEq, reduceCtorEq, and_false, or_false]
    constructor
    · rintro ⟨h, rfl⟩
      exact ⟨rfl, h⟩
    · rintro ⟨rfl, h⟩
      exact ⟨h, rfl⟩

/-- A word that decodes to no command is illegal; format C decoding has no other error (R95). -/
theorem decodeC_eq_error_iff (w : Word) : decodeC w = .error .illegalCommand ↔ ∀ i, decodeC w ≠ .ok i := by
  unfold decodeC
  split
  · simp
  · split <;> simp

/-- A word that decodes to a command is that command's encoding (R103). -/
theorem encode_of_decodeC {w : Word} {i : Instr} (h : decodeC w = .ok i) : encode i = w := by
  obtain ⟨hi, hhigh⟩ := (decodeC_eq_ok_iff w i).mp h
  have hbits : operandBits i = 0 ∨ operandBits i = 1 ∨ operandBits i = 2 := by cases i <;> simp [operandBits]
  apply BitVec.eq_of_toNat_eq
  rw [encode_of_commandOf hi, opcOf_toNat, bankBits_toNat]
  rcases hbits with hb | hb | hb <;> rw [hb] at hhigh ⊢ <;> omega

/-- Settles O2: `encode` and `decodeC` are inverse to each other on the commands. -/
theorem commandWordIsItsEncoding : Obligations.CommandWordIsItsEncoding := by
  unfold Obligations.CommandWordIsItsEncoding
  refine fun w i => ⟨fun h => ⟨Machine.decodeC_format h, encode_of_decodeC h⟩, ?_⟩
  rintro ⟨hf, rfl⟩
  exact Machine.decodeC_encode hf

/-- Settles O5: ten closed words, evaluated. -/
theorem writtenOutWordsDecode : Obligations.WrittenOutWordsDecode := by
  unfold Obligations.WrittenOutWordsDecode
  decide

/-- A word is illegal when its OPC is unassigned or a bit above the operands of the command it names is 1 (R95). -/
theorem decodeC_illegal_iff (w : Word) : decodeC w = .error .illegalCommand ↔
    w.toNat % 256 ∉ assignedOpcs ∨
      ∃ k, 8 + (if w.toNat % 256 = 0x11 then 2 else if w.toNat % 256 = 0x12 then 1 else 0) ≤ k ∧ k < 32 ∧
        w.getLsbD k = true := by
  have hnone := commandOf_eq_none_iff (opcOf w).toNat (srcOf w) (dstOf w)
  rw [decodeC_eq_error_iff, ← high_ne_zero_iff, ← opcOf_toNat]
  simp only [ne_eq, decodeC_eq_ok_iff, not_and]
  cases hc : commandOf (opcOf w).toNat (srcOf w) (dstOf w) with
  | none => simp [hnone.mp hc]
  | some i =>
    have hassigned : (opcOf w).toNat ∈ assignedOpcs := by simpa [hc] using hnone
    rw [← operandBits_of_commandOf hc]
    simp [hassigned]

/-- The bits from `n` up are bit `n` and those above it. -/
theorem exists_bit_from_iff (w : Word) {n : Nat} (hn : n < 32) : (∃ k, n ≤ k ∧ k < 32 ∧ w.getLsbD k = true) ↔
    w.getLsbD n = true ∨ ∃ k, n + 1 ≤ k ∧ k < 32 ∧ w.getLsbD k = true := by
  constructor
  · rintro ⟨k, hk, hlt, hbit⟩
    rcases Nat.eq_or_lt_of_le hk with rfl | hk
    · exact .inl hbit
    · exact .inr ⟨k, hk, hlt, hbit⟩
  · rintro (hbit | ⟨k, hk, hlt, hbit⟩)
    · exact ⟨n, le_rfl, hn, hbit⟩
    · exact ⟨k, (Nat.le_succ n).trans hk, hlt, hbit⟩

/-- The reserved bits of the command an OPC names: bits 31:10 of FFT, 31:9 of MAG, 31:8 of every other (R89, R95). -/
theorem reservedBit_iff (w : Word) (opc : Nat) :
    (∃ k, 8 + (if opc = 0x11 then 2 else if opc = 0x12 then 1 else 0) ≤ k ∧ k < 32 ∧ w.getLsbD k = true) ↔
      (∃ k, 10 ≤ k ∧ k < 32 ∧ w.getLsbD k = true) ∨
      (opc ≠ 0x11 ∧ opc ≠ 0x12 ∧ (w.getLsbD 8 = true ∨ w.getLsbD 9 = true)) ∨ (opc = 0x12 ∧ w.getLsbD 9 = true) := by
  have h8 := exists_bit_from_iff w (n := 8) (by decide)
  have h9 := exists_bit_from_iff w (n := 9) (by decide)
  by_cases hfft : opc = 0x11
  · subst hfft
    simp
  by_cases hmag : opc = 0x12
  · subst hmag
    simpa [or_comm] using h9
  · simp only [hfft, hmag, if_false, Nat.add_zero, h8, h9, ne_eq, not_false_eq_true, true_and, false_and, or_false]
    rw [← or_assoc, or_comm]

end Sys2Proof
end

section
/-! PROOFS. What a producer word is, by its two highest bits (R90, R96), what its delivery does while stopped and for a
reserved KIND (R142, R146), and the stored sample (R144). -/

namespace Sys2Proof.Machine

/-- KIND alone selects what a producer word is (R94, R96). -/
theorem decodeP_eq (w : Word) : decodeP w =
    if w.getLsbD 31 then .error .reservedProducerWord else if w.getLsbD 30 then .ok .frc else .ok (.smp (codeOf w)) := by
  unfold decodeP
  rw [kindOf_toNat]
  cases w.getLsbD 31 <;> cases w.getLsbD 30 <;> rfl

/-- A word of a reserved KIND raises PORT_RESERVED while `run` = 1 (R96, R146). -/
theorem portWord_reserved {w : Word} {s : State} (hd : decodeP w = .error .reservedProducerWord) (hr : s.run = true) :
    portWord w s = .next (raise true 0#8 .portReserved s) := by
  unfold portWord reservedWord
  rw [hd, hr]
  rfl

/-- While `run` = 0 every producer word is ignored (R142). -/
theorem portWord_stopped (w : Word) {s : State} (hr : s.run = false) : portWord w s = .next s := by
  unfold portWord
  split
  · rename_i i hd
    rcases decodeP_cases hd with rfl | rfl
    · simp [exec, execSmp, hr]
    · simp [exec, execFrc, hr]
  · simp [reservedWord, hr]

/-- Settles O4: the cases of KIND, and the delivery of a reserved word and of any word while stopped. -/
theorem producerWords : Obligations.ProducerWords := by
  unfold Obligations.ProducerWords
  intro w
  have hd := decodeP_eq w
  refine ⟨fun h31 h30 => ?_, fun h31 h30 => ?_, fun h31 => ?_, fun s hr => portWord_stopped w hr⟩
  · rw [h31, h30] at hd
    exact hd
  · rw [h31, h30] at hd
    exact hd
  · rw [h31] at hd
    exact ⟨hd, fun s hr => portWord_reserved hd hr⟩

/-- Settles O23: a running core's full frame refuses the sample; otherwise it is stored at the write pointer's element. -/
theorem sampleIsStored : Obligations.SampleIsStored := by
  unfold Obligations.SampleIsStored
  intro s code hr
  refine ⟨fun hfull => ?_, fun hroom => ⟨storeSample code s, ?_, rfl, storeSample_half? code s, storeSample_byte? code s⟩⟩
  · simp [exec, execSmp, hr, hfull]
  · simp [exec, execSmp, hr, hroom]

end Sys2Proof.Machine
end

section
/-! PROOFS. The issue step and the completion step of a command (R98 to R100), and that no step stops (R97, R101). -/

namespace Sys2Proof.Machine

/-! ### The issue step (R98) -/

/-- While a command executes every word is refused with BUSY. -/
theorem cmdWrite_busy (w : Word) {s : State} (hb : s.busy = true) :
    cmdWrite w s = .next (raise false (opcOf w) .busy s) := by
  unfold cmdWrite
  rw [if_pos hb]

/-- An illegal word is refused with ILLEGAL_CMD by a core that executes no command (R95). -/
theorem cmdWrite_illegal {w : Word} {s : State} (hb : s.busy = false) (hd : decodeC w = .error .illegalCommand) :
    cmdWrite w s = .next (raise false (opcOf w) .illegalCmd s) := by
  unfold cmdWrite
  rw [if_neg (by simp [hb]), hd]

/-- A command whose check fails is refused with that error and the word's OPC. -/
theorem cmdWrite_refuses {w : Word} {i : Instr} {s : State} (hb : s.busy = false) (hd : decodeC w = .ok i) {e : ErrCode}
    (hc : checkOf i s = some e) : cmdWrite w s = .next (raise false (opcOf w) e s) := by
  rw [cmdWrite_decoded hb hd, exec_refuses i (decodeC_format hd) s hb e hc, encode_of_decodeC hd]

/-- A command whose checks pass is accepted with the word itself. -/
theorem cmdWrite_accepts {w : Word} {i : Instr} {s : State} (hb : s.busy = false) (hd : decodeC w = .ok i)
    (hc : checkOf i s = none) : cmdWrite w s = .next (accept w (prepOf i s)) := by
  rw [cmdWrite_decoded hb hd, exec_accepts i (decodeC_format hd) s hb hc, encode_of_decodeC hd]

/-- The preparation of CONFIGURE takes the snapshot of the staging registers; no other command has one (R107). -/
theorem prepOf_eq (i : Instr) (s : State) : prepOf i s = { s with
    pend := ⟨s.pend.word, if i = .configure then ⟨s.frameN, s.config, s.midCode⟩ else s.pend.snapshot⟩ } := by
  cases i <;> rfl

/-- Settles O3: the illegal words by their OPC and their reserved bits, and the issue step of such a word. -/
theorem illegalCommandWords : Obligations.IllegalCommandWords := by
  unfold Obligations.IllegalCommandWords
  exact fun w =>
    ⟨(decodeC_illegal_iff w).trans (or_congr_right (reservedBit_iff w _)), fun hd s hb => cmdWrite_illegal hb hd⟩

/-- Settles O8: the issue step, case by case in the order of R98. -/
theorem issueStep : Obligations.IssueStep := by
  unfold Obligations.IssueStep
  intro w s
  refine ⟨fun a ha => hostWrite_cmd w s ha, cmdWrite_busy w,
    fun hb hd => cmdWrite_illegal hb ((decodeC_eq_error_iff w).mpr hd), fun i hb hd =>
    ⟨fun e hc => cmdWrite_refuses hb hd hc, fun hc => ⟨_, cmdWrite_accepts hb hd hc, ?_⟩⟩⟩
  rw [prepOf_eq]
  exact ⟨rfl, rfl, rfl⟩

theorem ErrCode.code_ne_zero (e : ErrCode) : e.code ≠ 0#8 := by cases e <;> decide

/-- A recorded error leaves ERR with a cause: no error has the code 0 (R173, R174). -/
theorem record_cause_ne_zero (r : ErrReg) (port : Bool) (opc : BitVec 8) (e : ErrCode) :
    (r.record port opc e).cause ≠ 0#8 := by
  unfold ErrReg.record
  split
  · exact e.code_ne_zero
  · assumption

/-- Settles O10: a write to CMD raises an error or makes an idle core busy. -/
theorem rejectedCommandIsPrecise : Obligations.RejectedCommandIsPrecise := by
  unfold Obligations.RejectedCommandIsPrecise
  intro w s t he hsame
  rcases cmdWrite_cases he with ⟨opc, e, rfl⟩ | ⟨i, -, hb, -, rfl⟩
  · exact ⟨rfl, rfl, record_cause_ne_zero _ _ _ _⟩
  · exact absurd (hsame.trans hb) (by simp)

/-! ### The completion step (R99) -/

/-- Settles O9: the ENGINE runs the pending command, which completes. -/
theorem completionStep : Obligations.CompletionStep := by
  unfold Obligations.CompletionStep
  refine fun s => ⟨fun i hb hd => ?_, fun hb => ?_⟩
  · exact (engineStep_decoded hb hd).trans (exec_completes i (decodeC_format hd) s hb)
  · unfold engineStep
    rw [if_neg (by simp [hb])]

/-- Settles O15: the effect of START is `clearHandoff true`. -/
theorem startCompletes : Obligations.StartCompletes := by
  unfold Obligations.StartCompletes
  exact fun s hb => exec_completes .start rfl s hb

/-! ### No step stops -/

/-- Settles O44: only the ENGINE's step of a busy core can fault, and there the pending command decodes. -/
theorem everyStepIsSafe : Obligations.EveryStepIsSafe := by
  unfold Obligations.EveryStepIsSafe SafeStep
  intro s hc
  obtain ⟨a, u, hn⟩ : ∃ a u, nextAgent s = (a, u) := ⟨_, _, rfl⟩
  have hcore : u.core = s.core := by simpa [hn] using nextAgent_core s
  rw [step_of_nextAgent hn]
  cases a with
  | host k => exact hostStep_next k u
  | producer => exact producerStep_next u
  | engine =>
    cases hb : u.busy with
    | false => exact ⟨u, by simp [agentStep, engineStep, hb]⟩
    | true =>
      obtain ⟨i, hd, -⟩ := (hc.of_core hcore).pending hb
      exact ⟨_, (engineStep_decoded hb hd).trans (exec_completes i (decodeC_format hd) u hb)⟩
  | assertReset | releaseReset => exact ⟨_, rfl⟩

end Sys2Proof.Machine
end

section
/-! PROOFS. What a read of several elements can give (R61), and MAG (R161). -/

namespace Sys2Proof.Machine

/-! ### Lists of elements that a read can give -/

/-- Every component of a list read is a value a read of it can give. -/
theorem Memory.mayReadWord_readWords (m : Memory) (o c : Nat) {n i : Nat} (hi : i < n) :
    m.mayReadWord (o + 4 * i) ((m.readWords o n c).1[i]'(by rw [Memory.readWords_length]; exact hi)) :=
  fun w hw => (Memory.readWords_getElem m o n c i w hi hw).symm

/-- Element `i` of complex elements read has the components read at its place. -/
theorem Memory.mayReadComplex_readComplexes (m : Memory) (w : Window) (hw : w.stride = 8) (c : Nat) {n i : Nat}
    (hi : i < n) : ∃ x, (m.readComplexes w n c).1[i]? = some x ∧ m.mayReadComplex w i x := by
  have hlen := Memory.readWords_length m w.base (2 * n) c
  refine ⟨_, complexesOf_getElem? _ i _ _ (List.getElem?_eq_getElem (by omega)) (List.getElem?_eq_getElem (by omega)),
    ?_, ?_⟩
  · have h := Memory.mayReadWord_readWords m w.base c (n := 2 * n) (i := 2 * i) (by omega)
    rwa [show w.base + 4 * (2 * i) = w.elem i by rw [Window.elem, hw]; omega] at h
  · have h := Memory.mayReadWord_readWords m w.base c (n := 2 * n) (i := 2 * i + 1) (by omega)
    rwa [show w.base + 4 * (2 * i + 1) = w.elem i + 4 by rw [Window.elem, hw]; omega] at h

theorem workWindow_stride (bank : Bank) : (workWindow bank).stride = 8 := by cases bank <;> rfl

/-! ### MAG (R161) -/

/-- Magnitude `k` of MAG is that of a value the source element can give. -/
theorem magEffect_word? (src : Bank) (s : State) {k : Nat} (hk : k < s.activeN / 2) :
    ∃ x, s.mem.mayReadComplex (workWindow src) k x ∧
      (magEffect src s).mem.word? (Window.mag.elem k) = some (magnitude s.num x) := by
  obtain ⟨x, hx, hmay⟩ :=
    Memory.mayReadComplex_readComplexes s.mem (workWindow src) (workWindow_stride src) s.draws hk
  refine ⟨x, hmay, ?_⟩
  have hlen : k < ((magInput src s).1.map (magnitude s.num)).length := by simpa using hk
  have hval : ((magInput src s).1.map (magnitude s.num))[k]? = some (magnitude s.num x) := by
    rw [List.getElem?_map, magInput, hx]
    rfl
  calc (magEffect src s).mem.word? (Window.mag.elem k)
    _ = some _ := Memory.word?_writeWords s.mem Window.mag.base _ k hlen
    _ = some (magnitude s.num x) := by rw [← List.getElem?_eq_getElem hlen, hval]

/-- Settles O20: MAG completes with its effect, whose magnitudes and frame are known. -/
theorem magCompletes : Obligations.MagCompletes := by
  unfold Obligations.MagCompletes
  intro s src hb _ _
  exact ⟨_, exec_completes (.mag src) rfl s hb, rfl, fun k hk => magEffect_word? src s hk, magEffect_byte? src s⟩

end Sys2Proof.Machine
end

section
/-! PROOFS. The commands NOP, CONFIGURE, START, STOP and RELEASE at their issue and completion, and the issue of every other
command (40_control.md R105 to R114, and the checks of R120, R136, R152, R161, R163, R168). -/

namespace Sys2Proof.Machine

/-! ### The issue of a command, check by check (R98) -/

section
variable (i : Instr) (prep : State → State) (s : State)

@[simp] theorem issue_some (e : ErrCode) : issue i (some e) prep s = raise false (opcOf (encode i)) e s := rfl

@[simp] theorem issue_none : issue i none prep s = accept (encode i) (prep s) := rfl

/-- A check that distinguishes two cases lets the issue distinguish them. -/
theorem issue_ite (c : Prop) [Decidable c] (x y : Option ErrCode) :
    issue i (if c then x else y) prep s = if c then issue i x prep s else issue i y prep s :=
  apply_ite (fun e => issue i e prep s) c x y

end

/-- A command given to a core that executes none is issued on its own checks. -/
theorem exec_issues (i : Instr) (h : formatOf i = .command) {s : State} (hb : s.busy = false) :
    exec i s = .next (issue i (checkOf i s) (prepOf i) s) := by
  rw [exec_command i h, if_neg (by simp [hb])]

/-- A command with one check is refused with its error or accepted. -/
theorem exec_issues_one_check (i : Instr) (h : formatOf i = .command) {s : State} (hb : s.busy = false) {c : Prop}
    [Decidable c] {e : ErrCode} (hc : checkOf i s = if c then some e else none) :
    exec i s = .next (if c then raise false (opcOf (encode i)) e s else accept (encode i) (prepOf i s)) := by
  rw [exec_issues i h hb, hc, issue_ite, issue_some, issue_none]

/-! ### The checks in the words of their rules -/

/-- START: RUN_STATE first, NOT_CONFIGURED next (R112). -/
theorem checkStart_eq (s : State) : checkStart s =
    if s.run = true then some .runState else if s.cfgValid = false then some .notConfigured else none := by
  simp [checkStart]

/-- CLAIM: no slot may be held (R152). -/
theorem checkClaim_eq (s : State) :
    checkClaim s = if s.held.f0 = true ∨ s.held.f1 = true then some .claimHeld else none := by
  simp [checkClaim, SlotFlags.any]

/-- CONVERT and PROCESS: a slot must be held (R136, R168). -/
theorem checkHeld_eq (s : State) :
    checkHeld s = if s.held.f0 = false ∧ s.held.f1 = false then some .noClaim else none := by
  rw [checkHeld, ← ite_not]
  simp [SlotFlags.any]

/-- FFT, MAG and NORM: there must be a configuration (R120, R161, R163). -/
theorem checkConfigured_eq (s : State) :
    checkConfigured s = if s.cfgValid = false then some .notConfigured else none := by
  rw [checkConfigured, ← ite_not]
  simp

/-- The operand bits of FFT lie above its OPC (R89). -/
theorem opcOf_encode_fft (src dst : Bank) : opcOf (encode (.fft src dst)) = 0x11#8 := by
  cases src <;> cases dst <;> rfl

/-- The operand bit of MAG lies above its OPC (R89). -/
theorem opcOf_encode_mag (src : Bank) : opcOf (encode (.mag src)) = 0x12#8 := by cases src <;> rfl

/-! ### The issue of each command -/

/-- Settles O12: the issue follows the checks of R107, and no register write changes `pend`. -/
theorem configureChecks : Obligations.ConfigureChecks := by
  unfold Obligations.ConfigureChecks
  intro s hb
  refine ⟨?_, fun r v u => writeReg_pend u r v⟩
  rw [exec_issues .configure rfl hb]
  simp only [checkOf, checkConfigure, checkSnapshot, issue_ite, issue_some, issue_none]
  rfl

/-- Settles O13: each command by its check: none, two in order for START, or one. -/
theorem otherIssueChecks : Obligations.OtherIssueChecks := by
  unfold Obligations.OtherIssueChecks
  intro s hb
  refine ⟨exec_accepts .nop rfl s hb rfl, ?start, exec_accepts .stop rfl s hb rfl,
    exec_issues_one_check .claim rfl hb (checkClaim_eq s), exec_accepts .release rfl s hb rfl,
    exec_issues_one_check .convert rfl hb (checkHeld_eq s), fun src dst => ?fft, fun src => ?mag,
    exec_issues_one_check .norm rfl hb (checkConfigured_eq s), exec_issues_one_check .process rfl hb (checkHeld_eq s)⟩
  case start =>
    rw [exec_issues .start rfl hb, checkOf, checkStart_eq, issue_ite, issue_ite]
    rfl
  case fft => exact opcOf_encode_fft src dst ▸ exec_issues_one_check (.fft src dst) rfl hb (checkConfigured_eq s)
  case mag => exact opcOf_encode_mag src ▸ exec_issues_one_check (.mag src) rfl hb (checkConfigured_eq s)

/-! ### Completions -/

/-- Settles O14: each command completes with its effect. -/
theorem nopStopReleaseComplete : Obligations.NopStopReleaseComplete := by
  unfold Obligations.NopStopReleaseComplete
  exact fun s hb => ⟨exec_completes .nop rfl s hb, exec_completes .stop rfl s hb, exec_completes .release rfl s hb⟩

/-! ### CONFIGURE rebuilds a table or keeps it (R108) -/

/-- TWID is rebuilt without a configuration and when N changes. -/
theorem regenTwiddle_iff (s : State) : regenTwiddle s = true ↔ s.cfgValid = false ∨ s.pend.snapshot.n ≠ s.actN := by
  simp [regenTwiddle]

/-- WIN is rebuilt also when the window kind changes. -/
theorem regenWindow_iff (s : State) : regenWindow s = true ↔ s.cfgValid = false ∨ s.pend.snapshot.n ≠ s.actN ∨
    s.pend.snapshot.config.winKind ≠ s.actConfig.winKind := by
  simp [regenWindow, regenTwiddle, or_assoc]

/-- Below the region of WIN, CONFIGURE writes the twiddle table or nothing. -/
theorem configureMem_byte?_below_win (s : State) {a : Nat} (ha : a < 0x50000) : (configureMem s).byte? a =
    (if regenTwiddle s then s.mem.writeComplexes .twid (twiddleTable s.num s.build.nmax s.pend.snapshot.n.toNat)
      else s.mem).byte? a := by
  unfold configureMem
  simp only
  split
  · exact Memory.byte?_writeWords_of_outside _ _ _ a (.inl ha)
  · rfl

/-- A rebuilt TWID is the table of the snapshot's N. -/
theorem configureMem_rebuilds_twiddles {s : State} (hm : s.build.nmax ≤ 2 ^ 14) (h : regenTwiddle s = true) :
    (configureMem s).holdsTwiddles s.num s.build.nmax s.pend.snapshot.n.toNat :=
  (Memory.holdsTwiddles_write s.mem s.num s.build.nmax s.pend.snapshot.n.toNat).congr hm fun a _ ha => by
    rw [configureMem_byte?_below_win s ha, if_pos h]

/-- A rebuilt WIN is the table of the snapshot's window kind and N. -/
theorem configureMem_rebuilds_window {s : State} (h : regenWindow s = true) : (configureMem s).holdsWindow s.num
    s.build.nmax s.pend.snapshot.config.winKind.toNat s.pend.snapshot.n.toNat := by
  unfold configureMem
  simp only
  rw [if_pos h]
  exact Memory.holdsWindow_write _ _ _ _ _

/-- When no table is rebuilt the RAM stays. -/
theorem configureMem_eq_self {s : State} (h : regenWindow s = false) : configureMem s = s.mem := by
  have htw := ((regenWindow_eq_false_iff s).mp h).1
  simp [configureMem, h, htw]

/-- Settles O16: CONFIGURE completes with its effect; each table is rebuilt or kept as R108 decides. -/
theorem configureCompletes : Obligations.ConfigureCompletes := by
  unfold Obligations.ConfigureCompletes
  intro s hb hbuild
  have hm := Build.nmax_le hbuild
  refine ⟨_, exec_completes .configure rfl s hb, rfl,
    fun h => configureMem_rebuilds_twiddles hm ((regenTwiddle_iff s).mpr h),
    fun h => configureMem_rebuilds_window ((regenWindow_iff s).mpr h),
    fun h a _ ha => ?twiddles_kept, fun ⟨hv, hn, hk⟩ a _ _ => ?window_kept, fun a ha => configureMem_byte? s a (by omega)⟩
  case twiddles_kept =>
    have htw := (regenTwiddle_eq_false_iff s).mpr h
    exact (configureMem_byte?_below_win s ha).trans (by rw [if_neg (by simp [htw])])
  case window_kept =>
    have hwin := (regenWindow_eq_false_iff s).mpr ⟨(regenTwiddle_eq_false_iff s).mpr ⟨hv, hn⟩, hk⟩
    exact congrArg (Memory.byte? · a) (configureMem_eq_self hwin)

end Sys2Proof.Machine
end

section
/-! PROOFS. Bit reversal and the two forms of the permutation, and butterflies on disjoint pairs (41_fft.md R119 to R123). -/

namespace Sys2Proof.Machine

/-! ### Bit reversal (R119) -/

theorem rev_lt (m i : Nat) : rev m i < 2 ^ m := by
  induction m generalizing i with
  | zero => exact one_pos
  | succ m ih =>
    calc i % 2 * 2 ^ m + rev m (i / 2) < 1 * 2 ^ m + 2 ^ m :=
          Nat.add_lt_add_of_le_of_lt (Nat.mul_le_mul_right _ (Nat.le_of_lt_succ (Nat.mod_lt i two_pos))) (ih _)
      _ = 2 ^ (m + 1) := by ring

/-- Bit b of the reversal is bit m - 1 - b. -/
theorem testBit_rev {m b : Nat} (hb : b < m) (i : Nat) : (rev m i).testBit b = i.testBit (m - 1 - b) := by
  induction m generalizing i with
  | zero => exact absurd hb (Nat.not_lt_zero b)
  | succ m ih =>
    rw [rev, Nat.mul_comm, Nat.testBit_two_pow_mul_add _ (rev_lt m _)]
    split
    case isTrue hlt =>
      rw [ih hlt, Nat.testBit_div_two]
      congr 1
      omega
    case isFalse hge =>
      obtain rfl : b = m := by omega
      simp [Nat.testBit_zero]

theorem rev_rev {m i : Nat} (hi : i < 2 ^ m) : rev m (rev m i) = i := by
  refine Nat.eq_of_testBit_eq fun b => ?_
  by_cases hb : b < m
  · rw [testBit_rev hb, testBit_rev (by omega)]
    congr 1
    omega
  · have high : ∀ x < 2 ^ m, x.testBit b = false := fun x hx =>
      Nat.testBit_lt_two_pow (hx.trans_le (Nat.pow_le_pow_right two_pos (Nat.not_lt.mp hb)))
    rw [high i hi, high _ (rev_lt m _)]

/-- `rev` maps each index to the one that it maps to this. -/
theorem rev_eq_iff {m i k : Nat} (hi : i < 2 ^ m) (hk : k < 2 ^ m) : rev m k = i ↔ k = rev m i :=
  ⟨fun h => by rw [← h, rev_rev hk], fun h => by rw [h, rev_rev hi]⟩

/-! ### Elements after a write -/

theorem elemAt_of_getElem? {xs : List ComplexValue} {i : Nat} {x : ComplexValue} (h : xs[i]? = some x) :
    elemAt xs i = x := by
  rw [elemAt, List.getD_eq_getElem?_getD, h, Option.getD_some]

theorem elemAt_eq_getElem {xs : List ComplexValue} {i : Nat} (h : i < xs.length) : elemAt xs i = xs[i] :=
  elemAt_of_getElem? (List.getElem?_eq_getElem h)

theorem elemAt_set_self {xs : List ComplexValue} {i : Nat} (h : i < xs.length) (x : ComplexValue) :
    elemAt (xs.set i x) i = x :=
  elemAt_of_getElem? (List.getElem?_set_self h)

theorem elemAt_set_ne {i k : Nat} (h : k ≠ i) (xs : List ComplexValue) (x : ComplexValue) :
    elemAt (xs.set i x) k = elemAt xs k := by
  rw [elemAt, List.getD_eq_getElem?_getD, List.getElem?_set_ne h.symm, ← List.getD_eq_getElem?_getD, ← elemAt]

/-- Lists of one length with the same elements are equal. -/
theorem ext_elemAt {xs ys : List ComplexValue} {n : Nat} (hx : xs.length = n) (hy : ys.length = n)
    (h : ∀ k < n, elemAt xs k = elemAt ys k) : xs = ys :=
  List.ext_getElem (hx.trans hy.symm) fun k hkx hky => by
    rw [← elemAt_eq_getElem, ← elemAt_eq_getElem, h k (hx ▸ hkx)]

/-! ### The two forms of the permutation (R121, R122) -/

/-- The elements in bit-reversed order. -/
def bitReversed (m : Nat) (xs : List ComplexValue) : List ComplexValue :=
  (List.range (2 ^ m)).map fun j => elemAt xs (rev m j)

theorem bitReversed_length (m : Nat) (xs : List ComplexValue) : (bitReversed m xs).length = 2 ^ m := by
  rw [bitReversed, List.length_map, List.length_range]

theorem elemAt_bitReversed {m k : Nat} (hk : k < 2 ^ m) (xs : List ComplexValue) :
    elemAt (bitReversed m xs) k = elemAt xs (rev m k) :=
  elemAt_of_getElem? (by rw [bitReversed, List.getElem?_map, List.getElem?_range hk, Option.map_some])

theorem permuteInto_succ (m n : Nat) (xs dst : List ComplexValue) :
    permuteInto m (n + 1) xs dst = (permuteInto m n xs dst).set (rev m n) (elemAt xs n) := by
  rw [permuteInto, List.range_succ, List.foldl_concat, ← permuteInto]

/-- Out of place, the first n copies fill the elements whose reversal is below n. -/
theorem elemAt_permuteInto {m n k : Nat} (hn : n ≤ 2 ^ m) (xs : List ComplexValue) {dst : List ComplexValue}
    (hdst : dst.length = 2 ^ m) (hk : k < 2 ^ m) :
    elemAt (permuteInto m n xs dst) k = if rev m k < n then elemAt xs (rev m k) else elemAt dst k := by
  induction n with
  | zero => rfl
  | succ n ih =>
    rw [permuteInto_succ]
    by_cases hkn : k = rev m n
    · rw [hkn, rev_rev hn, if_pos (Nat.lt_succ_self n),
        elemAt_set_self (by rw [permuteInto_length, hdst]; exact rev_lt m n)]
    · have hne : rev m k ≠ n := fun h => hkn ((rev_eq_iff hn hk).mp h)
      rw [elemAt_set_ne hkn, ih (Nat.le_of_succ_le hn)]
      exact if_congr (by omega) rfl rfl

theorem permuteInto_eq_bitReversed {m : Nat} (xs : List ComplexValue) {dst : List ComplexValue}
    (hdst : dst.length = 2 ^ m) : permuteInto m (2 ^ m) xs dst = bitReversed m xs :=
  ext_elemAt ((permuteInto_length _ _ _ _).trans hdst) (bitReversed_length m xs) fun k hk => by
    rw [elemAt_permuteInto le_rfl xs hdst hk, if_pos (rev_lt m k), elemAt_bitReversed hk]

/-- The exchange of two elements, the step of the in-place form. -/
def exchange (i j : Nat) (ys : List ComplexValue) : List ComplexValue :=
  (ys.set i (elemAt ys j)).set j (elemAt ys i)

theorem elemAt_exchange {i j : Nat} {ys : List ComplexValue} (hi : i < ys.length) (hj : j < ys.length) (k : Nat) :
    elemAt (exchange i j ys) k = if k = j then elemAt ys i else if k = i then elemAt ys j else elemAt ys k := by
  unfold exchange
  split
  case isTrue h => rw [h, elemAt_set_self (by rwa [List.length_set])]
  case isFalse h =>
    rw [elemAt_set_ne h]
    split
    case isTrue h' => rw [h', elemAt_set_self hi]
    case isFalse h' => rw [elemAt_set_ne h']

theorem permuteInPlace_succ (m n : Nat) (xs : List ComplexValue) : permuteInPlace m (n + 1) xs =
    if n < rev m n then exchange n (rev m n) (permuteInPlace m n xs) else permuteInPlace m n xs := by
  rw [permuteInPlace, List.range_succ, List.foldl_concat, ← permuteInPlace]
  rfl

/-- In place, the first n steps put the elements right whose index or reversal is below n, and no others. -/
theorem elemAt_permuteInPlace {m n k : Nat} (hn : n ≤ 2 ^ m) {xs : List ComplexValue} (hxs : xs.length = 2 ^ m)
    (hk : k < 2 ^ m) :
    elemAt (permuteInPlace m n xs) k = if k < n ∨ rev m k < n then elemAt xs (rev m k) else elemAt xs k := by
  induction n generalizing k with
  | zero => rfl
  | succ n ih =>
    have ih := fun {k} => ih (k := k) (Nat.le_of_succ_le hn)
    have hrev := rev_eq_iff hn hk
    rw [permuteInPlace_succ]
    split
    case isTrue hlt =>
      have hlen := (permuteInPlace_length m n xs).trans hxs
      rw [elemAt_exchange (hlen ▸ hn) (hlen ▸ rev_lt m n)]
      by_cases h : k = rev m n
      · rw [if_pos h, ih hn, if_neg (by omega), h, rev_rev hn, if_pos (by omega)]
      · by_cases h' : k = n
        · rw [if_neg h, if_pos h', ih (rev_lt m n), rev_rev hn, if_neg (by omega), h', if_pos (by omega)]
        · rw [if_neg h, if_neg h', ih hk]
          exact if_congr (by omega) rfl rfl
    case isFalse hge =>
      rw [ih hk]
      by_cases hfix : rev m k = k
      · rw [hfix, ite_self, ite_self]
      · refine if_congr ?_ rfl rfl
        have hself : k = n → rev m n = rev m k := fun h => h ▸ rfl
        omega

theorem permuteInPlace_eq_bitReversed {m : Nat} {xs : List ComplexValue} (hxs : xs.length = 2 ^ m) :
    permuteInPlace m (2 ^ m) xs = bitReversed m xs :=
  ext_elemAt ((permuteInPlace_length _ _ _).trans hxs) (bitReversed_length m xs) fun k hk => by
    rw [elemAt_permuteInPlace le_rfl hxs hk, if_pos (.inl hk), elemAt_bitReversed hk]

/-- Settles O48: both forms give the elements in bit-reversed order. -/
theorem inPlacePermutationAgrees : Obligations.InPlacePermutationAgrees := by
  unfold Obligations.InPlacePermutationAgrees
  intro m xs dst hxs hdst
  exact ⟨fun i hi => ⟨rev_lt m i, rev_rev hi, fun b hb => testBit_rev hb i⟩,
    (permuteInPlace_eq_bitReversed hxs).trans (permuteInto_eq_bitReversed xs hdst).symm⟩

/-! ### Butterflies (R118, R123) -/

/-- What a butterfly writes depends on its own pair of elements only. -/
theorem butterfly_eq (num : Numerics) (w : ComplexValue) {half i : Nat} {ys : List ComplexValue} {u v : ComplexValue}
    (hu : elemAt ys i = u) (hv : elemAt ys (i + half) = v) : butterfly num w half i ys =
      (ys.set i (num.cadd u (num.cmul w v))).set (i + half) (num.csub u (num.cmul w v)) := by
  subst hu hv
  rfl

/-- A butterfly leaves every element outside its pair alone. -/
theorem elemAt_butterfly_of_ne (num : Numerics) (w : ComplexValue) {half i k : Nat} (ys : List ComplexValue)
    (h : k ≠ i) (h' : k ≠ i + half) : elemAt (butterfly num w half i ys) k = elemAt ys k := by
  rw [butterfly_eq num w rfl rfl, elemAt_set_ne h', elemAt_set_ne h]

/-- Writes to two disjoint pairs of elements commute. -/
theorem set_pair_comm {α : Type} {half i j : Nat} (hij : i ≠ j) (hi : i ≠ j + half) (hj : j ≠ i + half)
    (ys : List α) (a b c d : α) :
    (((ys.set j a).set (j + half) b).set i c).set (i + half) d =
      (((ys.set i c).set (i + half) d).set j a).set (j + half) b := by
  rw [List.set_comm b c hi.symm, List.set_comm b d (by omega), List.set_comm a c hij.symm, List.set_comm a d hj]

/-- Settles O49: neither butterfly writes what the other reads, and their writes commute. -/
theorem butterfliesCommute : Obligations.ButterfliesCommute := by
  unfold Obligations.ButterfliesCommute
  intro num w v half i j ys hij hi hj
  have hhalf : i + half ≠ j + half := by omega
  rw [butterfly_eq num w (elemAt_butterfly_of_ne num v ys hij hi) (elemAt_butterfly_of_ne num v ys hj.symm hhalf),
    butterfly_eq num v (elemAt_butterfly_of_ne num w ys hij.symm hj) (elemAt_butterfly_of_ne num w ys hi.symm hhalf.symm),
    butterfly_eq num v rfl rfl, butterfly_eq num w rfl rfl]
  exact set_pair_comm hij hi hj ys _ _ _ _

end Sys2Proof.Machine
end

section
/-! PROOFS. FFT (41_fft.md R121 to R124). -/

namespace Sys2Proof.Machine

/-- Either form of the transform is the stages and the scaling of the bit-reversed elements (R121, R122). -/
theorem transform_eq (num : Numerics) (inPlace : Bool) (tw : List ComplexValue) {m : Nat} {xs : List ComplexValue}
    (hxs : xs.length = 2 ^ m) :
    transform num inPlace tw (2 ^ m) xs = scale num (2 ^ m) (stages num tw m (2 ^ m) (bitReversed m xs)) := by
  rw [transform, Nat.log2_two_pow]
  cases inPlace with
  | true => exact congrArg (scale num _ <| stages num tw m _ ·) (permuteInPlace_eq_bitReversed hxs)
  | false =>
    exact congrArg (scale num _ <| stages num tw m _ ·) (permuteInto_eq_bitReversed xs List.length_replicate)

/-- What FFT writes, for N = 2^m. -/
theorem fftOutput_eq (src dst : Bank) {s : State} {m : Nat} (hN : s.activeN = 2 ^ m) :
    fftOutput src dst s = scale s.num s.activeN (stages s.num (fftTwiddles src s).1 m s.activeN
      ((List.range s.activeN).map fun j => elemAt (fftInput src s).1 (rev m j))) := by
  have hlen := fftInput_length src s
  rw [fftOutput]
  rw [hN] at hlen ⊢
  exact transform_eq s.num _ _ hlen

/-- Every complex element of a list read is a value a read of it can give. -/
theorem Memory.mayReadComplex_elemAt (m : Memory) {w : Window} (hw : w.stride = 8) (c : Nat) {n i : Nat} (hi : i < n) :
    m.mayReadComplex w i (elemAt (m.readComplexes w n c).1 i) := by
  obtain ⟨x, hx, hmay⟩ := m.mayReadComplex_readComplexes w hw c hi
  rwa [elemAt_of_getElem? hx]

/-- A write of complex elements leaves each at its place. -/
theorem Memory.hasComplex_writeComplexes (m : Memory) {w : Window} (hw : w.stride = 8) {xs : List ComplexValue} {i : Nat}
    (hi : i < xs.length) : (m.writeComplexes w xs).hasComplex w i (elemAt xs i) := by
  rw [elemAt_eq_getElem hi, Memory.hasComplex, Window.elem, hw]
  exact m.word?_writeComplexes w xs i hi

/-- Settles O19: FFT completes with its effect, which writes the transform of the elements and twiddle factors read. -/
theorem fftCompletes : Obligations.FftCompletes := by
  unfold Obligations.FftCompletes
  intro s src dst m hb _ hN _
  refine ⟨_, exec_completes (.fft src dst) rfl s hb, rfl,
    ⟨(fftInput src s).1, (fftTwiddles src s).1, fftInput_length src s, fftTwiddles_length src s,
      fun i hi => s.mem.mayReadComplex_elemAt (workWindow_stride src) s.draws hi,
      fun k hk => s.mem.mayReadComplex_elemAt rfl _ hk, fun i hi => ?written⟩, fftEffect_byte? src dst s⟩
  case written =>
    rw [← fftOutput_eq src dst hN]
    exact s.mem.hasComplex_writeComplexes (workWindow_stride dst) (by rwa [fftOutput_length])

end Sys2Proof.Machine
end

section
/-! PROOFS. The enclosure of the cosine over a whole turn (log entry 11), and that a table entry which its enclosure
settles is the rounding of its formula (41_fft.md R116, R117; 42_window.md R129 to R132). -/

namespace Sys2Proof.NUM

/-! ### What an enclosure means -/

/-- The pair `c` encloses the real number `x`, in units of 2^-128. -/
def Encloses (c : Int × Int) (x : ℝ) : Prop := (c.1 : ℝ) ≤ x * 2 ^ 128 ∧ x * 2 ^ 128 ≤ (c.2 : ℝ)

theorem Encloses.neg {c : Int × Int} {x : ℝ} (h : Encloses c x) : Encloses (-c.2, -c.1) (-x) := by
  obtain ⟨hlo, hhi⟩ := h
  constructor <;> push_cast <;> linarith

/-! ### The cosine over a whole turn (R116, R130) -/

theorem cos_turn_sub {a b : Nat} (hb : 0 < b) (h : a ≤ b) :
    Real.cos (2 * Real.pi * (b - a : Nat) / b) = Real.cos (2 * Real.pi * a / b) := by
  have hb' : (b : ℝ) ≠ 0 := by positivity
  rw [← Real.cos_two_pi_sub, Nat.cast_sub h]
  congr 1
  field_simp
  ring

/-- The second quarter turn from the first: cos(pi - x) = -cos x. -/
theorem cos_half_turn_sub {a b : Nat} (hb : 0 < b) (h : 2 * a ≤ b) :
    -Real.cos (2 * Real.pi * (b - 2 * a : Nat) / (2 * b : Nat)) = Real.cos (2 * Real.pi * a / b) := by
  have hb' : (b : ℝ) ≠ 0 := by positivity
  rw [← Real.cos_pi_sub, Nat.cast_sub h]
  congr 1
  push_cast
  field_simp
  ring

/-- The enclosure up to half a turn. -/
def cosHalf (a b : Nat) : Int × Int :=
  if b < 4 * a then (-(cosQuarter (b - 2 * a) (2 * b)).2, -(cosQuarter (b - 2 * a) (2 * b)).1) else cosQuarter a b

theorem cosTurn_eq (a b : Nat) : cosTurn a b = cosHalf (if b < 2 * a then b - a else a) b := rfl

theorem cosHalf_encloses {a b : Nat} (hb : 0 < b) (h : 2 * a ≤ b) :
    Encloses (cosHalf a b) (Real.cos (2 * Real.pi * a / b)) := by
  unfold cosHalf
  split
  case isTrue hq =>
    rw [← cos_half_turn_sub hb h]
    exact Encloses.neg (Laws.Cosine.cosQuarter_encloses (by omega) (by omega))
  case isFalse hq => exact Laws.Cosine.cosQuarter_encloses hb (by omega)

theorem cosTurn_encloses {a b : Nat} (hb : 0 < b) (h : a ≤ b) :
    Encloses (cosTurn a b) (Real.cos (2 * Real.pi * a / b)) := by
  rw [cosTurn_eq]
  split
  case isTrue hh =>
    rw [← cos_turn_sub hb h]
    exact cosHalf_encloses hb (by omega)
  case isFalse hh => exact cosHalf_encloses hb (by omega)

/-- Settles O59: the quarter turn's enclosure, carried over the whole turn by the symmetries of the cosine. -/
theorem cosineIsEnclosed : Obligations.CosineIsEnclosed := fun _ _ => cosTurn_encloses

/-! ### The formulas of the tables -/

/-- The sine is the cosine of the distance from a quarter turn. -/
theorem minusSinTurn_encloses {k n : Nat} (hk : k < n / 2) :
    Encloses (minusSinTurn k n) (-Real.sin (2 * Real.pi * k / n)) := by
  have hn : (n : ℝ) ≠ 0 := Nat.cast_ne_zero.mpr (by omega)
  have hdist : Real.cos (2 * Real.pi * (if 4 * k < n then n - 4 * k else 4 * k - n : Nat) / (4 * n : Nat)) =
      Real.sin (2 * Real.pi * k / n) := by
    rw [← Real.cos_pi_div_two_sub]
    split
    case isTrue h =>
      rw [Nat.cast_sub h.le]
      congr 1
      push_cast
      field_simp
      ring
    case isFalse h =>
      rw [Nat.cast_sub (not_lt.mp h), ← Real.cos_neg]
      congr 1
      push_cast
      field_simp
      ring
  rw [← hdist]
  exact (cosTurn_encloses (by omega) (by split <;> omega)).neg

/-- Whole turns do not change the cosine. -/
theorem cos_mod_turn (a : Nat) {b : Nat} (hb : 0 < b) :
    Real.cos (2 * Real.pi * (a % b : Nat) / b) = Real.cos (2 * Real.pi * a / b) := by
  have hb' : (b : ℝ) ≠ 0 := by positivity
  rw [← Real.cos_add_nat_mul_two_pi _ (a / b)]
  congr 1
  have hdiv : (a : ℝ) = b * (a / b : Nat) + (a % b : Nat) := by exact_mod_cast (Nat.div_add_mod a b).symm
  rw [hdiv]
  field_simp
  ring

/-- The enclosure of cos(j θ) for the angle θ of a window (R130). -/
theorem cosTurn_mod_encloses (j i : Nat) {b : Nat} (hb : 0 < b) :
    Encloses (cosTurn (j * i % b) b) (Real.cos (j * (2 * Real.pi * i / b))) := by
  have h := cosTurn_encloses hb (Nat.mod_lt (j * i) hb).le
  rw [cos_mod_turn _ hb] at h
  convert h using 2
  push_cast
  ring

/-- The window formula with the coefficients as naturals. -/
theorem windowFormula_eq {kind : Nat} (hkind : kind ≤ 4) (θ : ℝ) : 100000 * Machine.windowFormula kind θ =
    (windowCoeffs kind).1 - (windowCoeffs kind).2.1 * Real.cos θ + (windowCoeffs kind).2.2.1 * Real.cos (2 * θ) -
      (windowCoeffs kind).2.2.2 * Real.cos (3 * θ) := by
  interval_cases kind <;> norm_num [Machine.windowFormula, windowCoeffs] <;> ring

/-- The coefficients on enclosures of the three cosines give an enclosure of the sum (R130). -/
theorem windowFix_encloses {kind n i : Nat} (hkind : kind ≤ 4) (hn : 2 ≤ n) (hi : i < n) :
    Encloses (windowFix kind n i) (100000 * Machine.windowFormula kind (2 * Real.pi * i / (n - 1 : Nat))) := by
  have hb : 0 < n - 1 := by omega
  obtain ⟨lo1, hi1⟩ := cosTurn_encloses hb (Nat.le_sub_one_of_lt hi)
  obtain ⟨lo2, hi2⟩ := cosTurn_mod_encloses 2 i hb
  obtain ⟨lo3, hi3⟩ := cosTurn_mod_encloses 3 i hb
  have scaled {x y : ℝ} (k : Nat) (h : x ≤ y) : k * x ≤ k * y := mul_le_mul_of_nonneg_left h k.cast_nonneg
  rw [windowFormula_eq hkind]
  unfold windowFix Encloses
  obtain ⟨k0, k1, k2, k3⟩ := windowCoeffs kind
  simp only [fixBits]
  push_cast at lo2 hi2 lo3 hi3 ⊢
  constructor
  · linarith [scaled k1 hi1, scaled k2 lo2, scaled k3 hi3]
  · linarith [scaled k1 lo1, scaled k2 hi2, scaled k3 lo3]

/-! ### Settled entries -/

/-- What rounds to `m` at two points rounds to `m` between them. -/
theorem RoundsTo.between {m : Nat} {t u v : ℝ} (ht : RoundsTo m t) (hv : RoundsTo m v) (htu : t ≤ u) (huv : u ≤ v) :
    RoundsTo m u where
  le_inf := ht.le_inf
  below y hy := by
    obtain ⟨hle, heven⟩ := ht.below y hy
    exact ⟨by linarith, fun he => heven (by linarith)⟩
  above y hy hyi := by
    obtain ⟨hle, heven⟩ := hv.above y hy hyi
    exact ⟨by linarith, fun he => heven (by linarith)⟩

/-- The word `w` has the sign of `r`, and its absolute-value bits are those `|r|` rounds to; where `r` is 0 it is +0.0. -/
structure SignedRoundsTo (w : Word) (r : ℝ) : Prop where
  sign_eq : sign w = decide (r < 0)
  magBits_roundsTo : RoundsTo (magBits w) |r|

theorem SignedRoundsTo.isRounding {w : Word} {r : ℝ} (h : SignedRoundsTo w r) : Machine.IsRounding w r := by
  rw [← pack_sign_magBits w]
  refine h.magBits_roundsTo.isRounding (abs_nonneg r) ?_
  rw [h.sign_eq]
  by_cases hr : r < 0
  · simp [hr, abs_of_neg hr]
  · simp [hr, abs_of_nonneg (not_lt.mp hr)]

theorem SignedRoundsTo.eq_zero {w : Word} (h : SignedRoundsTo w 0) : w = 0x00000000#32 := by
  refine ext_magBits (h.sign_eq.trans (by simp [sign])) ?_
  exact (abs_zero (α := ℝ) ▸ h.magBits_roundsTo).eq_zero

/-- A word that both ends of an interval round to is what every number of the interval rounds to. -/
theorem SignedRoundsTo.between {w : Word} {lo r hi : ℝ} (hlo : SignedRoundsTo w lo) (hhi : SignedRoundsTo w hi)
    (h : lo ≤ r) (h' : r ≤ hi) : SignedRoundsTo w r := by
  have hsame : lo < 0 ↔ hi < 0 := by rw [← decide_eq_decide, ← hlo.sign_eq, hhi.sign_eq]
  have hround1 := hlo.magBits_roundsTo
  have hround2 := hhi.magBits_roundsTo
  by_cases hneg : lo < 0
  · have hhi0 := hsame.mp hneg
    have hr := h'.trans_lt hhi0
    rw [abs_of_neg hneg] at hround1
    rw [abs_of_neg hhi0] at hround2
    refine ⟨by simp [hlo.sign_eq, hneg, hr], ?_⟩
    rw [abs_of_neg hr]
    exact hround2.between hround1 (neg_le_neg h') (neg_le_neg h)
  · have hlo0 := not_lt.mp hneg
    have hr := hlo0.trans h
    rw [abs_of_nonneg hlo0] at hround1
    rw [abs_of_nonneg (hr.trans h')] at hround2
    refine ⟨by simp [hlo.sign_eq, hneg, not_lt.mpr hr], ?_⟩
    rw [abs_of_nonneg hr]
    exact hround1.between hround2 h h'

/-- `roundFix` rounds `v / (q * 2^128)`, in units of 2^-149. -/
theorem roundFix_roundsTo (v : Int) {q : Nat} (hq : 0 < q) :
    SignedRoundsTo (roundFix v q) ((v : ℝ) / (q * 2 ^ 128) * 2 ^ 149) := by
  have hD : (0 : ℝ) < q * 2 ^ 128 := by positivity
  constructor
  case sign_eq =>
    have hneg : (v : ℝ) / (q * 2 ^ 128) * 2 ^ 149 < 0 ↔ v < 0 := by
      rw [div_mul_eq_mul_div, div_lt_iff₀ hD, zero_mul, ← lt_div_iff₀ (by positivity), zero_div,
        Int.cast_lt_zero]
    rw [roundFix, sign_pack _ _ (roundMag_lt _ _), decide_eq_decide, hneg]
  case magBits_roundsTo =>
    have h := roundMag_roundsTo (v.natAbs * 2 ^ 149) (q * 2 ^ fixBits) (by positivity)
    rw [roundFix, magBits_pack _ _ (roundMag_lt _ _), abs_mul, abs_div, abs_of_pos hD,
      abs_of_pos (show (0 : ℝ) < 2 ^ 149 by positivity)]
    convert h using 1
    rw [fixBits, Nat.cast_mul, Nat.cast_natAbs, Int.cast_abs]
    push_cast
    ring

theorem settle_eq_some_iff {c : Int × Int} {q : Nat} {w : Word} :
    settle c q = some w ↔ roundFix c.1 q = w ∧ roundFix c.2 q = w := by
  unfold settle
  split
  case isTrue h => rw [Option.some_inj, ← h, and_self]
  case isFalse h => exact ⟨nofun, fun ⟨h1, h2⟩ => absurd (h1.trans h2.symm) h⟩

/-- A settled entry is the rounding of the number its enclosure contains, and +0.0 where that is 0. -/
theorem settled_isRounding {c : Int × Int} {q : Nat} {x : ℝ} (hq : 0 < q) (henc : Encloses c (q * x))
    (hset : (settle c q).isSome = true) (d : Word) :
    Machine.IsRounding ((settle c q).getD d) (x * 2 ^ 149) ∧ (x = 0 → (settle c q).getD d = 0x00000000#32) := by
  obtain ⟨w, hw⟩ := Option.isSome_iff_exists.mp hset
  obtain ⟨h1, h2⟩ := settle_eq_some_iff.mp hw
  have hD : (0 : ℝ) < q * 2 ^ 128 := by positivity
  have hlo : (c.1 : ℝ) / (q * 2 ^ 128) ≤ x := by rw [div_le_iff₀ hD]; linarith [henc.1]
  have hhi : x ≤ (c.2 : ℝ) / (q * 2 ^ 128) := by rw [le_div_iff₀ hD]; linarith [henc.2]
  have hround : SignedRoundsTo w (x * 2 ^ 149) := (h1 ▸ roundFix_roundsTo c.1 hq).between (h2 ▸ roundFix_roundsTo c.2 hq)
    (mul_le_mul_of_nonneg_right hlo (by positivity)) (mul_le_mul_of_nonneg_right hhi (by positivity))
  rw [hw, Option.getD_some]
  refine ⟨hround.isRounding, fun hx => ?_⟩
  rw [hx, zero_mul] at hround
  exact hround.eq_zero

/-! ### Exact entries (R117, R132) -/

theorem settle_exact (v : Int) (q : Nat) : settle (v, v) q = some (roundFix v q) := settle_eq_some_iff.mpr ⟨rfl, rfl⟩

@[simp] theorem cosTurn_zero (b : Nat) : cosTurn 0 b = (2 ^ fixBits, 2 ^ fixBits) := by simp [cosTurn, cosQuarter]

theorem cosTurn_quarter {a b : Nat} (hb : 0 < b) (h : 4 * a = b) : cosTurn a b = (0, 0) := by
  rw [cosTurn_eq, if_neg (by omega), cosHalf, if_neg (by omega), cosQuarter, if_neg (by omega), if_pos h]

theorem roundFix_one : roundFix (2 ^ fixBits) 1 = 0x3F800000#32 := by decide

theorem roundFix_minus_one : roundFix (-2 ^ fixBits) 1 = 0xBF800000#32 := by decide

theorem roundFix_zero : roundFix 0 1 = 0x00000000#32 := by decide

/-- R117: TWID[0] is 1. -/
theorem twiddle_zero {n : Nat} (hn : 0 < n) : twiddle n 0 = ⟨0x3F800000#32, 0x00000000#32⟩ := by
  have hsin : minusSinTurn 0 n = (0, 0) := by
    rw [minusSinTurn, if_pos hn, cosTurn_quarter (by omega) (by omega)]
    rfl
  rw [twiddle, cosTurn_zero, hsin, settle_exact, settle_exact, roundFix_one, roundFix_zero]
  rfl

/-- R117: TWID[N/4] is -i. -/
theorem twiddle_quarter {n : Nat} (hn : 0 < n) (h : n % 4 = 0) :
    twiddle n (n / 4) = ⟨0x00000000#32, 0xBF800000#32⟩ := by
  have hsin : minusSinTurn (n / 4) n = (-2 ^ fixBits, -2 ^ fixBits) := by
    rw [minusSinTurn, if_neg (by omega), show 4 * (n / 4) - n = 0 by omega, cosTurn_zero]
  rw [twiddle, cosTurn_quarter hn (by omega), hsin, settle_exact, settle_exact, roundFix_zero, roundFix_minus_one]
  rfl

theorem window_exact {kind n i : Nat} {v : Int} (h : windowFix kind n i = (v, v)) : window kind n i = roundFix v 100000 := by
  rw [window, h, settle_exact, Option.getD_some]

/-- R132: the rectangular window is 1 everywhere. -/
theorem window_rectangular (n i : Nat) : window 0 n i = 0x3F800000#32 := by
  have h : windowFix 0 n i = (100000 * 2 ^ fixBits, 100000 * 2 ^ fixBits) := by simp [windowFix, windowCoeffs]
  rw [window_exact h]
  decide

/-- The first entry: the three cosines are 1. -/
theorem window_first (kind n : Nat) : window kind n 0 = roundFix (((windowCoeffs kind).1 - (windowCoeffs kind).2.1 +
    (windowCoeffs kind).2.2.1 - (windowCoeffs kind).2.2.2) * 2 ^ fixBits) 100000 := by
  refine window_exact ?_
  simp only [windowFix, Nat.mul_zero, Nat.zero_mod, cosTurn_zero, sub_mul, add_mul]

/-- R132: the first entries of the other windows. -/
theorem window_first_values (n : Nat) : window 1 n 0 = 0x00000000#32 ∧ window 2 n 0 = 0x3D9D1F60#32 ∧
    window 3 n 0 = 0x00000000#32 ∧ window 4 n 0 = 0x387BA882#32 := by
  simp only [window_first]
  decide

/-! ### Symmetry of the windows (R132) -/

theorem cosTurn_sub {a b : Nat} (h : a ≤ b) : cosTurn (b - a) b = cosTurn a b := by
  rw [cosTurn_eq, cosTurn_eq]
  congr 1
  split <;> split <;> omega

/-- The mirrored entry has the mirrored multiple of the angle. -/
theorem cosTurn_mod_sub (j : Nat) {i b : Nat} (hb : 0 < b) (hi : i ≤ b) :
    cosTurn (j * (b - i) % b) b = cosTurn (j * i % b) b := by
  have hsum := Nat.add_mod_eq_ite (m := j * (b - i)) (n := j * i) (k := b)
  rw [← Nat.mul_add, Nat.sub_add_cancel hi, Nat.mul_mod_left] at hsum
  split at hsum
  case isTrue hle =>
    rw [show j * (b - i) % b = b - j * i % b by omega, cosTurn_sub (Nat.mod_lt _ hb).le]
  case isFalse hlt =>
    rw [show j * (b - i) % b = j * i % b by omega]

theorem windowFix_symm (kind : Nat) {n i : Nat} (hn : 2 ≤ n) (hi : i < n) :
    windowFix kind n (n - 1 - i) = windowFix kind n i := by
  have hb : 0 < n - 1 := by omega
  have hi' := Nat.le_sub_one_of_lt hi
  simp only [windowFix, cosTurn_sub hi', cosTurn_mod_sub _ hb hi']

/-- R132: a settled entry and its mirror image are equal. -/
theorem window_symm {kind n i : Nat} (hn : 2 ≤ n) (hi : i < n)
    (hset : (settle (windowFix kind n i) 100000).isSome = true) :
    window kind n i = window kind n (n - 1 - i) := by
  obtain ⟨w, hw⟩ := Option.isSome_iff_exists.mp hset
  rw [window, window, windowFix_symm kind hn hi, hw, Option.getD_some, Option.getD_some]

/-! ### The statement -/

theorem twiddle_re (n k : Nat) :
    (twiddle n k).re = (settle (cosTurn k n) 1).getD (Config.unsettledEntry 5 n k) := by rw [twiddle]

theorem twiddle_im (n k : Nat) :
    (twiddle n k).im = (settle (minusSinTurn k n) 1).getD (Config.unsettledEntry 6 n k) := by rw [twiddle]

/-- A settled twiddle factor's components are the roundings of cosine and sine (R116). -/
theorem twiddle_isRounding {n k : Nat} (hk : k < n / 2) :
    ((settle (cosTurn k n) 1).isSome = true →
      Machine.IsRounding (twiddle n k).re (Real.cos (2 * Real.pi * k / n) * 2 ^ 149) ∧
      (Real.cos (2 * Real.pi * k / n) = 0 → (twiddle n k).re = 0x00000000#32)) ∧
    ((settle (minusSinTurn k n) 1).isSome = true →
      Machine.IsRounding (twiddle n k).im (-Real.sin (2 * Real.pi * k / n) * 2 ^ 149) ∧
      (Real.sin (2 * Real.pi * k / n) = 0 → (twiddle n k).im = 0x00000000#32)) := by
  have hcos := cosTurn_encloses (a := k) (b := n) (by omega) (by omega)
  have hsin := minusSinTurn_encloses hk
  rw [twiddle_re, twiddle_im]
  rw [← one_mul (Real.cos _), ← Nat.cast_one] at hcos
  rw [← one_mul (-Real.sin _), ← Nat.cast_one] at hsin
  refine ⟨fun h => settled_isRounding one_pos hcos h _, fun h => ?_⟩
  obtain ⟨hround, hzero⟩ := settled_isRounding one_pos hsin h (Config.unsettledEntry 6 n k)
  exact ⟨hround, fun h0 => hzero (neg_eq_zero.mpr h0)⟩

/-- Settles O58: a settled entry is the rounding of what its enclosure contains; the exact entries have exact enclosures. -/
theorem tableEntries : Obligations.TableEntries := by
  unfold Obligations.TableEntries
  intro n hn
  refine ⟨fun k hk => twiddle_isRounding hk, fun kind i hkind hi hset => ?_, twiddle_zero (by omega),
    twiddle_quarter (by omega), fun i _ => window_rectangular n i, fun kind i _ => window_symm hn, window_first_values n⟩
  exact settled_isRounding (by decide) (by exact_mod_cast windowFix_encloses hkind hn hi) hset _

end Sys2Proof.NUM
end

section
/-! PROOFS. Sample conversion at its two ends (42_window.md R134, R135). -/

namespace Sys2Proof.NUM

theorem natAbs_signedUnits (x : Word) : (signedUnits x).natAbs = units x := by
  unfold signedUnits
  split <;> simp

/-! ### The converted integer's sign and absolute value (R14) -/

theorem sign_f32 (i : Int) : sign (f32 i) = decide (i < 0) := sign_pack _ _ (roundMag_lt _ _)

theorem units_f32 {i : Int} (hi : i.natAbs < 2 ^ 24) : units (f32 i) = i.natAbs * 2 ^ 149 := by
  rw [← natAbs_signedUnits, (f32_exact hi).2, Int.natAbs_mul]
  rfl

theorem f32_zero : f32 0 = 0x00000000#32 := by decide

theorem isZero_f32 {i : Int} (hi : i.natAbs < 2 ^ 24) (h0 : i ≠ 0) : isZero (f32 i) = false := by
  have hunits : units (f32 i) ≠ 0 := by
    rw [units_f32 hi]
    exact Nat.mul_ne_zero (Int.natAbs_ne_zero.mpr h0) (by positivity)
  exact decide_eq_false fun h => hunits ((units_eq_zero_iff _).mpr h)

/-! ### Exact quotients -/

/-- Values of one absolute value have the quotient 1.0 or -1.0. -/
theorem fdiv_of_units_eq {x y : Word} (hx : isFinite x = true) (hy : isFinite y = true) (hz : isZero y = false)
    (hunits : units x = units y) : fdiv x y = pack (sign x != sign y) 0x3F800000 := by
  have hone : units (BitVec.ofNat 32 0x3F800000) = 2 ^ 149 := by decide
  rw [fdiv_finite hx hy hz, hunits, Nat.mul_comm, ← hone, roundMag_units _ _ (units_pos hz) (by decide)]

/-- +0.0 divided by a finite non-zero value is a zero of the divisor's sign. -/
theorem fdiv_zero {y : Word} (hy : isFinite y = true) (hz : isZero y = false) :
    fdiv 0x00000000#32 y = pack (sign y) 0 := by
  have hround := roundMag_units 0 (units y) (units_pos hz) (by decide)
  rw [show units (BitVec.ofNat 32 0) = 0 by decide, Nat.zero_mul] at hround
  rw [fdiv_finite (by decide) hy hz, show units 0x00000000#32 = 0 by decide, Nat.zero_mul, hround,
    show sign 0x00000000#32 = false by decide, Bool.false_bne]

/-- Settles O54: code 0 is the quotient of -MID and MID, and the neutral code that of 0 and MID. -/
theorem conversionOfTheEnds : Obligations.ConversionOfTheEnds := by
  unfold Obligations.ConversionOfTheEnds
  intro mid hmid
  have hpos : 0 < mid.toNat := Nat.pos_of_ne_zero fun h => hmid (BitVec.eq_of_toNat_eq h)
  have hlt : mid.toNat < 2 ^ 16 := mid.isLt
  have hbits : (mid.toNat : Int).natAbs < 2 ^ 24 := by omega
  have hbits' : (-(mid.toNat : Int)).natAbs < 2 ^ 24 := by omega
  have hfinite := (f32_exact hbits).1
  have hnonzero := isZero_f32 hbits (by omega)
  have hsign : sign (f32 mid.toNat) = false := by rw [sign_f32]; exact decide_eq_false (by omega)
  constructor
  · calc Machine.conv binary32 mid.toNat 0#16
      _ = fdiv (f32 (-(mid.toNat : Int))) (f32 mid.toNat) := by
        rw [← Int.zero_sub]
        rfl
      _ = pack (sign (f32 (-(mid.toNat : Int))) != sign (f32 mid.toNat)) 0x3F800000 :=
        fdiv_of_units_eq (f32_exact hbits').1 hfinite hnonzero (by rw [units_f32 hbits', units_f32 hbits, Int.natAbs_neg])
      _ = 0xBF800000#32 := by
        rw [hsign, sign_f32, decide_eq_true (by omega)]
        rfl
  · calc Machine.conv binary32 mid.toNat mid
      _ = fdiv 0x00000000#32 (f32 mid.toNat) := by
        rw [← f32_zero, ← Int.sub_self mid.toNat]
        rfl
      _ = 0x00000000#32 := by
        rw [fdiv_zero hfinite hnonzero, hsign]
        rfl

end Sys2Proof.NUM
end

section
/-! PROOFS. CONVERT (42_window.md R137). -/

namespace Sys2Proof.Machine

/-- Every 16-bit element of a list read is a value a read of it can give. -/
theorem Memory.mayReadHalf_readHalves (m : Memory) (o c : Nat) {n i : Nat} (hi : i < n) :
    m.mayReadHalf (o + 4 * i) ((m.readHalves o n c).1[i]'(by rw [Memory.readHalves_length]; exact hi)) :=
  fun h hh => (Memory.readHalves_getElem m o n c i h hi hh).symm

theorem rawWindow_stride (sl : Slot) : (rawWindow sl).stride = 4 := by cases sl <;> rfl

/-- Element `i` that CONVERT writes is a code of the claimed frame, converted, times a window coefficient. -/
theorem elemAt_windowedSamples (s : State) {i : Nat} (hi : i < s.activeN) :
    ∃ (c : Half) (w : Word), s.mem.mayReadHalf ((rawWindow s.claimSlot).elem i) c ∧
      s.mem.mayReadWord (Window.win.elem i) w ∧ elemAt (windowedSamples s) i = windowed s.num s.mid c w := by
  have hsample : i < (windowedSamples s).length := by rwa [windowedSamples_length]
  have hcode := s.mem.mayReadHalf_readHalves (rawWindow s.claimSlot).base s.draws hi
  rw [show (rawWindow s.claimSlot).base + 4 * i = (rawWindow s.claimSlot).elem i by
    rw [Window.elem, rawWindow_stride]] at hcode
  refine ⟨_, _, hcode, s.mem.mayReadWord_readWords Window.win.base (frameCodes s).2 hi, ?_⟩
  rw [elemAt_eq_getElem hsample]
  exact List.getElem_zipWith

/-- Settles O18: CONVERT completes with its effect, which ends the hold and writes the windowed samples. -/
theorem convertCompletes : Obligations.ConvertCompletes := by
  unfold Obligations.ConvertCompletes
  intro s hb _ _
  refine ⟨_, exec_completes .convert rfl s hb, rfl, fun i hi => ?written, convertEffect_byte? s⟩
  case written =>
    obtain ⟨c, w, hcode, hcoefficient, hsample⟩ := elemAt_windowedSamples s hi
    have hhas := s.mem.hasComplex_writeComplexes (w := .workA) rfl (xs := windowedSamples s) (i := i)
      (by rwa [windowedSamples_length])
    rw [hsample] at hhas
    exact ⟨c, w, hcode, hcoefficient, hhas⟩

end Sys2Proof.Machine
end

section
/-! PROOFS. Frames in the buffers (43_handoff.md): the elements of the frame being filled and of ready and held frames stay
written at every step (R157), and no step but a reset changes a held frame (R158). -/

namespace Sys2Proof.Machine

/-! ### Elements of a frame buffer -/

/-- Memories that agree on the bytes of a frame buffer agree on its elements. -/
theorem Memory.half?_raw_congr {b : Build} (hb : b.wellFormed = true) {m m' : Memory} {sl : Slot} {i : Nat}
    (hi : i < b.nmax)
    (h : ∀ a, (rawWindow sl).hasByte a → m.byte? a = m'.byte? a) :
    m.half? ((rawWindow sl).elem i) = m'.half? ((rawWindow sl).elem i) := by
  refine Memory.half?_congr fun a hl hr => h a ?_
  have hcount : i < (rawWindow sl).count b := by cases sl <;> exact hi
  have hd : a - (rawWindow sl).elem i < (rawWindow sl).stride := by
    rw [rawWindow_stride]
    omega
  have hbyte := Window.hasByte_elem hb hcount hd
  rwa [Nat.add_sub_cancel' hl] at hbyte

/-- Settles O42: the buffer a sample is written to is the active slot's, which is not held. -/
theorem heldFrameIsNeverWritten : Obligations.HeldFrameIsNeverWritten := by
  unfold Obligations.HeldFrameIsNeverWritten
  intro s t sl hc hheld hreset he i hi
  have hwriters := onlyTheListedWriters s t hc he hreset
  refine Memory.half?_raw_congr hc.config.build_ok hi fun a ⟨hl, hr⟩ => by_contra fun hne => ?_
  obtain ⟨-, rfl⟩ := hwriters.raw sl a hl (rawWindow_size sl ▸ hr) hne
  simp [hc.handoff.active_not_held] at hheld

/-! ### The elements that must be written (R157) -/

/-- Element `i` of slot `sl` is a sample of the frame being filled, or one of a ready or held frame. -/
def State.inFrame (s : State) (sl : Slot) (i : Nat) : Prop :=
  (s.run = true ∧ sl = s.active ∧ i < s.wp.toNat) ∨
    ((s.ready.get sl = true ∨ s.held.get sl = true) ∧ i < s.activeN)

theorem framesInv_iff (s : State) : FramesInv s ↔ ∀ sl i, s.inFrame sl i → s.mem.codeWritten sl i := by
  constructor
  · rintro ⟨hfilling, hcomplete⟩ sl i (⟨hr, rfl, hi⟩ | ⟨hflag, hi⟩)
    · exact hfilling hr i hi
    · exact hcomplete sl hflag i hi
  · exact fun h => ⟨fun hr i hi => h _ i (.inl ⟨hr, rfl, hi⟩), fun sl hflag i hi => h sl i (.inr ⟨hflag, hi⟩)⟩

/-- With no ready and no held slot and an empty frame nothing need be written. -/
theorem not_inFrame_of_empty {s : State} (hr : s.ready = SlotFlags.none) (hh : s.held = SlotFlags.none)
    (hw : s.wp = 0#15) (sl : Slot) (i : Nat) : ¬ s.inFrame sl i := by
  simp [State.inFrame, hr, hh, hw]

/-- A ready or held slot is one of a running core (R54). -/
theorem HandoffInv.run_of_flag {s : State} (h : HandoffInv s) {sl : Slot}
    (hflag : s.ready.get sl = true ∨ s.held.get sl = true) : s.run = true := by
  cases hr : s.run with
  | true => rfl
  | false =>
    obtain ⟨hready, hheld, -⟩ := h.stopped hr
    simp [hready, hheld] at hflag

/-- The elements of frames lie in the buffers. -/
theorem ControlInv.lt_nmax_of_inFrame {s : State} (h : ControlInv s) {sl : Slot} {i : Nat} (hi : s.inFrame sl i) :
    i < s.build.nmax := by
  have hrun : s.run = true := hi.elim (·.1) fun hflag => h.handoff.run_of_flag hflag.1
  obtain ⟨hv, hwp⟩ := h.handoff.running hrun
  have hN := h.config.activeN_le_nmax hv
  rcases hi with ⟨-, -, hi⟩ | ⟨-, hi⟩ <;> omega

/-- A state whose frames are frames of `s`, with the buffers of `s`, has its frames written when `s` has. -/
theorem FramesInv.mono {s t : State} (h : FramesInv s) (hc : ControlInv s)
    (hframe : ∀ sl i, t.inFrame sl i → s.inFrame sl i)
    (hmem : ∀ sl a, (rawWindow sl).hasByte a → t.mem.byte? a = s.mem.byte? a) : FramesInv t := by
  rw [framesInv_iff] at h ⊢
  intro sl i hi
  have hs := hframe sl i hi
  rw [Memory.codeWritten, Memory.half?_raw_congr hc.config.build_ok (hc.lt_nmax_of_inFrame hs) (hmem sl)]
  exact h sl i hs

/-! ### Which frames a move makes -/

/-- While the flags gain no slot and the filling goes on as before, no frame is made. -/
theorem inFrame_of_flags {s t : State} (hrun : t.run = s.run ∧ t.active = s.active ∧ t.wp = s.wp) (hN : t.actN = s.actN)
    (hflags : ∀ sl, t.ready.get sl = true ∨ t.held.get sl = true → s.ready.get sl = true ∨ s.held.get sl = true)
    (sl : Slot) (i : Nat) (hi : t.inFrame sl i) : s.inFrame sl i := by
  obtain ⟨hr, ha, hw⟩ := hrun
  refine hi.imp (fun hfill => ?_) (And.imp (hflags sl) fun hlt => ?_)
  · rwa [hr, ha, hw] at hfill
  · rwa [State.activeN, hN] at hlt

/-- What the handoff invariants speak of gives the frames. -/
theorem inFrame_of_handoffPart {s t : State} (h : t.handoffPart = s.handoffPart) (sl : Slot) (i : Nat)
    (hi : t.inFrame sl i) : s.inFrame sl i := by
  simp only [State.handoffPart, Prod.mk.injEq] at h
  obtain ⟨hr, ha, hready, hheld, hw, -, hN⟩ := h
  exact inFrame_of_flags ⟨hr, ha, hw⟩ hN (fun sl => by rw [hready, hheld]; exact id) sl i hi

/-- The slot CLAIM makes held was ready (R152). -/
theorem claimEffect_flags {s : State} {sl : Slot}
    (h : (claimEffect s).ready.get sl = true ∨ (claimEffect s).held.get sl = true) :
    s.ready.get sl = true ∨ s.held.get sl = true := by
  unfold claimEffect at h
  split at h
  · rename_i x hx
    rcases Slot.eq_or_eq_other x sl with rfl | rfl
    · exact .inl (ready_get_of_readySlot hx)
    · simpa using h
  · exact h

/-- No command makes a frame. -/
theorem effectOf_inFrame {i : Instr} {s : State} (h : HandoffInv s) (ha : stillAllowed i s) (sl : Slot) (j : Nat)
    (hj : (effectOf i s).inFrame sl j) : s.inFrame sl j := by
  cases i with
  | nop => exact hj
  | configure =>
    obtain ⟨hr, hh, hw⟩ := h.stopped ha.1
    exact absurd hj (not_inFrame_of_empty (s := effectOf .configure s) hr hh hw sl j)
  | start | stop => exact absurd hj (not_inFrame_of_empty rfl rfl rfl sl j)
  | claim =>
    exact inFrame_of_flags (effectOf_running (i := .claim) (by decide) s) (by simp [effectOf])
      (fun _ => claimEffect_flags) sl j hj
  | release | convert | process =>
    refine inFrame_of_flags (effectOf_running (by decide) s) (by simp [effectOf]) (fun sl hsl => .inl ?_) sl j hj
    simpa [effectOf, h.unclaimed] using hsl
  | fft src dst | mag src | norm => exact inFrame_of_handoffPart rfl sl j hj
  | smp c | frc => exact ha.elim

/-- The only slot FRC makes ready is the active one (R147). -/
theorem eq_active_of_frameComplete_ready {s : State} {sl : Slot} (h : (frameComplete s).ready.get sl = true) :
    sl = s.active ∨ s.ready.get sl = true := by
  rcases Slot.eq_or_eq_other s.active sl with rfl | rfl
  · exact .inl rfl
  · rcases frameComplete_flags s with ⟨-, -, hready⟩ | ⟨-, -, hclear⟩
    · exact .inr (hready ▸ h)
    · simp [hclear] at h

/-- A frame that FRC hands off was being filled, and is full (R147). -/
theorem frameComplete_inFrame {s : State} (hr : s.run = true) (hN : s.wp.toNat = s.activeN) (sl : Slot) (i : Nat)
    (hi : (frameComplete s).inFrame sl i) : s.inFrame sl i := by
  rcases hi with ⟨-, -, hi⟩ | ⟨hready | hheld, hi⟩
  · simp at hi
  · have hi : i < s.activeN := by simpa [State.activeN] using hi
    rcases eq_active_of_frameComplete_ready hready with rfl | hready
    · exact .inl ⟨hr, rfl, hN ▸ hi⟩
    · exact .inr ⟨.inl hready, hi⟩
  · exact .inr ⟨.inr (by simpa using hheld), by simpa [State.activeN] using hi⟩

/-! ### A sample (R144) -/

/-- A sample adds at most its own element to the frame being filled. -/
theorem storeSample_inFrame (c : Half) (s : State) {sl : Slot} {i : Nat} (hi : (storeSample c s).inFrame sl i) :
    s.inFrame sl i ∨ (sl = s.active ∧ i = s.wp.toNat) := by
  rcases hi with ⟨hr, ha, hi⟩ | hflag
  · have hle : i < s.wp.toNat + 1 := hi.trans_le (by simpa using Nat.mod_le _ _)
    rcases Nat.lt_succ_iff_lt_or_eq.mp hle with hlt | heq
    · exact .inl (.inl ⟨hr, ha, hlt⟩)
    · exact .inr ⟨ha, heq⟩
  · exact .inl (.inr hflag)

/-- A sample leaves every other element of the active buffer alone. -/
theorem storeSample_half?_of_ne (c : Half) (s : State) {i : Nat} (hi : i ≠ s.wp.toNat) :
    (storeSample c s).mem.half? ((rawWindow s.active).elem i) = s.mem.half? ((rawWindow s.active).elem i) := by
  refine Memory.half?_congr fun a hl hr => storeSample_byte? c s a ?_
  simp only [sampleOffset, Window.elem, rawWindow_stride] at hl hr ⊢
  omega

/-- A sample keeps the frames written: its own element is, and no other changes. -/
theorem FramesInv.sample {s : State} (h : FramesInv s) (hc : ControlInv s) (c : Half) (hr : s.run = true)
    (hn : s.wp.toNat ≠ s.activeN) : FramesInv (storeSample c s) := by
  rw [framesInv_iff] at h ⊢
  intro sl i hi
  by_cases hown : sl = s.active ∧ i = s.wp.toNat
  · obtain ⟨rfl, rfl⟩ := hown
    exact Option.isSome_of_eq_some (storeSample_half? c s)
  have hs : s.inFrame sl i := (storeSample_inFrame c s hi).resolve_right hown
  have hsame : (storeSample c s).mem.half? ((rawWindow sl).elem i) = s.mem.half? ((rawWindow sl).elem i) := by
    by_cases hsl : sl = s.active
    · subst hsl
      exact storeSample_half?_of_ne c s fun hwp => hown ⟨rfl, hwp⟩
    · exact Memory.half?_raw_congr hc.config.build_ok (hc.lt_nmax_of_inFrame hs) fun a ha =>
        storeSample_byte?_of_not_active hc hr hn c fun ha' => hsl (rawWindow_inj (ha.unique ha'))
  rw [Memory.codeWritten, hsame]
  exact h sl i hs

/-! ### Every step -/

/-- A completion keeps the frames written: no command makes a frame or writes a frame buffer. -/
theorem FramesInv.completed {i : Instr} {s : State} (h : FramesInv s) (hc : ControlInv s) (ha : stillAllowed i s) :
    FramesInv (Machine.complete (effectOf i s)) := by
  refine h.mono hc (effectOf_inFrame hc.handoff ha) fun sl a hraw => by_contra fun hne => ?_
  have hwriter := writer_of_changed hc ha hraw hne
  cases sl <;> simp [rawWindow, Window.writers] at hwriter

/-- Every move of the core keeps the frames written. -/
theorem FramesInv.move {a : Agent} {u v : State} (hm : CoreMove a u v) (hc : ControlInv u) (h : FramesInv u) :
    FramesInv v := by
  cases hm with
  | register k r w => exact h.mono hc (inFrame_of_handoffPart (by simp [State.handoffPart])) fun _ _ _ => by simp
  | rejected | portError | released => exact h.mono hc (inFrame_of_handoffPart rfl) fun _ _ _ => rfl
  | accepted k i => exact h.mono hc (inFrame_of_handoffPart (by cases i <;> rfl)) fun _ _ _ => by cases i <;> rfl
  | work k w o x _ hw ho =>
    have := windowAt_work hw ho
    refine h.mono hc (inFrame_of_handoffPart rfl) fun sl a ha => Memory.byte?_writeWords_of_outside _ _ _ a (.inl ?_)
    have := rawWindow_bounds ha
    omega
  | completed i _ hb hd => exact h.completed hc (hc.pending.allowed hb hd)
  | sample c _ hr hn => exact h.sample hc c hr hn
  | frame _ hr hN => exact h.mono hc (frameComplete_inFrame hr hN) fun _ _ _ => by simp
  | asserted => exact (framesInv_iff _).mpr fun sl i hi => absurd hi (not_inFrame_of_empty rfl rfl rfl sl i)

/-- The frames invariant speaks of the core only. -/
theorem FramesInv.of_core {s t : State} (h : t.core = s.core) (hc : ControlInv s) (hs : FramesInv s) : FramesInv t :=
  hs.mono hc (inFrame_of_handoffPart (part_of_core State.handoffPart h)) fun _ a _ => part_of_core (·.mem.byte? a) h

/-- Settles O40: only a sample adds an element to a frame, and writes it; FRC hands off full frames only. -/
theorem stepKeepsFramesWritten : Obligations.StepKeepsFramesWritten := by
  unfold Obligations.StepKeepsFramesWritten
  intro s t hc hf he
  exact (step_keeps (P := fun s => ControlInv s ∧ FramesInv s) (fun _ _ h hs => ⟨hs.1.of_core h, hs.2.of_core h hs.1⟩)
    (fun _ _ _ hm hs => ⟨hs.1.move hm, hs.2.move hm hs.1⟩) he ⟨hc, hf⟩).2

end Sys2Proof.Machine
end

section
/-! PROOFS. CLAIM in each state of the ready flags (R152, R154), and FRC in each of its cases (R147 to R151). -/

namespace Sys2Proof.Machine

/-! ### CLAIM -/

/-- CLAIM takes the slot that alone is ready (R152). -/
theorem claimEffect_of_readySlot {s : State} {sl : Slot} (h : s.readySlot? = some sl) :
    claimEffect s = { s with ready := s.ready.set sl false, held := s.held.set sl true } := by
  unfold claimEffect
  rw [h]

/-- Where not exactly one slot is ready CLAIM has no effect (R152, R154). -/
theorem claimEffect_of_none {s : State} (h : s.readySlot? = none) : claimEffect s = s := by
  unfold claimEffect
  rw [h]

/-- Settles O17: the ready flags name the slot claimed, or none. -/
theorem claimCompletes : Obligations.ClaimCompletes := by
  unfold Obligations.ClaimCompletes
  intro s hb
  rw [exec_completes .claim rfl s hb, effectOf]
  refine ⟨fun h => ?only_slot0, fun h => ?only_slot1, fun h => ?no_single_slot⟩
  case only_slot0 =>
    rw [claimEffect_of_readySlot (sl := .s0) (by simp [State.readySlot?, h]), h]
    rfl
  case only_slot1 =>
    rw [claimEffect_of_readySlot (sl := .s1) (by simp [State.readySlot?, h]), h]
    rfl
  case no_single_slot =>
    rw [claimEffect_of_none (by rcases h with h | h <;> simp [State.readySlot?, h])]
    rfl

/-! ### FRC -/

/-- FRC of a running core's full frame completes it (R147). -/
theorem exec_frc_full {s : State} (hr : s.run = true) (hN : s.wp.toNat = s.activeN) :
    exec .frc s = .next (frameComplete s) := by
  simp [exec, execFrc, hr, hN]

/-- With the other slot free of a hold the full frame is handed off (R147). -/
theorem frameComplete_of_not_held {s : State} (hh : s.held.get s.active.other = false) :
    frameComplete s = handoff (dropUnclaimed s) := by
  simp [frameComplete, hh]

/-- Settles O24: a short frame is refused; a full one is lost to a hold, or handed off with or without an older frame to
drop. -/
theorem frameCompletion : Obligations.FrameCompletion := by
  unfold Obligations.FrameCompletion
  intro s hr
  refine ⟨fun hN => ?short, fun hN hh => ?held, fun hN hh hready => ?unclaimed, fun hN hh hready => ?free⟩
  case short => simp [exec, execFrc, hr, hN]
  case held =>
    rw [exec_frc_full hr hN, frameComplete, if_pos hh]
    rfl
  case unclaimed =>
    rw [exec_frc_full hr hN, frameComplete_of_not_held hh, dropUnclaimed, if_pos hready]
    rfl
  case free =>
    rw [exec_frc_full hr hN, frameComplete_of_not_held hh, dropUnclaimed, if_neg (by simp [hready])]
    rfl

end Sys2Proof.Machine
end

section
/-! PROOFS. The maximum search, the clamp and the quantization of NORM (44_processor.md R163 to R167), for NUM = binary32. -/

namespace Sys2Proof.NUM

/-! ### Non-negative values, their order and their rounding -/

theorem signedBits_of_nonneg {x : Word} (hs : sign x = false) : signedBits x = magBits x := by simp [signedBits, hs]

theorem signedBits_zero : signedBits zero = 0 := by decide

theorem signedBits_one : signedBits one = 0x3F800000 := by decide

/-- A positive value has the sign bit 0. -/
theorem sign_of_signedBits_pos {x : Word} (h : 0 < signedBits x) : sign x = false := by
  unfold signedBits at h
  split at h
  · omega
  · simpa using ‹¬ sign x = true›

/-- Only a value that is no NaN is greater than another. -/
theorem not_nan_of_fgt {x y : Word} (h : fgt x y = true) : isNaN x = false := by
  by_contra hx
  have hf : fgt x y = false := (nan_operand (.inl (by simpa using hx))).2.2.2
  simp [hf] at h

/-- A value at most an encoding's is not rounded above that encoding. -/
theorem RoundsTo.le_of_le {m n : Nat} {t : ℝ} (h : RoundsTo m t) (ht : t ≤ bitsValue n) : m ≤ n := by
  by_contra hlt
  have hval := bitsValue_lt (not_le.mp hlt) h.le_inf
  have hmid := (h.below n (not_le.mp hlt)).1
  linarith

/-! ### Products and integer parts -/

theorem units_one : units one = 2 ^ 149 := by decide

/-- 1.0 times a non-negative finite value is that value. -/
theorem fmul_one_left {x : Word} (hx : isFinite x = true) (hs : sign x = false) : fmul one x = x := by
  have hround : roundMag (2 ^ 149 * units x) (2 ^ 149) = magBits x := by
    rw [units_magBits, Nat.mul_comm]
    exact roundMag_units _ _ (by positivity) ((isFinite_iff x).mp hx)
  calc fmul one x
    _ = pack false (magBits x) := by
      rw [fmul_finite (by decide) hx, units_one, hround, hs]
      rfl
    _ = x := by rw [← hs, pack_sign_magBits]

/-- A value in [0, 1] times a non-negative finite value is non-negative and not above that value. -/
theorem fmul_le_right {c x : Word} (hc : sign c = false) (hle : magBits c ≤ magBits one) (hx : isFinite x = true)
    (hs : sign x = false) : sign (fmul c x) = false ∧ magBits (fmul c x) ≤ magBits x := by
  have hfinite : isFinite c = true := (isFinite_iff c).mpr (lt_of_le_of_lt hle (by decide))
  have hunits : units c ≤ 2 ^ 149 := by
    rw [← units_one]
    exact not_lt.mp fun h => absurd ((units_lt_iff one c).mp h) (not_lt.mpr hle)
  rw [fmul_finite hfinite hx, sign_pack _ _ (roundMag_lt _ _), magBits_pack _ _ (roundMag_lt _ _), hc, hs]
  refine ⟨rfl, (roundMag_roundsTo _ (2 ^ 149) (by positivity)).le_of_le ?_⟩
  rw [bitsValue_magBits, div_le_iff₀ (by positivity), ← Nat.cast_mul, Nat.cast_le, Nat.mul_comm]
  exact Nat.mul_le_mul_left _ hunits

theorem trunc_nonneg {x : Word} (hx : isFinite x = true) (hs : sign x = false) : trunc x = units x / 2 ^ 149 := by
  simp [trunc, hx, hs]

/-- A natural below 2^24 is the integer part of its conversion. -/
theorem trunc_f32 {n : Nat} (hn : n < 2 ^ 24) : trunc (f32 n) = n := by
  have habs : (n : Int).natAbs < 2 ^ 24 := hn
  rw [trunc_nonneg (f32_exact habs).1 (by simp [sign_f32]), units_f32 habs]
  exact Nat.mul_div_cancel n (by positivity)

/-- The integer part of a non-negative value is monotone. -/
theorem trunc_le_trunc {x y : Word} (hx : sign x = false) (hy : isFinite y = true) (hsy : sign y = false)
    (hle : magBits x ≤ magBits y) : trunc x ≤ trunc y := by
  have hfinite : isFinite x = true := (isFinite_iff x).mpr (lt_of_le_of_lt hle ((isFinite_iff y).mp hy))
  rw [trunc_nonneg hfinite hx, trunc_nonneg hy hsy]
  exact Nat.div_le_div_right (not_lt.mp fun h => absurd ((units_lt_iff y x).mp h) (not_lt.mpr hle))

end Sys2Proof.NUM

namespace Sys2Proof.Machine

open Sys2Proof.NUM

/-! ### The maximum search (R163, R164) -/

theorem maxMagnitude_append_singleton (xs : List Word) (x : Word) :
    maxMagnitude (xs ++ [x]) = if fgt x (maxMagnitude xs) then x else maxMagnitude xs := by
  rw [maxMagnitude, List.foldl_append]
  rfl

/-- What the search may end at: +0.0 or a member, no NaN, not negative, and no member is above it. -/
structure IsMaximum (m : Word) (xs : List Word) : Prop where
  not_nan : isNaN m = false
  nonneg : sign m = false
  zero_or_mem : m = zero ∨ m ∈ xs
  not_below : ∀ x ∈ xs, fgt x m = false

/-- A member above the maximum so far becomes the maximum; it is above all that the old one was not below. -/
theorem IsMaximum.append_above {m x : Word} {xs : List Word} (h : IsMaximum m xs) (hx : fgt x m = true) :
    IsMaximum x (xs ++ [x]) := by
  have hnan := not_nan_of_fgt hx
  have hlt := (fgt_iff_signedBits hnan h.not_nan).mp hx
  rw [signedBits_of_nonneg h.nonneg] at hlt
  refine ⟨hnan, sign_of_signedBits_pos (by omega), .inr (by simp), fun y hy => Bool.eq_false_iff.mpr fun hyx => ?_⟩
  have hnany := not_nan_of_fgt hyx
  have hlty := (fgt_iff_signedBits hnany hnan).mp hyx
  rcases List.mem_append.mp hy with hy | hy
  · have hym := mt (fgt_iff_signedBits hnany h.not_nan).mpr (Bool.eq_false_iff.mp (h.not_below y hy))
    rw [signedBits_of_nonneg h.nonneg] at hym
    omega
  · obtain rfl := List.mem_singleton.mp hy
    omega

/-- Any other member leaves the maximum. -/
theorem IsMaximum.append_other {m x : Word} {xs : List Word} (h : IsMaximum m xs) (hx : fgt x m = false) :
    IsMaximum m (xs ++ [x]) where
  not_nan := h.not_nan
  nonneg := h.nonneg
  zero_or_mem := h.zero_or_mem.imp_right fun hm => List.mem_append_left _ hm
  not_below y hy := (List.mem_append.mp hy).elim (h.not_below y) fun hy => List.mem_singleton.mp hy ▸ hx

theorem maxMagnitude_isMaximum (xs : List Word) : IsMaximum (maxMagnitude xs) xs := by
  induction xs using List.reverseRecOn with
  | nil => exact ⟨by decide, by decide, .inl rfl, by simp⟩
  | append_singleton xs x ih =>
    rw [maxMagnitude_append_singleton]
    split
    · exact ih.append_above ‹_›
    · exact ih.append_other (by simpa using ‹¬ fgt x _ = true›)

/-- Settles O55, by induction on the list from its end, as the search goes. -/
theorem maximumSearch : Obligations.MaximumSearch := by
  unfold Obligations.MaximumSearch
  intro xs
  obtain ⟨hnan, hsign, hmem, hmax⟩ := maxMagnitude_isMaximum xs
  exact ⟨hnan, hsign, hmem, hmax⟩

/-! ### Normalize, clamp and quantize (R163, R165) -/

/-- The clamp gives a value in [0, 1], of a NaN too. -/
theorem clamp_mem_unit (x : Word) : sign (clamp x) = false ∧ magBits (clamp x) ≤ magBits one := by
  unfold clamp
  split
  · exact ⟨by decide, le_rfl⟩
  · split
    · have hnan := not_nan_of_fgt ‹fgt x zero = true›
      have hpos := (fgt_iff_signedBits hnan (by decide)).mp ‹fgt x zero = true›
      have hone := mt (fgt_iff_signedBits hnan (by decide)).mpr ‹¬ fgt x one = true›
      rw [signedBits_zero] at hpos
      have hs := sign_of_signedBits_pos hpos
      rw [signedBits_of_nonneg hs, signedBits_of_nonneg (by decide)] at hone
      exact ⟨hs, by omega⟩
    · exact ⟨by decide, by decide⟩

theorem clamp_one : clamp one = one := by decide

/-- MAXOUT of a legal OUT_BITS fits a 16-bit code. -/
theorem maxOut_lt {outBits : Nat} (h : outBits ≤ 16) : 2 ^ outBits - 1 < 2 ^ 16 := by
  have hpow : 2 ^ outBits ≤ 2 ^ 16 := Nat.pow_le_pow_right (by omega) h
  omega

/-- A code is at most MAXOUT (R165). -/
theorem quantize_le {n : Nat} (hn : n < 2 ^ 16) (m x : Word) : (quantize binary32 n m x).toNat ≤ n := by
  have hfinite : isFinite (f32 n) = true := (f32_exact (by omega)).1
  have hsign : sign (f32 n) = false := by simp [sign_f32]
  obtain ⟨hc, hle⟩ := clamp_mem_unit (fdiv x m)
  obtain ⟨hs, hmag⟩ := fmul_le_right hc hle hfinite hsign
  calc (quantize binary32 n m x).toNat
    _ ≤ trunc (fmul (clamp (fdiv x m)) (f32 n)) := by
      rw [quantize, BitVec.toNat_ofNat]
      exact Nat.mod_le _ _
    _ ≤ trunc (f32 n) := trunc_le_trunc hs hfinite hsign hmag
    _ = n := trunc_f32 (by omega)

/-- The quotient 1.0 gives MAXOUT (R165). -/
theorem quantize_of_quotient_one {n : Nat} (hn : n < 2 ^ 16) {m x : Word} (h : fdiv x m = one) :
    (quantize binary32 n m x).toNat = n := by
  have hmul : fmul one (f32 n) = f32 n := fmul_one_left (f32_exact (by omega)).1 (by simp [sign_f32])
  calc (quantize binary32 n m x).toNat
    _ = (BitVec.ofNat 16 (trunc (fmul (clamp (fdiv x m)) (f32 n)))).toNat := rfl
    _ = n := by rw [h, clamp_one, hmul, trunc_f32 (by omega), BitVec.toNat_ofNat, Nat.mod_eq_of_lt hn]

/-- Settles O56: the clamped quotient is in [0, 1], so its product with MAXOUT is rounded to at most MAXOUT. -/
theorem quantizedCodeBound : Obligations.QuantizedCodeBound := by
  unfold Obligations.QuantizedCodeBound
  exact fun outBits m x _ hbits => ⟨quantize_le (maxOut_lt hbits) m x, quantize_of_quotient_one (maxOut_lt hbits)⟩

/-! ### The bins that have the maximum (R167) -/

/-- A maximum that is not below a positive epsilon is not zero. -/
theorem isZero_of_not_flt {m eps : Word} (hnan : isNaN m = false) (hpos : 0 < eps.toNat) (heps : eps.toNat < 0x7F800000)
    (h : flt m eps = false) : isZero m = false := by
  have hmag : magBits eps = eps.toNat := Nat.mod_eq_of_lt (by omega)
  have hsign : sign eps = false := by
    rw [sign, BitVec.msb_eq_decide]
    exact decide_eq_false (by omega)
  have hnaneps : isNaN eps = false := decide_eq_false (by rw [hmag, infBits]; omega)
  have hle := mt (fgt_iff_signedBits hnaneps hnan).mpr (Bool.eq_false_iff.mp h)
  rw [signedBits_of_nonneg hsign, hmag] at hle
  refine decide_eq_false fun hz => hle ?_
  rw [← natAbs_signedBits, Int.natAbs_eq_zero] at hz
  omega

/-- Settles O57: the divisor is the maximum, and the quotient of a finite non-zero value by itself is 1.0. -/
theorem maximumBinGetsMaxout : Obligations.MaximumBinGetsMaxout := by
  unfold Obligations.MaximumBinGetsMaxout
  intro outBits eps xs _ hbits hpos heps hmags hflt x hx hmax
  obtain ⟨hfinite, -⟩ := hmags x hx
  have hdivisor : divisor eps xs = x := by rw [divisor, hflt, hmax]; rfl
  have hzero : isZero x = false := by
    rw [← hmax] at hflt
    exact isZero_of_not_flt (not_nan_inf_of_finite hfinite).1 hpos heps hflt
  refine quantize_of_quotient_one (maxOut_lt hbits) ?_
  rw [hdivisor, fdiv_of_units_eq hfinite hfinite hzero rfl, bne_self_eq_false]
  rfl

end Sys2Proof.Machine
end

section
/-! PROOFS. NORM and PROCESS (44_processor.md R163, R168, R170). -/

namespace Sys2Proof.Machine

/-! ### NORM -/

/-- Element `k` of MAG as step 5 reads it is a value a read of it can give. -/
theorem normMagnitudes_mayRead (s : State) {k : Nat} (hk : k < s.activeN / 2) :
    s.mem.mayReadWord (Window.mag.elem k) ((normMagnitudes s).1.getD k 0#32) := by
  rw [List.getD_eq_getElem _ _ (by rwa [normMagnitudes_length])]
  exact s.mem.mayReadWord_readWords Window.mag.base s.draws hk

/-- Code `k` of NORM is that of a value the magnitude can give. -/
theorem normEffect_half? (s : State) {k : Nat} (hk : k < s.activeN / 2) :
    ∃ x, s.mem.mayReadWord (Window.mag.elem k) x ∧
      (normEffect s).mem.half? (Window.spec.elem k) = some (quantize s.num s.maxOut (normDivisor s) x) := by
  refine ⟨_, s.mem.mayReadWord_readWords Window.mag.base (normMagnitudes s).2 hk, ?_⟩
  calc (normEffect s).mem.half? (Window.spec.elem k)
    _ = some ((normCodes s)[k]'(by rwa [normCodes_length])) :=
      s.mem.half?_writeHalves Window.spec.base (normCodes s) k (by rwa [normCodes_length])
    _ = some _ := congrArg some (List.getElem_map _)

/-- Settles O21: NORM completes with its effect, whose divisor, codes and frame are known. -/
theorem normCompletes : Obligations.NormCompletes := by
  unfold Obligations.NormCompletes
  intro s hb _ _
  exact ⟨_, exec_completes .norm rfl s hb, rfl,
    ⟨(normMagnitudes s).1, normMagnitudes_length s, fun k hk => normMagnitudes_mayRead s hk, rfl⟩,
    fun k hk => normEffect_half? s hk, normEffect_byte? s⟩

/-! ### PROCESS -/

/-- A command that executes in a state another one's completion left, apart from `busy`, completes as it would have without
that completion: CMD_DONE is set already (R168). -/
theorem exec_after_complete (i : Instr) (h : formatOf i = .command) (s : State)
    (hflags : effectOf i { s with busy := true, irqStatus := s.irqStatus ||| evCmdDone } =
      { effectOf i s with busy := true, irqStatus := s.irqStatus ||| evCmdDone })
    (hirq : (effectOf i s).irqStatus = s.irqStatus) :
    exec i { complete s with busy := true } = .next (complete (effectOf i s)) := by
  rw [exec_completes i h _ rfl]
  refine congrArg Host.Outcome.next ?_
  calc complete (effectOf i { s with busy := true, irqStatus := s.irqStatus ||| evCmdDone })
    _ = complete { effectOf i s with busy := true, irqStatus := s.irqStatus ||| evCmdDone } := by rw [hflags]
    _ = complete (effectOf i s) := by simp [complete, hirq, BitVec.or_assoc]

/-- What PROCESS leaves alone besides the RAM (R170). -/
theorem complete_processEffect_frame (s : State) : complete (processEffect s) =
    { s with
      mem := (processEffect s).mem, draws := (processEffect s).draws, maxMag := (processEffect s).maxMag
      specSeq := s.specSeq + 1#32, held := s.held.set s.claimSlot false, busy := false
      irqStatus := s.irqStatus ||| 0x1#4 } := by
  simp [complete, evCmdDone]

/-- Settles O22: PROCESS completes with the composition of the four effects, and so do the four commands in turn. -/
theorem processCompletes : Obligations.ProcessCompletes := by
  unfold Obligations.ProcessCompletes
  intro s hb _ _
  have hfft := exec_after_complete (.fft .a .a) rfl (convertEffect s) (fftEffect_flags .a .a _ _ _) rfl
  have hmag := exec_after_complete (.mag .a) rfl (fftEffect .a .a (convertEffect s)) (magEffect_flags .a _ _ _) rfl
  have hnorm := exec_after_complete .norm rfl (magEffect .a (fftEffect .a .a (convertEffect s)))
    (normEffect_flags _ _ _) rfl
  refine ⟨_, _, _, _, exec_completes .process rfl s hb, exec_completes .convert rfl s hb, hfft, hmag, hnorm,
    complete_processEffect_frame s, fun a hwork hmag hspec => ?_⟩
  exact processEffect_byte? s a (by omega) (by omega) (by omega)

end Sys2Proof.Machine
end

section
/-! PROOFS. What raising an error records in ERR and in IRQ_STATUS (60_exceptions.md R173, R174). -/

namespace Sys2Proof.Machine

/-! ### ERR after an error (R38, R174) -/

/-- While CAUSE is 0 an error is the first one since the clear (R174). -/
theorem ErrReg.record_of_clear {r : ErrReg} (h : r.cause = 0#8) (port : Bool) (opc : BitVec 8) (e : ErrCode) :
    r.record port opc e = ⟨e.code, if port then 0#8 else opc, port, false⟩ := if_pos h

/-- While CAUSE is not 0 an error is a later one (R174). -/
theorem ErrReg.record_of_set {r : ErrReg} (h : r.cause ≠ 0#8) (port : Bool) (opc : BitVec 8) (e : ErrCode) :
    r.record port opc e = { r with multi := true } := if_neg h

/-- The ERR clause of O26: the word of ERR has the value of its fields put side by side. -/
theorem readReg_err_eq (s : State) : readReg .err s = BitVec.ofNat 32
    (s.err.multi.toNat * 2 ^ 17 + s.err.port.toNat * 2 ^ 16 + s.err.opc.toNat * 2 ^ 8 + s.err.cause.toNat) := by
  obtain ⟨-, -, -, -, -, -, -, -, -, herr, -⟩ := registerFields s
  exact herr

/-- MULTI is bit 17 of ERR: setting it leaves every other bit. -/
theorem ErrReg.word_set_multi (r : ErrReg) : ErrReg.word { r with multi := true } = r.word ||| 0x00020000#32 := by
  refine BitVec.eq_of_getLsbD_eq fun k hk => ?_
  simp only [ErrReg.word, BitVec.getLsbD_or, BitVec.getLsbD_append]
  interval_cases k <;> simp

/-! ### Raising an error (R174) -/

/-- Settles O11: ERR records by whether its CAUSE was clear, and ERROR is bit 3 of IRQ_STATUS. -/
theorem errorRecording : Obligations.ErrorRecording := by
  unfold Obligations.ErrorRecording
  refine ⟨rfl, fun p opc e s => ⟨fun hclear => ?_, fun hset => ?_, ?_, rfl⟩⟩
  · rw [readReg_err_eq, raise_err, ErrReg.record_of_clear hclear]
    cases p <;> simp
  · calc (s.err.record p opc e).word
      _ = ErrReg.word { s.err with multi := true } := by rw [ErrReg.record_of_set hset]
      _ = s.err.word ||| 0x00020000#32 := s.err.word_set_multi
  · exact BitVec.setWidth_or

end Sys2Proof.Machine
end

section
/-! PROOFS. The reset input: what asserting it leaves of a state, and what an arrival does while it is asserted
(70_reset_and_hazards.md R190). -/

namespace Sys2Proof.Machine

/-- While reset is asserted the oldest operation of a master is answered as in reset, whether or not it would hold (R190). -/
theorem hostStep_inReset {k : Nat} {s : State} {op : HostOp} {rest : List HostOp} (hr : s.resetHeld = true)
    (hq : s.masters.getD k [] = op :: rest) : hostStep k s = .next (hostOpInReset k op rest s) := by
  unfold hostStep
  rw [hq]
  exact if_pos hr

/-- While reset is asserted the oldest producer word is taken and has no effect (R190). -/
theorem producerStep_inReset {s : State} {w : Word} {rest : List Word} (hr : s.resetHeld = true)
    (hp : s.port = w :: rest) : producerStep s = .next { s with port := rest } := by
  unfold producerStep
  rw [hp]
  exact if_pos hr

/-- Settles O36: asserting reset, then a write, a read and a producer word while it is asserted. -/
theorem resetInput : Obligations.ResetInput := by
  unfold Obligations.ResetInput
  refine fun s => ⟨⟨applyReset s, rfl, rfl⟩, fun hr => ⟨fun k a v rest hq => ?_, fun k a rest hq => ?_, fun w rest hp => ?_⟩⟩
  · exact hostStep_inReset hr hq
  · exact hostStep_inReset hr hq
  · exact producerStep_inReset hr hp

end Sys2Proof.Machine
end
